-- ==== Sys2Proof/Word.lean ====
section
/-! DEFINITION. The values the block computes with: bytes of a packed call, the two input sources, the
`BitExpr` tree (spec/30_encoding.md R49, R51), the `Word` (R55), bit vectors of a stated width
(spec/20_memory.md R36) and what a renderer's callbacks build (spec/44_datapath.md R106). -/

namespace Sys2Proof

/-- One byte of a packed call (the model's own interface, notes/assumptions/1.md). -/
abbrev Byte := BitVec 8

/-- R51: the source of an input bit; there are exactly two. -/
inductive SourceId where
  | crc
  | data
  deriving DecidableEq, Repr, Inhabited

mutual

/-- R49: a bit expression, one of exactly three variants. `xor` keeps its operands in order; an empty operand
list is representable, and every operation that meets one raises `ContractViolation(EmptyXor)` (R57, R68). -/
inductive BitExpr where
  | input (s : SourceId) (i : Nat)
  | const (b : Bool)
  | xor (ops : ExprList)
  deriving DecidableEq, Repr, Inhabited

/-- The ordered operand list of an `Xor` node (R49). It is a list of its own, declared together with `BitExpr`,
so that equality of trees is decidable by derivation; `toList` and `ofList` carry it to and from `List BitExpr`. -/
inductive ExprList where
  | nil
  | cons (e : BitExpr) (l : ExprList)
  deriving DecidableEq, Repr, Inhabited

end

namespace ExprList

/-- The operands as an ordinary list, in order. -/
def toList : ExprList → List BitExpr
  | .nil => []
  | .cons e l => e :: l.toList

/-- The operand list with the given elements, in order. -/
def ofList : List BitExpr → ExprList
  | [] => .nil
  | e :: l => .cons e (ofList l)

@[simp] theorem toList_nil : ExprList.nil.toList = [] := rfl

@[simp] theorem toList_cons (e : BitExpr) (l : ExprList) : (ExprList.cons e l).toList = e :: l.toList := rfl

@[simp] theorem ofList_nil : ofList [] = .nil := rfl

@[simp] theorem ofList_cons (e : BitExpr) (l : List BitExpr) : ofList (e :: l) = .cons e (ofList l) := rfl

@[simp] theorem toList_ofList (l : List BitExpr) : (ofList l).toList = l := by
  induction l with
  | nil => rfl
  | cons e l ih => simp [ih]

@[simp] theorem ofList_toList (l : ExprList) : ofList l.toList = l := by
  induction l using ExprList.rec (motive_1 := fun _ => True) with
  | input _ _ => trivial
  | const _ => trivial
  | xor _ _ => trivial
  | nil => rfl
  | cons e l _ ih => simp [ih]

end ExprList

/-- `Xor[e1, ..., en]` of the spec's notation (spec/00_scope.md section 6), from an ordinary list. -/
abbrev BitExpr.xorOf (l : List BitExpr) : BitExpr := .xor (ExprList.ofList l)

/-- R55: a Word, an ordered sequence of BitExpr; index 0 is the least significant bit (R10). -/
abbrev Word := List BitExpr

/-- A bit vector together with its width (R36): a value that does not fit its width cannot be written. -/
structure Bits where
  width : Nat
  val : BitVec width
  deriving DecidableEq, Repr, Inhabited

/-- What the callbacks of WALK build (R106): text, a number or a bit. -/
inductive Rendered where
  | text (t : List Char)
  | number (n : Nat)
  | bit (b : Bool)
  deriving DecidableEq, Repr, Inhabited

end Sys2Proof
end

