-- ==== Sys2Proof/Config.lean ====
section
/-! DEFINITION. What is fixed for the machine and what the spec leaves to the renderer: the pad width of the sort
key (spec/00_scope.md R9) and the callbacks of an environment's own renderer (spec/44_datapath.md R106, U6), which are
uninterpreted. -/

namespace Sys2Proof

/-- R9, R52: `KEY_DIGITS`, the width to which the index in a sort key is padded with zeros. -/
def Config.keyDigits : Nat := 7

/-- R106: the render-as-reference callback of the environment's renderer number `id`. The spec leaves it to the
renderer, so nothing is known of it (notes/assumptions/9.md). -/
opaque Config.envRef : (id : Nat) → SourceId → Nat → Rendered

/-- R106: the render-as-constant callback of the environment's renderer number `id` (uninterpreted). -/
opaque Config.envCon : (id : Nat) → Bool → Rendered

/-- R106, U6: the render-as-xor callback of the environment's renderer number `id` (uninterpreted). -/
opaque Config.envXr : (id : Nat) → List Rendered → Rendered

end Sys2Proof
end

