-- ==== Sys2Proof/Syntax.lean ====
section
/-! DEFINITION. The Configuration record (spec/30_encoding.md R45), the operand forms, and the 24 operations of
R56 as the one inductive `Instr`. -/

namespace Sys2Proof

/-- R22, R47: the optimisation flag set, three independent flags. -/
structure OptFlags where
  flatten : Bool
  eliminate : Bool
  lexSort : Bool
  deriving DecidableEq, Repr, Inhabited

/-- R7, R45: a Configuration. `P`, `W` and `D` are unbounded natural numbers (R8); VALIDATE checks them. -/
structure Configuration where
  P : Nat
  W : Nat
  D : Nat
  right : Bool
  opt : OptFlags
  deriving DecidableEq, Repr, Inhabited

/-- The Words of runs that a call can name (notes/assumptions/1.md): the working Word and the two symbolic input words of the run
the machine holds (R14), and the Word handed to the caller by the last run that ended done. -/
inductive WordReg where
  | ww
  | inCrc
  | inData
  | out
  deriving DecidableEq, Repr, Inhabited

/-- A Word (or list of BitExpr) operand: a Word of the run, or one the caller supplies with the call. -/
inductive WordSrc where
  | reg (r : WordReg)
  | lit (w : Word)
  deriving DecidableEq, Repr, Inhabited

/-- A BitExpr operand: element `j` of a Word of the run, or a node the caller supplies with the call. -/
inductive ExprSrc where
  | elem (r : WordReg) (j : Nat)
  | lit (e : BitExpr)
  deriving DecidableEq, Repr, Inhabited

/-- A polynomial operand: the run's `P`, or a number the caller supplies with the call. -/
inductive PolySrc where
  | cfg
  | lit (p : Nat)
  deriving DecidableEq, Repr, Inhabited

/-- A flag set operand: the run's `opt`, or a set the caller supplies with the call. -/
inductive OptSrc where
  | cfg
  | lit (o : OptFlags)
  deriving DecidableEq, Repr, Inhabited

/-- A Configuration operand: the run's, or one the caller supplies with the call. -/
inductive CfgSrc where
  | cfg
  | lit (c : Configuration)
  deriving DecidableEq, Repr, Inhabited

/-- The operands of STEPL and STEPR. `run`: the step is taken by the current generation run, on the working Word, the
run's polynomial and the data bit the step counter selects ("when called from GEN", R84, R86). `call`: the operation is
called directly with three operands. -/
inductive StepArgs where
  | run
  | call (word : WordSrc) (d : ExprSrc) (p : PolySrc)
  deriving DecidableEq, Repr, Inhabited

/-- The operands of WFLAT. `run`: the working Word of the current run is flattened in place (R19, R98). -/
inductive FlatArgs where
  | run
  | call (word : WordSrc)
  deriving DecidableEq, Repr, Inhabited

/-- The operands of WSIMP. `run`: the simplification pass of the current run, on the working Word and the run's `opt`
(R87, R88). -/
inductive SimpArgs where
  | run (sortLex : Bool)
  | call (word : WordSrc) (opt : OptSrc) (sortLex : Bool)
  deriving DecidableEq, Repr, Inhabited

/-- The operands of CRCREF (R103): every vector has the width its place states, by type. -/
structure RefArgs where
  W : Nat
  D : Nat
  crc : BitVec W
  data : BitVec D
  poly : BitVec W
  right : Bool
  deriving DecidableEq, Repr, Inhabited

/-- The operands of CRCSTREAM beside the Word (R108): `INIT`, the data words, `XOROUT`. -/
structure StreamArgs where
  W : Nat
  D : Nat
  init : BitVec W
  ws : List (BitVec D)
  xorout : BitVec W
  deriving DecidableEq, Repr, Inhabited

/-- How a text renderer writes an input bit: `s[i]` (R58) or `s_in(i)` (spec/95_test_vectors.md V-D8). -/
inductive RefStyle where
  | bracket
  | call
  deriving DecidableEq, Repr, Inhabited

/-- The operator token of a text renderer (R107): `^` or `xor`. -/
inductive OpToken where
  | caret
  | xorWord
  deriving DecidableEq, Repr, Inhabited

/-- The three callbacks a renderer hands to WALK (R106), named: a text renderer, the other callbacks V-D8 lists, the
two R106 names (BXEVAL and BXKEY as walks), and an environment's own renderer, whose callbacks are uninterpreted. -/
inductive Renderer where
  | text (style : RefStyle) (op : OpToken) (bare : Bool)
  | leafCount
  | depth
  | value (crc data : Bits)
  | sortKey
  | env (id : Nat)
  deriving DecidableEq, Repr, Inhabited

/-- R56: the 24 operations, one constructor per row of spec/opcode_table.json. -/
inductive Instr where
  | mkin (s : SourceId) (i : Nat)
  | mkconst (b : Bool)
  | mkxor (ops : WordSrc)
  | bxeq (a b : ExprSrc)
  | bxkey (e : ExprSrc)
  | bxeval (e : ExprSrc) (crc data : Bits)
  | flatten (e : ExprSrc)
  | elim (e : ExprSrc)
  | lexsort (e : ExprSrc)
  | simplify (e : ExprSrc) (opt : OptSrc) (sortLex : Bool)
  | validate (c : CfgSrc)
  | inwords (c : CfgSrc)
  | stepl (args : StepArgs)
  | stepr (args : StepArgs)
  | gen (c : CfgSrc)
  | wnew (l : WordSrc)
  | wget (w : WordSrc) (j : Nat)
  | wflat (args : FlatArgs)
  | wsimp (args : SimpArgs)
  | crcstep (w : WordSrc) (crc data : Bits)
  | crcref (args : RefArgs)
  | walk (e : ExprSrc) (r : Renderer)
  | crcstream (w : WordSrc) (args : StreamArgs)
  | bitrev (v : Bits)
  deriving DecidableEq, Repr, Inhabited

end Sys2Proof
end

