-- ==== Sys2Proof/WellFormed.lean ====
section
/-! DEFINITION. Which operands a packed call may carry: the widths of spec/20_memory.md R36, a Word of `W >= 1` elements
where one is stepped (spec/42_unroll.md R84, R85), a valid Configuration for INWORDS (R83). The decoder refuses every other
term. -/

namespace Sys2Proof

/-- R7: the Configuration has legal values. -/
def Configuration.legal (c : Configuration) : Bool :=
  decide (1 ≤ c.W) && decide (1 ≤ c.D) && decide (c.P < 2 ^ c.W)

/-- R83: a Configuration supplied to INWORDS is valid. -/
def CfgSrc.legal : CfgSrc → Bool
  | .cfg => true
  | .lit c => c.legal

/-- R84, R85: a Word supplied to a step has at least one element. -/
def StepArgs.legal : StepArgs → Bool
  | .call (.lit w) _ _ => !w.isEmpty
  | _ => true

/-- R36: a Word supplied with the call has no more elements than the `crc` vector has bits; the evaluation of one with fewer
raises (notes/assumptions/10.md). -/
def WordSrc.fits (w : WordSrc) (W : Nat) : Bool :=
  match w with
  | .reg _ => true
  | .lit w => decide (w.length ≤ W)

/-- R7: `W` and `D` are at least 1. -/
def widthsLegal (W D : Nat) : Bool := decide (1 ≤ W) && decide (1 ≤ D)

/-- R36: the vectors a value renderer reads have legal widths. -/
def Renderer.legal : Renderer → Bool
  | .value crc data => widthsLegal crc.width data.width
  | _ => true

/-- The operands of the operation are legal ones; what depends on the state the call meets is checked when it runs. -/
def Instr.wellFormed : Instr → Bool
  | .mkin _ _ => true
  | .mkconst _ => true
  | .mkxor _ => true
  | .bxeq _ _ => true
  | .bxkey _ => true
  | .bxeval _ crc data => widthsLegal crc.width data.width
  | .flatten _ => true
  | .elim _ => true
  | .lexsort _ => true
  | .simplify _ _ _ => true
  | .validate _ => true
  | .inwords c => c.legal
  | .stepl a => a.legal
  | .stepr a => a.legal
  | .gen _ => true
  | .wnew _ => true
  | .wget _ _ => true
  | .wflat _ => true
  | .wsimp _ => true
  | .crcstep w crc data => widthsLegal crc.width data.width && w.fits crc.width
  | .crcref a => widthsLegal a.W a.D
  | .walk _ r => r.legal
  | .crcstream w a => widthsLegal a.W a.D && w.fits a.W
  | .bitrev _ => true

end Sys2Proof
end

