-- ==== Sys2Proof/Decode.lean ====
section
/-! DEFINITION. The decoder of packed calls, total on any bytes, and after it the encoder. The first byte is the operation
ordinal of spec/30_encoding.md R56; a node's header carries the 2-bit tag of R50 (tag 3 is reserved and raises); a flag set is
the number of R47. The packing of the remaining operands is the model's own (notes/assumptions/1.md): the source gives none
(R44, R45). -/

namespace Sys2Proof

/-- Why a packed call is not decoded. -/
inductive DecodeError where
  /-- the bytes end inside the call -/
  | truncated
  /-- R57: an ordinal that the table of R56 does not hold -/
  | unknownOrdinal (op : Byte)
  /-- R50: a node header with tag 3 -/
  | reservedTag
  /-- R36, R57: an operand outside its domain -/
  | illegalOperand
  deriving DecidableEq, Repr, Inhabited

/-- What a reader of the packed form answers: the value and the bytes after it, or why there is none. -/
abbrev Decoded (α : Type) := Except DecodeError (α × List Byte)

/-- Read one value, then go on with the bytes after it. -/
def Decoded.andThen {α β : Type} (x : Decoded α) (f : α → List Byte → Decoded β) : Decoded β :=
  match x with
  | .error e => .error e
  | .ok (a, r) => f a r

/-- A natural number, seven bits a byte, least significant group first; the high bit says that more groups follow, and
the last of several groups is not zero. -/
def decodeNat : List Byte → Decoded Nat
  | [] => .error .truncated
  | b :: rest =>
    if b.toNat < 128 then .ok (b.toNat, rest)
    else
      match decodeNat rest with
      | .error e => .error e
      | .ok (n, rest') => if n = 0 then .error .illegalOperand else .ok (b.toNat - 128 + 128 * n, rest')

/-- A boolean: the number 0 or 1. -/
def decodeBool (bs : List Byte) : Decoded Bool :=
  (decodeNat bs).andThen fun n r =>
  if n < 2 then .ok (decide (n = 1), r) else .error .illegalOperand

/-- `n` values one after the other. -/
def decodeMany {α : Type} (p : List Byte → Decoded α) : Nat → List Byte → Decoded (List α)
  | 0, bs => .ok ([], bs)
  | n + 1, bs =>
    match p bs with
    | .error e => .error e
    | .ok (a, r) =>
      match decodeMany p n r with
      | .error e => .error e
      | .ok (l, r') => .ok (a :: l, r')

/-- A list: its length, then its elements. -/
def decodeList {α : Type} (p : List Byte → Decoded α) (bs : List Byte) : Decoded (List α) :=
  (decodeNat bs).andThen fun n r =>
  decodeMany p n r

/-- The source a number names: `crc` is 0 and `data` is 1. -/
def sourceOfNat (n : Nat) : SourceId := if n = 0 then .crc else .data

/-- A source: the number 0 or 1. -/
def decodeSource (bs : List Byte) : Decoded SourceId :=
  (decodeNat bs).andThen fun n r =>
  if n < 2 then .ok (sourceOfNat n, r) else .error .illegalOperand

/-- R50: a packed node. The header number is `4 * payload + tag`: tag 0 an input bit, whose payload is twice its index plus
its source; tag 1 a constant, whose payload is its value; tag 2 an `Xor`, whose payload is its number of operands, which
follow; tag 3 raises. The first argument bounds the nesting. -/
def decodeNode : Nat → List Byte → Decoded BitExpr
  | 0, _ => .error .truncated
  | fuel + 1, bs =>
    match decodeNat bs with
    | .error e => .error e
    | .ok (h, r) =>
      if h % 4 = 0 then .ok (.input (sourceOfNat (h / 4 % 2)) (h / 4 / 2), r)
      else if h % 4 = 1 then
        if h / 4 < 2 then .ok (.const (decide (h / 4 = 1)), r) else .error .illegalOperand
      else if h % 4 = 2 then
        match decodeMany (decodeNode fuel) (h / 4) r with
        | .error e => .error e
        | .ok (l, r') => .ok (.xorOf l, r')
      else .error .reservedTag

/-- A BitExpr: every node takes at least one byte, so the bytes bound the nesting. -/
def decodeExpr (bs : List Byte) : Decoded BitExpr := decodeNode (bs.length + 1) bs

/-- A vector of a stated width: its value, which must fit. -/
def decodeVec (width : Nat) (bs : List Byte) : Decoded (BitVec width) :=
  (decodeNat bs).andThen fun n r =>
  if n < 2 ^ width then .ok (BitVec.ofNat width n, r) else .error .illegalOperand

/-- A vector of any width: its width, then its value. -/
def decodeBits (bs : List Byte) : Decoded Bits :=
  (decodeNat bs).andThen fun w r =>
  (decodeVec w r).andThen fun v r =>
  .ok (⟨w, v⟩, r)

/-- A vector of a width of at least 1 (R7): its width less 1, then its value. -/
def decodePort (bs : List Byte) : Decoded Bits :=
  (decodeNat bs).andThen fun w r =>
  (decodeVec (w + 1) r).andThen fun v r =>
  .ok (⟨w + 1, v⟩, r)

/-- R47: the flag set a number below 8 stands for. -/
def optOfNat (n : Nat) : OptFlags := ⟨n.testBit 0, n.testBit 1, n.testBit 2⟩

/-- The Word a number below 5 other than 3 names. -/
def regOfNat (n : Nat) : WordReg := if n = 0 then .ww else if n = 1 then .inCrc else if n = 2 then .inData else .out

/-- A Word operand: 0, 1, 2 and 4 name a Word of a run; 3 is followed by the elements. -/
def decodeWordSrc (bs : List Byte) : Decoded WordSrc :=
  (decodeNat bs).andThen fun n r =>
  if n = 3 then
    (decodeList decodeExpr r).andThen fun w r =>
    .ok (.lit w, r)
  else if n < 5 then .ok (.reg (regOfNat n), r)
  else .error .illegalOperand

/-- A BitExpr operand: 0, 1, 2 and 4 name a Word of a run and are followed by the position; 3 is followed by a node. -/
def decodeExprSrc (bs : List Byte) : Decoded ExprSrc :=
  (decodeNat bs).andThen fun n r =>
  if n = 3 then
    (decodeExpr r).andThen fun e r =>
    .ok (.lit e, r)
  else if n < 5 then
    (decodeNat r).andThen fun j r =>
    .ok (.elem (regOfNat n) j, r)
  else .error .illegalOperand

/-- A polynomial operand: 0 is the run's `P`; `p + 1` is the number `p`. -/
def decodePolySrc (bs : List Byte) : Decoded PolySrc :=
  (decodeNat bs).andThen fun n r =>
  .ok (if n = 0 then .cfg else .lit (n - 1), r)

/-- A flag set operand: 0 is the run's `opt`; `o + 1` is the set numbered `o` by R47. -/
def decodeOptSrc (bs : List Byte) : Decoded OptSrc :=
  (decodeNat bs).andThen fun n r =>
  if n = 0 then .ok (.cfg, r)
  else if n ≤ 8 then .ok (.lit (optOfNat (n - 1)), r)
  else .error .illegalOperand

/-- R45: a Configuration, its five fields in order; any numbers, VALIDATE checks them. -/
def decodeCfg (bs : List Byte) : Decoded Configuration :=
  (decodeNat bs).andThen fun p r =>
  (decodeNat r).andThen fun w r =>
  (decodeNat r).andThen fun d r =>
  (decodeBool r).andThen fun right r =>
  (decodeNat r).andThen fun o r =>
  if o < 8 then .ok (⟨p, w, d, right, optOfNat o⟩, r) else .error .illegalOperand

/-- A Configuration operand: 0 is the run's; 1 is followed by the fields. -/
def decodeCfgSrc (bs : List Byte) : Decoded CfgSrc :=
  (decodeBool bs).andThen fun lit r =>
  if lit then
    (decodeCfg r).andThen fun c r =>
    .ok (.lit c, r)
  else .ok (.cfg, r)

/-- STEPL's and STEPR's operands: 0 is a call, with its three operands; 1 is the run's own step. -/
def decodeStepArgs (bs : List Byte) : Decoded StepArgs :=
  (decodeBool bs).andThen fun run r =>
  if run then .ok (.run, r)
  else
    (decodeWordSrc r).andThen fun w r =>
    (decodeExprSrc r).andThen fun d r =>
    (decodePolySrc r).andThen fun p r =>
    .ok (.call w d p, r)

/-- WFLAT's operands: 0 is a call, with its Word; 1 is the run's working Word. -/
def decodeFlatArgs (bs : List Byte) : Decoded FlatArgs :=
  (decodeBool bs).andThen fun run r =>
  if run then .ok (.run, r)
  else
    (decodeWordSrc r).andThen fun w r =>
    .ok (.call w, r)

/-- WSIMP's operands: 0 is a call, with its three operands; 1 is the run's own pass, with `sortLex`. -/
def decodeSimpArgs (bs : List Byte) : Decoded SimpArgs :=
  (decodeBool bs).andThen fun run r =>
  if run then
    (decodeBool r).andThen fun x r =>
    .ok (.run x, r)
  else
    (decodeWordSrc r).andThen fun w r =>
    (decodeOptSrc r).andThen fun o r =>
    (decodeBool r).andThen fun x r =>
    .ok (.call w o x, r)

/-- CRCREF's operands: `W - 1`, `D - 1`, then `crc`, `data`, `P` and `right`. -/
def decodeRefArgs (bs : List Byte) : Decoded RefArgs :=
  (decodeNat bs).andThen fun w r =>
  (decodeNat r).andThen fun d r =>
  (decodeVec (w + 1) r).andThen fun crc r =>
  (decodeVec (d + 1) r).andThen fun data r =>
  (decodeVec (w + 1) r).andThen fun poly r =>
  (decodeBool r).andThen fun right r =>
  .ok (⟨w + 1, d + 1, crc, data, poly, right⟩, r)

/-- CRCSTREAM's operands beside the Word: `W - 1`, `D - 1`, `INIT`, the data words, `XOROUT`. -/
def decodeStreamArgs (bs : List Byte) : Decoded StreamArgs :=
  (decodeNat bs).andThen fun w r =>
  (decodeNat r).andThen fun d r =>
  (decodeVec (w + 1) r).andThen fun init r =>
  (decodeList (decodeVec (d + 1)) r).andThen fun ws r =>
  (decodeVec (w + 1) r).andThen fun xorout r =>
  .ok (⟨w + 1, d + 1, init, ws, xorout⟩, r)

/-- A renderer: its kind, then what the kind needs. -/
def decodeRenderer (bs : List Byte) : Decoded Renderer :=
  (decodeNat bs).andThen fun n r =>
  if n = 0 then
    (decodeBool r).andThen fun call r =>
    (decodeBool r).andThen fun word r =>
    (decodeBool r).andThen fun bare r =>
    .ok (.text (if call then .call else .bracket) (if word then .xorWord else .caret) bare, r)
  else if n = 1 then .ok (.leafCount, r)
  else if n = 2 then .ok (.depth, r)
  else if n = 3 then
    (decodePort r).andThen fun crc r =>
    (decodePort r).andThen fun data r =>
    .ok (.value crc data, r)
  else if n = 4 then .ok (.sortKey, r)
  else if n = 5 then
    (decodeNat r).andThen fun id r =>
    .ok (.env id, r)
  else .error .illegalOperand

/-- R56: the operands of the operation whose ordinal is `op`; any other ordinal is refused by name (R57). -/
def decodeOperands (op : Byte) (bs : List Byte) : Decoded Instr :=
  match op.toNat with
  | 0x00 =>
    (decodeSource bs).andThen fun s r =>
    (decodeNat r).andThen fun i r =>
    .ok (.mkin s i, r)
  | 0x01 =>
    (decodeBool bs).andThen fun b r =>
    .ok (.mkconst b, r)
  | 0x02 =>
    (decodeWordSrc bs).andThen fun w r =>
    .ok (.mkxor w, r)
  | 0x03 =>
    (decodeExprSrc bs).andThen fun a r =>
    (decodeExprSrc r).andThen fun b r =>
    .ok (.bxeq a b, r)
  | 0x04 =>
    (decodeExprSrc bs).andThen fun e r =>
    .ok (.bxkey e, r)
  | 0x05 =>
    (decodeExprSrc bs).andThen fun e r =>
    (decodePort r).andThen fun crc r =>
    (decodePort r).andThen fun data r =>
    .ok (.bxeval e crc data, r)
  | 0x10 =>
    (decodeExprSrc bs).andThen fun e r =>
    .ok (.flatten e, r)
  | 0x11 =>
    (decodeExprSrc bs).andThen fun e r =>
    .ok (.elim e, r)
  | 0x12 =>
    (decodeExprSrc bs).andThen fun e r =>
    .ok (.lexsort e, r)
  | 0x13 =>
    (decodeExprSrc bs).andThen fun e r =>
    (decodeOptSrc r).andThen fun o r =>
    (decodeBool r).andThen fun x r =>
    .ok (.simplify e o x, r)
  | 0x20 =>
    (decodeCfgSrc bs).andThen fun c r =>
    .ok (.validate c, r)
  | 0x21 =>
    (decodeCfgSrc bs).andThen fun c r =>
    .ok (.inwords c, r)
  | 0x22 =>
    (decodeStepArgs bs).andThen fun a r =>
    .ok (.stepl a, r)
  | 0x23 =>
    (decodeStepArgs bs).andThen fun a r =>
    .ok (.stepr a, r)
  | 0x24 =>
    (decodeCfgSrc bs).andThen fun c r =>
    .ok (.gen c, r)
  | 0x30 =>
    (decodeWordSrc bs).andThen fun w r =>
    .ok (.wnew w, r)
  | 0x31 =>
    (decodeWordSrc bs).andThen fun w r =>
    (decodeNat r).andThen fun j r =>
    .ok (.wget w j, r)
  | 0x32 =>
    (decodeFlatArgs bs).andThen fun a r =>
    .ok (.wflat a, r)
  | 0x33 =>
    (decodeSimpArgs bs).andThen fun a r =>
    .ok (.wsimp a, r)
  | 0x40 =>
    (decodeWordSrc bs).andThen fun w r =>
    (decodePort r).andThen fun crc r =>
    (decodePort r).andThen fun data r =>
    .ok (.crcstep w crc data, r)
  | 0x41 =>
    (decodeRefArgs bs).andThen fun a r =>
    .ok (.crcref a, r)
  | 0x42 =>
    (decodeExprSrc bs).andThen fun e r =>
    (decodeRenderer r).andThen fun n r =>
    .ok (.walk e n, r)
  | 0x43 =>
    (decodeWordSrc bs).andThen fun w r =>
    (decodeStreamArgs r).andThen fun a r =>
    .ok (.crcstream w a, r)
  | 0x44 =>
    (decodeBits bs).andThen fun v r =>
    .ok (.bitrev v, r)
  | _ => .error (.unknownOrdinal op)

/-- The first call of the bytes and the bytes after it, or why there is none. -/
def decode : List Byte → Decoded Instr
  | [] => .error .truncated
  | op :: bs =>
    match decodeOperands op bs with
    | .error e => .error e
    | .ok (i, r) => if i.wellFormed then .ok (i, r) else .error .illegalOperand

/-- The bytes of the row's word (bit 0 the least significant bit of the first byte), followed by the bytes of operands
that are all zero: no operation with zero operands is longer. -/
def tableBytes (nbits w : Nat) : List Byte :=
  (List.range ((nbits + 7) / 8)).map (fun n => BitVec.ofNat 8 (w / 2 ^ (8 * n))) ++ List.replicate 16 0

/-- The instruction the decoder reads from a row's word of spec/opcode_table.json. -/
def decodeTableWord (nbits w : Nat) : Option Instr :=
  match decode (tableBytes nbits w) with
  | .ok (i, _) => some i
  | .error _ => none

/-- The inverse of `decodeNat`; the first argument bounds the number of groups. -/
def encodeGroups : Nat → Nat → List Byte
  | 0, n => [BitVec.ofNat 8 n]
  | fuel + 1, n =>
    if n < 128 then [BitVec.ofNat 8 n] else BitVec.ofNat 8 (128 + n % 128) :: encodeGroups fuel (n / 128)

def encodeNat (n : Nat) : List Byte := encodeGroups n.log2 n

def encodeBool (b : Bool) : List Byte := encodeNat b.toNat

def encodeSource : SourceId → List Byte
  | .crc => encodeNat 0
  | .data => encodeNat 1

/-- The number of a source in an input bit's header. -/
def natOfSource : SourceId → Nat
  | .crc => 0
  | .data => 1

def encodeMany {α : Type} (f : α → List Byte) : List α → List Byte
  | [] => []
  | a :: l => f a ++ encodeMany f l

def encodeList {α : Type} (f : α → List Byte) (l : List α) : List Byte := encodeNat l.length ++ encodeMany f l

mutual

/-- R50: the packed node. -/
def encodeExpr : BitExpr → List Byte
  | .input s i => encodeNat (4 * (2 * i + natOfSource s))
  | .const b => encodeNat (4 * b.toNat + 1)
  | .xor l => encodeNat (4 * l.toList.length + 2) ++ encodeExprs l

def encodeExprs : ExprList → List Byte
  | .nil => []
  | .cons e l => encodeExpr e ++ encodeExprs l

end

def encodeVec {width : Nat} (v : BitVec width) : List Byte := encodeNat v.toNat

def encodeBits (v : Bits) : List Byte := encodeNat v.width ++ encodeVec v.val

def encodePort (v : Bits) : List Byte := encodeNat (v.width - 1) ++ encodeVec v.val

/-- R47: `flatten` 1, `eliminate` 2, `lexicographic-sort` 4. -/
def natOfOpt (o : OptFlags) : Nat := o.flatten.toNat + 2 * o.eliminate.toNat + 4 * o.lexSort.toNat

def natOfReg : WordReg → Nat
  | .ww => 0
  | .inCrc => 1
  | .inData => 2
  | .out => 4

def encodeWordSrc : WordSrc → List Byte
  | .reg r => encodeNat (natOfReg r)
  | .lit w => encodeNat 3 ++ encodeList encodeExpr w

def encodeExprSrc : ExprSrc → List Byte
  | .elem r j => encodeNat (natOfReg r) ++ encodeNat j
  | .lit e => encodeNat 3 ++ encodeExpr e

def encodePolySrc : PolySrc → List Byte
  | .cfg => encodeNat 0
  | .lit p => encodeNat (p + 1)

def encodeOptSrc : OptSrc → List Byte
  | .cfg => encodeNat 0
  | .lit o => encodeNat (natOfOpt o + 1)

def encodeCfg (c : Configuration) : List Byte :=
  encodeNat c.P ++ (encodeNat c.W ++ (encodeNat c.D ++ (encodeBool c.right ++ encodeNat (natOfOpt c.opt))))

def encodeCfgSrc : CfgSrc → List Byte
  | .cfg => encodeBool false
  | .lit c => encodeBool true ++ encodeCfg c

def encodeStepArgs : StepArgs → List Byte
  | .run => encodeBool true
  | .call w d p => encodeBool false ++ (encodeWordSrc w ++ (encodeExprSrc d ++ encodePolySrc p))

def encodeFlatArgs : FlatArgs → List Byte
  | .run => encodeBool true
  | .call w => encodeBool false ++ encodeWordSrc w

def encodeSimpArgs : SimpArgs → List Byte
  | .run x => encodeBool true ++ encodeBool x
  | .call w o x => encodeBool false ++ (encodeWordSrc w ++ (encodeOptSrc o ++ encodeBool x))

def encodeRefArgs (a : RefArgs) : List Byte :=
  encodeNat (a.W - 1) ++ (encodeNat (a.D - 1) ++ (encodeVec a.crc ++ (encodeVec a.data ++
    (encodeVec a.poly ++ encodeBool a.right))))

def encodeStreamArgs (a : StreamArgs) : List Byte :=
  encodeNat (a.W - 1) ++ (encodeNat (a.D - 1) ++ (encodeVec a.init ++ (encodeList encodeVec a.ws ++
    encodeVec a.xorout)))

def encodeRenderer : Renderer → List Byte
  | .text style op bare =>
    encodeNat 0 ++ (encodeBool (decide (style = .call)) ++ (encodeBool (decide (op = .xorWord)) ++ encodeBool bare))
  | .leafCount => encodeNat 1
  | .depth => encodeNat 2
  | .value crc data => encodeNat 3 ++ (encodePort crc ++ encodePort data)
  | .sortKey => encodeNat 4
  | .env id => encodeNat 5 ++ encodeNat id

/-- R56: the ordinal of the operation. -/
def Instr.ordinal : Instr → Nat
  | .mkin _ _ => 0x00
  | .mkconst _ => 0x01
  | .mkxor _ => 0x02
  | .bxeq _ _ => 0x03
  | .bxkey _ => 0x04
  | .bxeval _ _ _ => 0x05
  | .flatten _ => 0x10
  | .elim _ => 0x11
  | .lexsort _ => 0x12
  | .simplify _ _ _ => 0x13
  | .validate _ => 0x20
  | .inwords _ => 0x21
  | .stepl _ => 0x22
  | .stepr _ => 0x23
  | .gen _ => 0x24
  | .wnew _ => 0x30
  | .wget _ _ => 0x31
  | .wflat _ => 0x32
  | .wsimp _ => 0x33
  | .crcstep _ _ _ => 0x40
  | .crcref _ => 0x41
  | .walk _ _ => 0x42
  | .crcstream _ _ => 0x43
  | .bitrev _ => 0x44

/-- The packed operands of the operation, in the order R56 lists them. -/
def encodeOperands : Instr → List Byte
  | .mkin s i => encodeSource s ++ encodeNat i
  | .mkconst b => encodeBool b
  | .mkxor w => encodeWordSrc w
  | .bxeq a b => encodeExprSrc a ++ encodeExprSrc b
  | .bxkey e => encodeExprSrc e
  | .bxeval e crc data => encodeExprSrc e ++ (encodePort crc ++ encodePort data)
  | .flatten e => encodeExprSrc e
  | .elim e => encodeExprSrc e
  | .lexsort e => encodeExprSrc e
  | .simplify e o x => encodeExprSrc e ++ (encodeOptSrc o ++ encodeBool x)
  | .validate c => encodeCfgSrc c
  | .inwords c => encodeCfgSrc c
  | .stepl a => encodeStepArgs a
  | .stepr a => encodeStepArgs a
  | .gen c => encodeCfgSrc c
  | .wnew w => encodeWordSrc w
  | .wget w j => encodeWordSrc w ++ encodeNat j
  | .wflat a => encodeFlatArgs a
  | .wsimp a => encodeSimpArgs a
  | .crcstep w crc data => encodeWordSrc w ++ (encodePort crc ++ encodePort data)
  | .crcref a => encodeRefArgs a
  | .walk e r => encodeExprSrc e ++ encodeRenderer r
  | .crcstream w a => encodeWordSrc w ++ encodeStreamArgs a
  | .bitrev v => encodeBits v

/-- The packed call of an instruction. -/
def encode (i : Instr) : List Byte := BitVec.ofNat 8 i.ordinal :: encodeOperands i

end Sys2Proof
end

