-- ==== Sys2Proof/Machine/State.lean ====
section
/-! DEFINITION. The state of the machine: the run it holds, the run-local tuple of spec/10_state.md R14, and the things the model
adds so that the block can be used by a caller (notes/assumptions/1.md, notes/assumptions/13.md): what the last call delivered,
the caller's pending calls, the Configurations the caller has supplied for runs to come, and how the runs that are over ended. -/

namespace Sys2Proof.Machine

open Sys2Proof

/-- R115, R119: which check a Configuration failed. -/
inductive ConfigCause where
  | crcWidth
  | dataWidth
  | polynomial
  deriving DecidableEq, Repr, Inhabited

/-- R117, R119: which contract was violated. -/
inductive ContractCause where
  | emptyXor
  | indexOutOfRange
  | reservedTag
  deriving DecidableEq, Repr, Inhabited

/-- R114: the three error classes, each with its sub-cause (R119). No operation raises `unsupportedBackendWidth`: it is a
renderer's error (R116). -/
inductive Error where
  | invalidConfiguration (c : ConfigCause)
  | unsupportedBackendWidth
  | contractViolation (c : ContractCause)
  deriving DecidableEq, Repr, Inhabited

/-- R21: the outcome of the run so far. -/
inductive Status where
  | running
  | done
  | failed (e : Error)
  deriving DecidableEq, Repr, Inhabited

/-- What a completed call delivers to its caller: the `result` column of R56. -/
inductive Value where
  /-- VALIDATE returns without a value (R82) -/
  | unit
  /-- an error surfaced to the caller, who may inspect it (R123) -/
  | failure (e : Error)
  | expr (e : BitExpr)
  | bool (b : Bool)
  /-- a sort key, its characters in order (R52) -/
  | key (k : List Char)
  | bit (b : Bool)
  | word (w : Word)
  /-- INWORDS's pair (R83) -/
  | inputs (inData inCrc : Word)
  /-- a run's output: the Word and the names of the two sources (R16, R61, R89) -/
  | output (w : Word) (crcName dataName : List Char)
  | bits (v : Bits)
  | rendered (r : Rendered)
  deriving DecidableEq, Repr, Inhabited

/-- What stops the machine with a fault. -/
inductive Fault where
  /-- R117, R123: a contract violation, "fatal/assertion, not a recoverable error". Raised by MKXOR on an empty list, by every
  operation whose operand holds an empty `Xor` (R68), by a read of a position or an input bit out of range (R32), and by the
  decoder on node tag 3 (R50). Safe: nothing is delivered and no step follows. -/
  | contractViolation (c : ContractCause)
  deriving DecidableEq, Repr, Inhabited

/-- What the machine refuses. -/
inductive Refusal where
  /-- An instruction whose arm of `exec` has no meaning. Safe: no step follows. -/
  | notModelled (mnemonic : String)
  /-- R57: the decoder met an operation ordinal outside the table of R56 ("refuse"). Safe. -/
  | unknownOrdinal (op : Byte)
  /-- The decoder met the end of the pending bytes inside a call. Safe. -/
  | truncatedCall
  /-- R36, R57: an operand outside its domain, met by the decoder, or by INWORDS called on an invalid Configuration (R83).
  Safe. -/
  | illegalOperand
  /-- R36: CRCSTEP or CRCSTREAM was called with vectors that are not of the widths of the Word: a `crc` of fewer bits than the
  Word has elements, or, on a Word of a run, one of more bits or a `data` that is not of that run's `D` bits. The refusal is
  the model's choice (notes/assumptions/10.md). Safe. -/
  | widthDisagreement
  /-- R123: a call named a Word of a failed run, which is unobservable, or the Word handed to the caller when no run has ended
  done. Safe. -/
  | unobservable
  /-- R27: a transition of the run was asked for that is not enabled, or none is enabled and no Configuration is supplied for
  another run. Safe. -/
  | noTransition
  deriving DecidableEq, Repr, Inhabited

/-- R14: the run-local tuple `(cfg, inCrc, inData, k, WW, status)`, and how far the pass of the loop at `k` is. -/
structure Run where
  /-- R15: the Configuration of the run -/
  cfg : Configuration
  /-- R16: the symbolic CRC input word -/
  inCrc : Word
  /-- R16: the symbolic data input word -/
  inData : Word
  /-- R20: the step counter, the number of data bits consumed -/
  k : Nat
  /-- R17: the working Word -/
  ww : Word
  /-- the model's own: STEPL or STEPR has built the Word of the pass at `k` and its WSIMP is still to come (R27, R87); set only
  between the two operations of a pass that the caller has run one by one (notes/assumptions/5.md) -/
  stepped : Bool
  /-- R21: the outcome so far -/
  status : Status
  deriving DecidableEq, Repr, Inhabited

/-- R28: the Word `[In(s, 0), ..., In(s, n-1)]`. -/
def Run.inputWord (s : SourceId) (n : Nat) : Word := (List.range n).map (BitExpr.input s)

/-- R28: a run that has just started on a valid Configuration. -/
def Run.start (c : Configuration) : Run where
  cfg := c
  inCrc := Run.inputWord .crc c.W
  inData := Run.inputWord .data c.D
  k := 0
  ww := Run.inputWord .crc c.W
  stepped := false
  status := .running

/-- The machine: the run it holds, and the caller's side of the interface. -/
structure State extends Run where
  /-- the model's own: what the last completed call or run delivered (notes/assumptions/1.md) -/
  result : Option Value
  /-- the model's own: the packed calls the caller has placed, first byte first (notes/assumptions/1.md) -/
  calls : List Byte
  /-- the model's own: the Configurations the caller has supplied for runs to come, the next first; the transition `start` of
  R27 takes it (notes/assumptions/1.md) -/
  supply : List Configuration
  /-- the model's own: the runs that are over, as they ended, the last first; a run of a GEN or of a VALIDATE that raises is a run
  beside the one the machine holds (R127; notes/assumptions/13.md) -/
  ended : List Run
  deriving DecidableEq, Repr, Inhabited

/-- R28: the machine in the start of a run, with nothing delivered, nothing pending and no run over. -/
def State.start (c : Configuration) : State :=
  { Run.start c with result := none, calls := [], supply := [], ended := [] }

/-- The Configuration the machine holds before a caller supplies one: the least legal one (notes/assumptions/3.md; the
source gives no default, R28). -/
def State.resetCfg : Configuration := ⟨0, 1, 1, false, ⟨false, false, false⟩⟩

/-- R28, R130: the block has no reset of its own; its counterpart is the start of a run. -/
def State.reset : State := State.start State.resetCfg

end Sys2Proof.Machine
end

