-- ==== Sys2Proof/Machine/Flags.lean ====
section
/-! DEFINITION. The flags of the block: the three optimisation flags (spec/10_state.md R22), the two named sets
(spec/30_encoding.md R48), which pass each flag lets run (spec/41_simplifier.md R74), and the numbers of the error classes
(spec/60_exceptions.md R118). The block has no condition codes (R23). -/

namespace Sys2Proof.Machine

open Sys2Proof

/-- R48: `OPT_NONE`, every flag clear. -/
def optNone : OptFlags := ⟨false, false, false⟩

/-- R48: `OPT_ALL`, every flag set. -/
def optAll : OptFlags := ⟨true, true, true⟩

/-- R74: FLATTEN runs. -/
def runsFlatten (o : OptFlags) : Bool := o.flatten

/-- R74: ELIM runs. -/
def runsElim (o : OptFlags) : Bool := o.eliminate

/-- R74, R138: LEXSORT runs in a pass that sorts, and only when `eliminate` is also set. -/
def runsSort (o : OptFlags) (sortLex : Bool) : Bool := sortLex && o.eliminate && o.lexSort

/-- R118: the number of an error's class. -/
def classCode : Error → Nat
  | .invalidConfiguration _ => 1
  | .unsupportedBackendWidth => 2
  | .contractViolation _ => 3

/-- R118: the number of an error's sub-cause within its class; class 2 has none. -/
def causeCode : Error → Option Nat
  | .invalidConfiguration .crcWidth => some 1
  | .invalidConfiguration .dataWidth => some 2
  | .invalidConfiguration .polynomial => some 3
  | .unsupportedBackendWidth => none
  | .contractViolation .emptyXor => some 1
  | .contractViolation .indexOutOfRange => some 2
  | .contractViolation .reservedTag => some 3

end Sys2Proof.Machine
end

