-- ==== Sys2Proof/Machine/Ops.lean ====
section
/-! DEFINITION. The operations every meaning shares: raising an error (spec/60_exceptions.md R123), ending a run, delivering a result,
and the arithmetic of bit vectors. There is no return from an error (R125) and no memory (spec/20_memory.md R29). -/

namespace Sys2Proof.Machine

open Sys2Proof

/-- Why a meaning does not deliver: the operation raised an error of the block, or the model refuses the call. -/
inductive Stop where
  | raised (e : Error)
  | refused (r : Refusal)
  deriving DecidableEq, Repr, Inhabited

/-- The outcome type of the machine's steps. -/
abbrev Result := Host.Outcome State Fault Refusal

/-- The call completes: its result is delivered and nothing else changes (R37). -/
def State.deliver (v : Value) (s : State) : State := { s with result := some v }

/-- R123: a run that failed. `status` records the class and the sub-cause and nothing else is recorded (R119); the words and the
counter of the run are unobservable and are emptied. -/
def Run.failed (c : Configuration) (e : Error) : Run where
  cfg := c
  inCrc := []
  inData := []
  k := 0
  ww := []
  stepped := false
  status := .failed e

/-- R89: a run that ended with its output Word, every data bit consumed. -/
def Run.finished (c : Configuration) (w : Word) : Run :=
  { Run.start c with k := c.D, ww := w, status := .done }

/-- A run is over: how it ended is kept, and nothing else changes (R127; notes/assumptions/13.md). -/
def State.record (r : Run) (s : State) : State := { s with ended := r :: s.ended }

/-- R123: the error is surfaced to the caller. An `InvalidConfiguration` is "a result the caller may inspect"; a
`ContractViolation` is fatal, so it is a fault, never a state (R117). -/
def surface (e : Error) (s : State) : Result :=
  match e with
  | .invalidConfiguration c => .next (s.deliver (.failure (.invalidConfiguration c)))
  | .unsupportedBackendWidth => .next (s.deliver (.failure .unsupportedBackendWidth))
  | .contractViolation c => .fault (.contractViolation c)

/-- R21, R123: the run the machine holds has failed. -/
def State.fail (e : Error) (s : State) : State :=
  ({ s with toRun := Run.failed s.cfg e } : State).record (Run.failed s.cfg e)

/-- R123: raising an error in a transition of the run the machine holds: the run is over. -/
def raise (e : Error) (s : State) : Result := surface e (s.fail e)

/-- A call that does not deliver: it raises, which ends no run but its own (R127), or it is refused. -/
def stop (p : Stop) (s : State) : Result :=
  match p with
  | .raised e => surface e s
  | .refused r => .refused r

/-- A call that changes nothing but what is delivered. -/
def conclude (x : Except Stop Value) (s : State) : Result :=
  match x with
  | .ok v => .next (s.deliver v)
  | .error p => stop p s

/-- Go on with the value of a computation that may raise. -/
def orRaise {α β : Type} (x : Except Error α) (f : α → Except Stop β) : Except Stop β :=
  match x with
  | .ok a => f a
  | .error e => .error (.raised e)

/-- Go on with the value of a computation that may stop. -/
def andThen {α β : Type} (x : Except Stop α) (f : α → Except Stop β) : Except Stop β :=
  match x with
  | .ok a => f a
  | .error p => .error p

/-- The contract violations an operation raises (R117). -/
def violation {α : Type} (c : ContractCause) : Except Error α := .error (.contractViolation c)

/-- R97: the element of a Word at a position; a position at or beyond the length is a contract violation (R32). -/
def wget (w : Word) (j : Nat) : Except Error BitExpr :=
  match w[j]? with
  | some e => .ok e
  | none => violation .indexOutOfRange

/-- The Word whose element `j` is the result of the operation on element `j`; the first error met stops it. -/
def mapWord (f : BitExpr → Except Error BitExpr) : Word → Except Error Word
  | [] => .ok []
  | e :: w => (f e).bind fun x => (mapWord f w).bind fun y => .ok (x :: y)

/-- R10: the number whose bit `i` is element `i` of the list. -/
def natOfBits : List Bool → Nat
  | [] => 0
  | b :: l => b.toNat + 2 * natOfBits l

/-- R10: the vector of `n` bits whose bit `i` is element `i` of the list. -/
def vecOfBits (n : Nat) (l : List Bool) : BitVec n := BitVec.ofNat n (natOfBits l)

/-- R51: the name of a source, in lower case. -/
def sourceName : SourceId → List Char
  | .crc => ['c', 'r', 'c']
  | .data => ['d', 'a', 't', 'a']

/-- The decimal digits of a number in front of `acc`; the first argument bounds their number. -/
def digitsAux : Nat → Nat → List Char → List Char
  | 0, _, acc => acc
  | fuel + 1, n, acc =>
    if n < 10 then Nat.digitChar n :: acc else digitsAux fuel (n / 10) (Nat.digitChar (n % 10) :: acc)

/-- The decimal digits of a number (spec/00_scope.md section 6). -/
def digits (n : Nat) : List Char := digitsAux (n.log2 + 1) n []

/-- `pad(i, n)`: the decimal digits of `i`, left-padded with `0` to at least `n` characters (spec/00_scope.md section 6). -/
def pad (i n : Nat) : List Char := List.replicate (n - (digits i).length) '0' ++ digits i

/-- R54: the order of sort keys, character by character by code; a proper prefix is smaller. -/
def keyLe : List Char → List Char → Bool
  | [], _ => true
  | _ :: _, [] => false
  | a :: as, b :: bs => if a.toNat < b.toNat then true else if b.toNat < a.toNat then false else keyLe as bs

end Sys2Proof.Machine
end

