-- ==== Sys2Proof/Machine/Operands.lean ====
section
/-! DEFINITION. Every operand form: a Word, an element, a polynomial, a flag set or a Configuration, taken from the run
(spec/10_state.md R14), handed to the caller before, or supplied with the call. -/

namespace Sys2Proof.Machine

open Sys2Proof

/-- R123: the words of a run are observable unless the run failed. -/
def State.observable (s : State) : Bool :=
  match s.status with
  | .failed _ => false
  | .running => true
  | .done => true

/-- R21: the run ended done. -/
def Run.isDone (r : Run) : Bool := decide (r.status = .done)

/-- R21, R42: the last run that ended done; its Word was handed to the caller. -/
def State.handed (s : State) : Option Run := s.ended.find? Run.isDone

/-- The run a named Word belongs to: the last that ended done, if there is one, or the run the machine holds, unless it failed. -/
def State.runOf (s : State) : WordReg → Option Run
  | .out => s.handed
  | .ww => if s.observable then some s.toRun else none
  | .inCrc => if s.observable then some s.toRun else none
  | .inData => if s.observable then some s.toRun else none

/-- R14: the named Word of its run. -/
def Run.wordOf (r : Run) : WordReg → Word
  | .out => r.ww
  | .ww => r.ww
  | .inCrc => r.inCrc
  | .inData => r.inData

/-- Read a Word of a run. -/
def readReg (s : State) (r : WordReg) : Except Stop Word :=
  match s.runOf r with
  | some x => .ok (x.wordOf r)
  | none => .error (.refused .unobservable)

/-- A Word operand. -/
def readWord (s : State) : WordSrc → Except Stop Word
  | .reg r => readReg s r
  | .lit w => .ok w

/-- A BitExpr operand; an element of a Word of a run is read as by WGET (R97). -/
def readExpr (s : State) : ExprSrc → Except Stop BitExpr
  | .elem r j => andThen (readReg s r) fun w => orRaise (wget w j) .ok
  | .lit e => .ok e

/-- A polynomial operand. -/
def readPoly (s : State) : PolySrc → Nat
  | .cfg => s.cfg.P
  | .lit p => p

/-- A flag set operand. -/
def readOpt (s : State) : OptSrc → OptFlags
  | .cfg => s.cfg.opt
  | .lit o => o

/-- A Configuration operand. -/
def readCfg (s : State) : CfgSrc → Configuration
  | .cfg => s.cfg
  | .lit c => c

end Sys2Proof.Machine
end

