-- ==== Sys2Proof/Machine/BitExpr.lean ====
section
/-! DEFINITION. The Bit Expression Model (spec/40_bitexpr.md): MKIN, MKCONST, MKXOR, BXEQ, BXKEY, BXEVAL, and the
well-formedness of R68 that every other operation asks of its operand. -/

namespace Sys2Proof.Machine

open Sys2Proof

mutual

/-- R68: no `Xor` anywhere in the node has an empty operand list. -/
def wf : BitExpr → Bool
  | .input _ _ => true
  | .const _ => true
  | .xor .nil => false
  | .xor (.cons e l) => wf e && wfAll l

def wfAll : ExprList → Bool
  | .nil => true
  | .cons e l => wf e && wfAll l

end

mutual

/-- R68: well formed for the widths `W` and `D`. -/
def wfw (W D : Nat) : BitExpr → Bool
  | .input .crc i => decide (i < W)
  | .input .data i => decide (i < D)
  | .const _ => true
  | .xor .nil => false
  | .xor (.cons e l) => wfw W D e && wfwAll W D l

def wfwAll (W D : Nat) : ExprList → Bool
  | .nil => true
  | .cons e l => wfw W D e && wfwAll W D l

end

/-- R68: the operation raises `ContractViolation(EmptyXor)` on an operand that is not well formed. -/
def guardWf {α : Type} (e : BitExpr) (x : Except Error α) : Except Error α :=
  if wf e then x else violation .emptyXor

/-- R68: the operation raises `ContractViolation(EmptyXor)` when one of its operands is not well formed. -/
def guardAll {α : Type} (l : List BitExpr) (x : Except Error α) : Except Error α :=
  if l.all wf then x else violation .emptyXor

/-- R62: MKIN. -/
def mkin (s : SourceId) (i : Nat) : BitExpr := .input s i

/-- R63: MKCONST. -/
def mkconst (b : Bool) : BitExpr := .const b

/-- R64: MKXOR, of operands that are well formed (R68; notes/assumptions/7.md). -/
def mkxor (ops : List BitExpr) : Except Error BitExpr :=
  if ops.isEmpty then violation .emptyXor else guardAll ops (.ok (.xorOf ops))

mutual

/-- R65: structural equality. -/
def bxeq : BitExpr → BitExpr → Bool
  | .input s1 i1, .input s2 i2 => decide (s1 = s2) && decide (i1 = i2)
  | .const b1, .const b2 => b1 == b2
  | .xor l1, .xor l2 => bxeqAll l1 l2
  | .input _ _, .const _ => false
  | .input _ _, .xor _ => false
  | .const _, .input _ _ => false
  | .const _, .xor _ => false
  | .xor _, .input _ _ => false
  | .xor _, .const _ => false

/-- R65: the same length, and equal position by position. -/
def bxeqAll : ExprList → ExprList → Bool
  | .nil, .nil => true
  | .cons a l, .cons b m => bxeq a b && bxeqAll l m
  | .nil, .cons _ _ => false
  | .cons _ _, .nil => false

end

/-- R65: BXEQ, of operands that are well formed (R68; notes/assumptions/7.md). -/
def bxeqChecked (a b : BitExpr) : Except Error Bool := guardAll [a, b] (.ok (bxeq a b))

mutual

/-- R52, R53: the sort key of a well-formed node. -/
def keyText : BitExpr → List Char
  | .input s i => sourceName s ++ pad i Config.keyDigits
  | .const false => ['0']
  | .const true => ['1']
  | .xor l => keyTexts l

/-- R53: the operands' keys joined with the empty string. -/
def keyTexts : ExprList → List Char
  | .nil => []
  | .cons e l => keyText e ++ keyTexts l

end

/-- R66: BXKEY. -/
def bxkey (e : BitExpr) : Except Error (List Char) := guardWf e (.ok (keyText e))

/-- R67: the bit of the input vector that `In(s, i)` names; an index at or beyond the width is a contract violation. -/
def inputBit {W D : Nat} (crc : BitVec W) (data : BitVec D) : SourceId → Nat → Except Error Bool
  | .crc, i => if i < W then .ok (crc.getLsbD i) else violation .indexOutOfRange
  | .data, i => if i < D then .ok (data.getLsbD i) else violation .indexOutOfRange

mutual

/-- R67: BXEVAL, left to right, stopping at the first error met (R122). -/
def bxeval {W D : Nat} (crc : BitVec W) (data : BitVec D) : BitExpr → Except Error Bool
  | .input s i => inputBit crc data s i
  | .const b => .ok b
  | .xor .nil => violation .emptyXor
  | .xor (.cons e l) => (bxeval crc data e).bind fun a => (bxevalAll crc data l).bind fun b => .ok (a ^^ b)

/-- The sum modulo 2 of the values of the operands (R81). -/
def bxevalAll {W D : Nat} (crc : BitVec W) (data : BitVec D) : ExprList → Except Error Bool
  | .nil => .ok false
  | .cons e l => (bxeval crc data e).bind fun a => (bxevalAll crc data l).bind fun b => .ok (a ^^ b)

end

/-- R62: MKIN delivers the node; no index is checked. -/
def execMkin (src : SourceId) (i : Nat) (s : State) : Result := conclude (.ok (.expr (mkin src i))) s

/-- R63: MKCONST delivers the node. -/
def execMkconst (b : Bool) (s : State) : Result := conclude (.ok (.expr (mkconst b))) s

/-- R64: MKXOR delivers the node, and raises on an empty list and on an operand that is not well formed. -/
def execMkxor (ops : WordSrc) (s : State) : Result :=
  conclude (andThen (readWord s ops) fun l => orRaise (mkxor l) fun e => .ok (.expr e)) s

/-- R65: BXEQ delivers a boolean, and raises on an operand that is not well formed (R68). -/
def execBxeq (a b : ExprSrc) (s : State) : Result :=
  conclude (andThen (readExpr s a) fun x => andThen (readExpr s b) fun y =>
    orRaise (bxeqChecked x y) fun r => .ok (.bool r)) s

/-- R66: BXKEY delivers the sort key. -/
def execBxkey (e : ExprSrc) (s : State) : Result :=
  conclude (andThen (readExpr s e) fun x => orRaise (bxkey x) fun k => .ok (.key k)) s

/-- R67: BXEVAL delivers the bit the node denotes under the two vectors. -/
def execBxeval (e : ExprSrc) (crc data : Bits) (s : State) : Result :=
  conclude (andThen (readExpr s e) fun x => orRaise (bxeval crc.val data.val x) fun b => .ok (.bit b)) s

end Sys2Proof.Machine
end

