-- ==== Sys2Proof/Machine/Simplifier.lean ====
section
/-! DEFINITION. The XOR Simplifier (spec/41_simplifier.md): FLATTEN, ELIM, LEXSORT, SIMP. -/

namespace Sys2Proof.Machine

open Sys2Proof

/-- R71: the operands with every nested `Xor` replaced, where it stood, by its own flattened operands. -/
def spliced : ExprList → List BitExpr
  | .nil => []
  | .cons (.input s i) l => .input s i :: spliced l
  | .cons (.const b) l => .const b :: spliced l
  | .cons (.xor ops) l => spliced ops ++ spliced l

/-- R71: FLATTEN of a well-formed node. -/
def flattened : BitExpr → BitExpr
  | .input s i => .input s i
  | .const b => .const b
  | .xor ops => .xorOf (spliced ops)

/-- R71: FLATTEN. -/
def flatten (e : BitExpr) : Except Error BitExpr := guardWf e (.ok (flattened e))

/-- spec/00_scope.md section 6: how many elements of the list are equal to `x` under BXEQ. -/
def occurrences (x : BitExpr) (l : List BitExpr) : Nat := (l.filter (bxeq x)).length

/-- spec/00_scope.md section 6: `x in l`. -/
def occurs (x : BitExpr) (l : List BitExpr) : Bool := decide (occurrences x l > 0)

/-- R72: one pass over the operands `ops`, with the survivors so far and the number of `Const(1)` so far: an input bit is
kept at its first occurrence when it occurs an odd number of times, `Const(0)` is dropped, `Const(1)` is counted, an
`Xor` is kept as it is. -/
def survivors (ops : List BitExpr) : List BitExpr → List BitExpr → Nat → List BitExpr × Nat
  | [], kept, ones => (kept, ones)
  | .input s i :: l, kept, ones =>
    if !occurs (.input s i) kept && decide (occurrences (.input s i) ops % 2 = 1) then
      survivors ops l (kept ++ [.input s i]) ones
    else survivors ops l kept ones
  | .const false :: l, kept, ones => survivors ops l kept ones
  | .const true :: l, kept, ones => survivors ops l kept (ones + 1)
  | .xor m :: l, kept, ones => survivors ops l (kept ++ [.xor m]) ones

/-- R72: the operands ELIM keeps; one `Const(1)`, when their number is odd, comes last. -/
def surviving (ops : List BitExpr) : List BitExpr :=
  let r := survivors ops ops [] 0
  if r.2 % 2 = 1 then r.1 ++ [.const true] else r.1

/-- R72: ELIM of a well-formed node; with no survivor the result is the bare `Const(0)`. -/
def eliminated : BitExpr → BitExpr
  | .input s i => .input s i
  | .const b => .const b
  | .xor ops =>
    let kept := surviving ops.toList
    if kept.isEmpty then .const false else .xorOf kept

/-- R72: ELIM. -/
def elim (e : BitExpr) : Except Error BitExpr := guardWf e (.ok (eliminated e))

/-- Put an operand in front of the first operand whose key is not smaller. -/
def insertByKey (x : BitExpr) : List BitExpr → List BitExpr
  | [] => [x]
  | y :: l => if keyLe (keyText x) (keyText y) then x :: y :: l else y :: insertByKey x l

/-- R73: the operands by ascending key, operands with equal keys in their original order. -/
def sortedByKey : List BitExpr → List BitExpr
  | [] => []
  | x :: l => insertByKey x (sortedByKey l)

/-- R73: LEXSORT of a well-formed node. -/
def lexsorted : BitExpr → BitExpr
  | .input s i => .input s i
  | .const b => .const b
  | .xor ops => .xorOf (sortedByKey ops.toList)

/-- R73: LEXSORT. -/
def lexsort (e : BitExpr) : Except Error BitExpr := guardWf e (.ok (lexsorted e))

/-- R74: SIMP. -/
def simplify (e : BitExpr) (opt : OptFlags) (sortLex : Bool) : Except Error BitExpr :=
  guardWf e <|
    (if runsFlatten opt then flatten e else .ok e).bind fun e1 =>
    (if runsElim opt then elim e1 else .ok e1).bind fun e2 =>
    if runsSort opt sortLex then lexsort e2 else .ok e2

/-- R71: FLATTEN delivers the flattened node. -/
def execFlatten (e : ExprSrc) (s : State) : Result :=
  conclude (andThen (readExpr s e) fun x => orRaise (flatten x) fun y => .ok (.expr y)) s

/-- R72: ELIM delivers the node with its repeated leaves cancelled. -/
def execElim (e : ExprSrc) (s : State) : Result :=
  conclude (andThen (readExpr s e) fun x => orRaise (elim x) fun y => .ok (.expr y)) s

/-- R73: LEXSORT delivers the node with its operands sorted. -/
def execLexsort (e : ExprSrc) (s : State) : Result :=
  conclude (andThen (readExpr s e) fun x => orRaise (lexsort x) fun y => .ok (.expr y)) s

/-- R74: SIMP delivers the simplified node. -/
def execSimplify (e : ExprSrc) (opt : OptSrc) (sortLex : Bool) (s : State) : Result :=
  conclude (andThen (readExpr s e) fun x => orRaise (simplify x (readOpt s opt) sortLex) fun y => .ok (.expr y)) s

end Sys2Proof.Machine
end

