-- ==== Sys2Proof/Machine/WordContainer.lean ====
section
/-! DEFINITION. The Word Container (spec/43_word.md): WNEW, WGET, WFLAT, WSIMP. WGET's read is `wget` of Ops.lean. -/

namespace Sys2Proof.Machine

open Sys2Proof

/-- R96: WNEW; the elements are not checked and the empty list is accepted. -/
def wnew (l : List BitExpr) : Word := l

/-- R98: WFLAT. -/
def wflat (w : Word) : Except Error Word := mapWord flatten w

/-- R99: WSIMP. -/
def wsimp (w : Word) (opt : OptFlags) (sortLex : Bool) : Except Error Word :=
  mapWord (fun e => simplify e opt sortLex) w

/-- R21: the run is running. -/
def State.isRunning (s : State) : Bool := decide (s.status = .running)

/-- R19: an operation of the run has built a new Word: it replaces the working Word as a whole (R17, R18). -/
def State.rebind (w : Word) (s : State) : State := { s with ww := w, result := some (.word w) }

/-- R27, R87: the pass that follows a step is done: the new Word replaces the working Word and one more data bit is consumed. -/
def State.advance (w : Word) (s : State) : State :=
  { s with ww := w, stepped := false, k := s.k + 1, result := some (.word w) }

/-- R16, R89: what a run delivers: its Word with the names of the two sources. -/
def outputOf (w : Word) : Value := .output w (sourceName .crc) (sourceName .data)

/-- R27: the run the machine holds has ended: its Word is delivered. -/
def State.complete (w : Word) (s : State) : State :=
  (({ s with ww := w, status := .done } : State).record { s.toRun with ww := w, status := .done }).deliver (outputOf w)

/-- R87, R88: a simplification pass of the run is due: the one that follows a step, or the last. -/
def State.passDue (s : State) : Bool := s.isRunning && (s.stepped || decide (s.k = s.cfg.D))

/-- R96: WNEW delivers the Word. -/
def execWnew (l : WordSrc) (s : State) : Result :=
  conclude (andThen (readWord s l) fun w => .ok (.word (wnew w))) s

/-- R97: WGET delivers the element at position `j`. -/
def execWget (w : WordSrc) (j : Nat) (s : State) : Result :=
  conclude (andThen (readWord s w) fun x => orRaise (wget x j) fun e => .ok (.expr e)) s

/-- R98: WFLAT. A call delivers the flattened Word; in the run it is the flattening of the pass that is due, where the run's flags
ask for it (R87, R22), and replaces the working Word (R19): nothing else may change what the run delivers (R121). -/
def execWflat (a : FlatArgs) (s : State) : Result :=
  match a with
  | .call w => conclude (andThen (readWord s w) fun x => orRaise (wflat x) fun y => .ok (.word y)) s
  | .run =>
    if s.passDue && runsFlatten s.cfg.opt then
      match wflat s.ww with
      | .ok w => .next (s.rebind w)
      | .error e => raise e s
    else .refused .noTransition

/-- R99: WSIMP. A call delivers the simplified Word. In the run it replaces the working Word: the pass that does not sort
when it is due after a step, and the data bit is then consumed (R87, R27), the sorting pass when every data bit is consumed, and
then the run is done (R88, R21). -/
def execWsimp (a : SimpArgs) (s : State) : Result :=
  match a with
  | .call w o x =>
    conclude (andThen (readWord s w) fun v => orRaise (wsimp v (readOpt s o) x) fun y => .ok (.word y)) s
  | .run false =>
    if s.isRunning && s.stepped then
      match wsimp s.ww s.cfg.opt false with
      | .ok w => .next (s.advance w)
      | .error e => raise e s
    else .refused .noTransition
  | .run true =>
    if s.isRunning && !s.stepped && decide (s.k = s.cfg.D) then
      match wsimp s.ww s.cfg.opt true with
      | .ok w => .next (s.complete w)
      | .error e => raise e s
    else .refused .noTransition

end Sys2Proof.Machine
end

