-- ==== Sys2Proof/Machine/Unroll.lean ====
section
/-! DEFINITION. The Register Unroll Algorithm (spec/42_unroll.md): VALIDATE, INWORDS, STEPL, STEPR, GEN. -/

namespace Sys2Proof.Machine

open Sys2Proof

/-- R82: VALIDATE, the three checks in order (R122). -/
def validate (c : Configuration) : Except Error Unit :=
  if c.W < 1 then .error (.invalidConfiguration .crcWidth)
  else if c.D < 1 then .error (.invalidConfiguration .dataWidth)
  else if 2 ^ c.W - 1 < c.P then .error (.invalidConfiguration .polynomial)
  else .ok ()

/-- R83: INWORDS, the pair `(inData, inCrc)`. -/
def inwords (c : Configuration) : Word × Word :=
  ((List.range c.D).map (BitExpr.input .data), (List.range c.W).map (BitExpr.input .crc))

/-- R84, R85: the new element: the predecessor, with the feedback query bit where the polynomial bit is set. -/
def stepElement (pred q : BitExpr) (set : Bool) : BitExpr := if set then .xorOf [pred, q] else pred

/-- R84: the predecessor of position `j` in a left step. -/
def predLeft (w : Word) (j : Nat) : BitExpr := if 0 < j then w.getD (j - 1) (.const false) else .const false

/-- R85: the predecessor of position `j` in a right step. -/
def predRight (w : Word) (j : Nat) : BitExpr :=
  if j < w.length - 1 then w.getD (j + 1) (.const false) else .const false

/-- R84: STEPL. Every read is of the old Word (R18). The data bit and the elements the step reads are well formed (R68;
notes/assumptions/7.md). -/
def stepl (w : Word) (d : BitExpr) (P : Nat) : Except Error Word :=
  guardAll (d :: w) <| (wget w (w.length - 1)).bind fun top =>
    .ok ((List.range w.length).map fun j => stepElement (predLeft w j) (.xorOf [top, d]) (P.testBit j))

/-- R85: STEPR. Every read is of the old Word (R18). The data bit and the elements the step reads are well formed (R68;
notes/assumptions/7.md). -/
def stepr (w : Word) (d : BitExpr) (P : Nat) : Except Error Word :=
  guardAll (d :: w) <| (wget w 0).bind fun low =>
    .ok ((List.range w.length).map fun j => stepElement (predRight w j) (.xorOf [low, d]) (P.testBit j))

/-- R86: `right` selects the step. -/
def stepWord (right : Bool) (w : Word) (d : BitExpr) (P : Nat) : Except Error Word :=
  if right then stepr w d P else stepl w d P

/-- R86: the data bit the step at counter value `k` consumes. -/
def dataIndex (c : Configuration) (k : Nat) : Nat := if c.right then k else c.D - 1 - k

/-- R89: one pass of the loop: the step on the data bit of `k`, then the pass that does not sort (R87). -/
def loopBody (c : Configuration) (inData : Word) (k : Nat) (w : Word) : Except Error Word :=
  (wget inData (dataIndex c k)).bind fun d =>
    (stepWord c.right w d c.P).bind fun x => wsimp x c.opt false

/-- R89: the working Word after `k` passes of the loop. -/
def unrolled (c : Configuration) : Nat → Except Error Word
  | 0 => .ok (inwords c).2
  | k + 1 => (unrolled c k).bind fun w => loopBody c (inwords c).1 k w

/-- R89: GEN. -/
def gen (c : Configuration) : Except Error Word :=
  (validate c).bind fun _ => (unrolled c c.D).bind fun w => wsimp w c.opt true

/-- R27: the step the run enables in this direction. -/
def State.stepEnabled (s : State) (right : Bool) : Bool :=
  s.isRunning && !s.stepped && decide (s.k < s.cfg.D) && (s.cfg.right == right)

/-- R84: the run has taken a step: the new Word replaces the working Word, and the pass that follows it is due (R87). -/
def State.shift (w : Word) (s : State) : State := { s with ww := w, stepped := true, result := some (.word w) }

/-- R82: VALIDATE returns or raises. The run it raises for is over before anything of it exists; the run the machine holds is
another and is left alone (R127; notes/assumptions/13.md). -/
def execValidate (c : CfgSrc) (s : State) : Result :=
  match validate (readCfg s c) with
  | .ok _ => .next (s.deliver .unit)
  | .error e => surface e (s.record (Run.failed (readCfg s c) e))

/-- R83: INWORDS delivers the pair; on the Configuration of a running run it also writes the run's input words. An invalid
Configuration is no operand of it. -/
def execInwords (c : CfgSrc) (s : State) : Result :=
  match validate (readCfg s c) with
  | .error _ => .refused .illegalOperand
  | .ok _ =>
    let p := inwords (readCfg s c)
    match c with
    | .lit _ => .next (s.deliver (.inputs p.1 p.2))
    | .cfg =>
      if s.isRunning then .next { s with inData := p.1, inCrc := p.2, result := some (.inputs p.1 p.2) }
      else .next (s.deliver (.inputs p.1 p.2))

/-- R84: STEPL. A call delivers the new Word; in the run it is the step R27 enables, and writes the working Word. -/
def execStepl (a : StepArgs) (s : State) : Result :=
  match a with
  | .call w d p =>
    conclude (andThen (readWord s w) fun x => andThen (readExpr s d) fun y =>
      orRaise (stepl x y (readPoly s p)) fun z => .ok (.word z)) s
  | .run =>
    if s.stepEnabled false then
      match (wget s.inData (dataIndex s.cfg s.k)).bind fun d => stepl s.ww d s.cfg.P with
      | .ok w => .next (s.shift w)
      | .error e => raise e s
    else .refused .noTransition

/-- R85: STEPR. A call delivers the new Word; in the run it is the step R27 enables, and writes the working Word. -/
def execStepr (a : StepArgs) (s : State) : Result :=
  match a with
  | .call w d p =>
    conclude (andThen (readWord s w) fun x => andThen (readExpr s d) fun y =>
      orRaise (stepr x y (readPoly s p)) fun z => .ok (.word z)) s
  | .run =>
    if s.stepEnabled true then
      match (wget s.inData (dataIndex s.cfg s.k)).bind fun d => stepr s.ww d s.cfg.P with
      | .ok w => .next (s.shift w)
      | .error e => raise e s
    else .refused .noTransition

/-- R89: GEN is a whole run of its own, on its Configuration: it ends done, and its Word is delivered, or failed with nothing
built. None of its state survives the return but what the caller is handed, and the run the machine holds is left alone (R13,
R121, R127; notes/assumptions/13.md). -/
def execGen (c : CfgSrc) (s : State) : Result :=
  match gen (readCfg s c) with
  | .ok w => .next ((s.record (Run.finished (readCfg s c) w)).deliver (outputOf w))
  | .error e => surface e (s.record (Run.failed (readCfg s c) e))

/-- R27: the transition `start`: VALIDATE raises and the run is failed, or the run is running on the Configuration with its
input words built and no data bit consumed. It takes the place of a run that is over. -/
def startRun (c : Configuration) (s : State) : Result :=
  match validate c with
  | .ok _ => .next { s with toRun := Run.start c }
  | .error e => raise e { s with cfg := c }

/-- R27: no transition of a run that is done or failed is enabled; the next run starts when the caller has supplied a
Configuration for it (R125, R129; notes/assumptions/1.md). -/
def startNext (s : State) : Result :=
  match s.supply with
  | [] => .refused .noTransition
  | c :: cs => startRun c { s with supply := cs }

/-- R27: the transition that is enabled, when no call is pending: a step while data bits are left, or what is left of one that
the caller has begun, then the finish, and after the end of a run the start of the next. -/
def runTransition (s : State) : Result :=
  match s.status with
  | .running =>
    if s.stepped then
      match wsimp s.ww s.cfg.opt false with
      | .ok w => .next { s with ww := w, stepped := false, k := s.k + 1 }
      | .error e => raise e s
    else if s.k < s.cfg.D then
      match loopBody s.cfg s.inData s.k s.ww with
      | .ok w => .next { s with ww := w, k := s.k + 1 }
      | .error e => raise e s
    else if s.k = s.cfg.D then
      match wsimp s.ww s.cfg.opt true with
      | .ok w => .next (s.complete w)
      | .error e => raise e s
    else .refused .noTransition
  | .done => startNext s
  | .failed _ => startNext s

end Sys2Proof.Machine
end

