-- ==== Sys2Proof/Machine/Datapath.lean ====
section
/-! DEFINITION. The generated datapath and the core's boundary (spec/44_datapath.md): CRCSTEP, CRCREF, WALK, CRCSTREAM,
BITREV. None of them reads or writes the run but for the operands they name (spec/10_state.md R24). -/

namespace Sys2Proof.Machine

open Sys2Proof

/-- The values of the elements of a Word, element 0 first. -/
def evalWord {W D : Nat} (crc : BitVec W) (data : BitVec D) : Word → Except Error (List Bool)
  | [] => .ok []
  | e :: w => (bxeval crc data e).bind fun b => (evalWord crc data w).bind fun l => .ok (b :: l)

/-- R102: CRCSTEP: bit `j` of the result is the value of element `j`. The elements are read in order, and a position below
`W` that the Word does not have raises as WGET does (R32, V-E8). -/
def crcstep {W D : Nat} (w : Word) (crc : BitVec W) (data : BitVec D) : Except Error (BitVec W) :=
  (evalWord crc data w).bind fun l => if l.length < W then violation .indexOutOfRange else .ok (vecOfBits W l)

/-- R103: one iteration of the reference function on the data bit `b`. -/
def refStep {W : Nat} (P : BitVec W) (right : Bool) (r : BitVec W) (b : Bool) : BitVec W :=
  let fb := (if right then r.getLsbD 0 else r.getLsbD (W - 1)) ^^ b
  let shifted := if right then r >>> 1 else r <<< 1
  if fb then shifted ^^^ P else shifted

/-- R103: the register of the reference function after `k` iterations. -/
def refAfter {W D : Nat} (crc : BitVec W) (data : BitVec D) (P : BitVec W) (right : Bool) : Nat → BitVec W
  | 0 => crc
  | k + 1 =>
    refStep P right (refAfter crc data P right k)
      (if right then data.getLsbD k else data.getLsbD (D - 1 - k))

/-- R103: CRCREF. -/
def crcref {W D : Nat} (crc : BitVec W) (data : BitVec D) (P : BitVec W) (right : Bool) : BitVec W :=
  refAfter crc data P right D

/-- R108: the register after the data words, one CRCSTEP a word. -/
def streamRegister {W D : Nat} (w : Word) (r : BitVec W) : List (BitVec D) → Except Error (BitVec W)
  | [] => .ok r
  | x :: ws => (crcstep w r x).bind fun r' => streamRegister w r' ws

/-- R108: CRCSTREAM. -/
def crcstream {W D : Nat} (w : Word) (init : BitVec W) (ws : List (BitVec D)) (xorout : BitVec W) :
    Except Error (BitVec W) :=
  (streamRegister w init ws).bind fun r => .ok (r ^^^ xorout)

/-- R109: BITREV. -/
def bitrev {n : Nat} (v : BitVec n) : BitVec n :=
  vecOfBits n ((List.range n).map fun i => v.getLsbD (n - 1 - i))

mutual

/-- R106: the fold of the tree, children left to right, their results in operand order. The reference callback may raise; the
first error met stops it (R122). -/
def walkThrough {T : Type} (ref : SourceId → Nat → Except Error T) (con : Bool → T) (xr : List T → T) :
    BitExpr → Except Error T
  | .input s i => ref s i
  | .const b => .ok (con b)
  | .xor .nil => violation .emptyXor
  | .xor (.cons e l) =>
    (walkThrough ref con xr e).bind fun t => (walkThroughAll ref con xr l).bind fun ts => .ok (xr (t :: ts))

def walkThroughAll {T : Type} (ref : SourceId → Nat → Except Error T) (con : Bool → T) (xr : List T → T) :
    ExprList → Except Error (List T)
  | .nil => .ok []
  | .cons e l =>
    (walkThrough ref con xr e).bind fun t => (walkThroughAll ref con xr l).bind fun ts => .ok (t :: ts)

end

/-- R106: WALK, for any type the callbacks build. -/
def walk {T : Type} (ref : SourceId → Nat → T) (con : Bool → T) (xr : List T → T) (e : BitExpr) : Except Error T :=
  walkThrough (fun s i => .ok (ref s i)) con xr e

/-- R58, V-D8: the text of an input bit. -/
def refText (style : RefStyle) (s : SourceId) (i : Nat) : List Char :=
  match style with
  | .bracket => sourceName s ++ ['['] ++ digits i ++ [']']
  | .call => sourceName s ++ ['_', 'i', 'n', '('] ++ digits i ++ [')']

/-- R58: the text of a constant. -/
def conText (b : Bool) : List Char := if b then ['1'] else ['0']

/-- R107: the operator token between two operands, with its spaces. -/
def opText : OpToken → List Char
  | .caret => [' ', '^', ' ']
  | .xorWord => [' ', 'x', 'o', 'r', ' ']

/-- The elements joined by the separator. -/
def joined (sep : List Char) : List (List Char) → List Char
  | [] => []
  | [t] => t
  | t :: u :: l => t ++ sep ++ joined sep (u :: l)

/-- R58, R59: the text of an `Xor`, in parentheses unless the renderer writes it bare. -/
def xorText (op : OpToken) (bare : Bool) (l : List (List Char)) : List Char :=
  if bare then joined (opText op) l else ['('] ++ joined (opText op) l ++ [')']

/-- The sum modulo 2 of bits (R81). -/
def parity (l : List Bool) : Bool := l.foldr xor false

/-- R106: WALK with the callbacks of the named renderer. -/
def walkWith (r : Renderer) (e : BitExpr) : Except Error Rendered :=
  match r with
  | .text style op bare =>
    (walk (refText style) conText (xorText op bare) e).bind fun t => .ok (.text t)
  | .leafCount => (walk (fun _ _ => 1) (fun _ => 1) List.sum e).bind fun n => .ok (.number n)
  | .depth => (walk (fun _ _ => 0) (fun _ => 0) (fun l => 1 + l.foldr max 0) e).bind fun n => .ok (.number n)
  | .value crc data =>
    (walkThrough (inputBit crc.val data.val) id parity e).bind fun b => .ok (.bit b)
  | .sortKey =>
    (walk (fun s i => sourceName s ++ pad i Config.keyDigits) conText List.flatten e).bind fun t => .ok (.text t)
  | .env id => walk (Config.envRef id) (Config.envCon id) (Config.envXr id) e

/-- R36: vectors of `W` and `D` bits are legal arguments beside the Word `x`, which the operand `w` reads as. A Word of a run
fixes both widths: its length, and that run's `D`. A Word supplied with the call carries no `D`, so the vector's own width is
taken for it; it may have fewer elements than `crc` has bits, and the evaluation then raises (V-E8). That the other widths are
refused is the model's choice (notes/assumptions/10.md). -/
def vectorsFit (s : State) (w : WordSrc) (x : Word) (W D : Nat) : Bool :=
  match w with
  | .reg r => decide (x.length = W) && decide ((s.runOf r).map (fun y => y.cfg.D) = some D)
  | .lit _ => decide (x.length ≤ W)

/-- R102: CRCSTEP delivers the next register value; the vectors have the widths of the Word (R36). -/
def execCrcstep (w : WordSrc) (crc data : Bits) (s : State) : Result :=
  conclude (andThen (readWord s w) fun x =>
    if vectorsFit s w x crc.width data.width then
      orRaise (crcstep x crc.val data.val) fun v => .ok (.bits ⟨crc.width, v⟩)
    else .error (.refused .widthDisagreement)) s

/-- R103: CRCREF delivers the register value after every data bit is consumed. -/
def execCrcref (a : RefArgs) (s : State) : Result :=
  conclude (.ok (.bits ⟨a.W, crcref a.crc a.data a.poly a.right⟩)) s

/-- R106: WALK delivers what the callbacks build. -/
def execWalk (e : ExprSrc) (r : Renderer) (s : State) : Result :=
  conclude (andThen (readExpr s e) fun x => orRaise (walkWith r x) fun t => .ok (.rendered t)) s

/-- R108: CRCSTREAM delivers the register value after the stream, with `XOROUT` added. -/
def execCrcstream (w : WordSrc) (a : StreamArgs) (s : State) : Result :=
  conclude (andThen (readWord s w) fun x =>
    if vectorsFit s w x a.W a.D then
      orRaise (crcstream x a.init a.ws a.xorout) fun v => .ok (.bits ⟨a.W, v⟩)
    else .error (.refused .widthDisagreement)) s

/-- R109: BITREV delivers the value with its bit order reversed. -/
def execBitrev (v : Bits) (s : State) : Result := conclude (.ok (.bits ⟨v.width, bitrev v.val⟩)) s

end Sys2Proof.Machine
end

