-- ==== Sys2Proof/Machine/Dispatch.lean ====
section
/-! DEFINITION. One arm per operation of spec/30_encoding.md R56, in the table's order. -/

namespace Sys2Proof.Machine

def exec (i : Instr) (s : State) : Host.Outcome State Fault Refusal :=
  match i with
  | .mkin src n => Sys2Proof.Machine.execMkin src n s
  | .mkconst b => Sys2Proof.Machine.execMkconst b s
  | .mkxor ops => Sys2Proof.Machine.execMkxor ops s
  | .bxeq a b => Sys2Proof.Machine.execBxeq a b s
  | .bxkey e => Sys2Proof.Machine.execBxkey e s
  | .bxeval e crc data => Sys2Proof.Machine.execBxeval e crc data s
  | .flatten e => Sys2Proof.Machine.execFlatten e s
  | .elim e => Sys2Proof.Machine.execElim e s
  | .lexsort e => Sys2Proof.Machine.execLexsort e s
  | .simplify e opt sortLex => Sys2Proof.Machine.execSimplify e opt sortLex s
  | .validate c => Sys2Proof.Machine.execValidate c s
  | .inwords c => Sys2Proof.Machine.execInwords c s
  | .stepl args => Sys2Proof.Machine.execStepl args s
  | .stepr args => Sys2Proof.Machine.execStepr args s
  | .gen c => Sys2Proof.Machine.execGen c s
  | .wnew l => Sys2Proof.Machine.execWnew l s
  | .wget w j => Sys2Proof.Machine.execWget w j s
  | .wflat args => Sys2Proof.Machine.execWflat args s
  | .wsimp args => Sys2Proof.Machine.execWsimp args s
  | .crcstep w crc data => Sys2Proof.Machine.execCrcstep w crc data s
  | .crcref args => Sys2Proof.Machine.execCrcref args s
  | .walk e r => Sys2Proof.Machine.execWalk e r s
  | .crcstream w args => Sys2Proof.Machine.execCrcstream w args s
  | .bitrev v => Sys2Proof.Machine.execBitrev v s

end Sys2Proof.Machine
end

