-- ==== Sys2Proof/Machine/Fetch.lean ====
section
/-! DEFINITION. What a step does with the caller's pending calls (notes/assumptions/1.md): the bytes the next call is read
from, and what stops a call that is not decoded. -/

namespace Sys2Proof.Machine

open Sys2Proof

/-- R57, U10: node tag 3 is raised as a contract violation; every other call that is not decoded is refused by name. -/
def decodeStop (e : DecodeError) : Stop :=
  match e with
  | .truncated => .refused .truncatedCall
  | .unknownOrdinal op => .refused (.unknownOrdinal op)
  | .reservedTag => .raised (.contractViolation .reservedTag)
  | .illegalOperand => .refused .illegalOperand

/-- The next call is consumed and runs. -/
def runCall (s : State) : Result :=
  match decode s.calls with
  | .ok (i, rest) => exec i { s with calls := rest }
  | .error e => stop (decodeStop e) s

/-- One step: the next pending call, or, when none is pending, the transition R27 enables. -/
def stepOnce (s : State) : Result := if s.calls.isEmpty then runTransition s else runCall s

/-- The state with one more Configuration supplied for a run to come (R15, R129: the caller supplies it before the run
starts). -/
def State.supplyRun (c : Configuration) (s : State) : State := { s with supply := s.supply ++ [c] }

/-- The state with the given bytes as the caller's pending calls. -/
def State.placeCalls (bytes : List Byte) (s : State) : State := { s with calls := bytes }

end Sys2Proof.Machine
end

