-- ==== Sys2Proof/Machine/Step.lean ====
section
/-! DEFINITION. The step function of the machine. -/

namespace Sys2Proof.Machine

open Sys2Proof

/-- One step of the machine (notes/assumptions/1.md, spec/10_state.md R27). -/
def step (s : State) : Host.Outcome State Fault Refusal := stepOnce s

/-- The state whose next step runs the instruction of a table row's word, its operands all zero. -/
def State.withFetchWord (s : State) (nbits w : Nat) : State := s.placeCalls (tableBytes nbits w)

end Sys2Proof.Machine
end

