-- ==== Sys2Proof/Safety.lean ====
section
/-! DEFINITION. What the claims about the machine speak of: the leaves of a tree, where `Const(1)` occurs, the invariant of
a run (spec/42_unroll.md R90, R94), which calls leave the run alone, and the program a GEN expands to
(spec/95_test_vectors.md part 3). -/

namespace Sys2Proof.Safety

open Sys2Proof Sys2Proof.Machine

mutual

/-- spec/00_scope.md section 7: the leaves of a tree, left to right, with repetition. -/
def leaves : BitExpr → List BitExpr
  | .input s i => [.input s i]
  | .const b => [.const b]
  | .xor l => leavesAll l

def leavesAll : ExprList → List BitExpr
  | .nil => []
  | .cons e l => leaves e ++ leavesAll l

end

/-- The node is an `Xor`. -/
def isXor : BitExpr → Bool
  | .input _ _ => false
  | .const _ => false
  | .xor _ => true

/-- The node is an input bit. -/
def isInput : BitExpr → Bool
  | .input _ _ => true
  | .const _ => false
  | .xor _ => false

/-- R94: no `Const(1)` occurs in the tree. -/
def hasNoOne (e : BitExpr) : Prop := BitExpr.const true ∉ leaves e

/-- The value of a leaf under two input vectors; an index outside its vector counts as 0 here, and claims that use this
ask for in-range leaves. -/
def leafBit {W D : Nat} (crc : BitVec W) (data : BitVec D) : BitExpr → Bool
  | .input .crc i => crc.getLsbD i
  | .input .data i => data.getLsbD i
  | .const b => b
  | .xor _ => false

/-- R14, R127: the two states hold the same run: none of its parts differs. -/
def SameRun (s t : State) : Prop := t.toRun = s.toRun

/-- The run is on a valid Configuration and its parts are as the rules say: the input words (R16), the counter's range
(R20), the length of the working Word (R17), its well-formedness (R94), and what it computes after the data bits consumed and, in
the middle of a pass, the one of that pass (R90). -/
structure RunInv (r : Run) : Prop where
  valid : validate r.cfg = .ok ()
  inCrc_eq : r.inCrc = (inwords r.cfg).2
  inData_eq : r.inData = (inwords r.cfg).1
  k_le : r.k ≤ r.cfg.D
  stepped_lt : r.stepped = true → r.k < r.cfg.D
  length_eq : r.ww.length = r.cfg.W
  elements : ∀ e ∈ r.ww, wfw r.cfg.W r.cfg.D e = true ∧ hasNoOne e
  denotes : ∀ (crc : BitVec r.cfg.W) (data : BitVec r.cfg.D),
    crcstep r.ww crc data =
      .ok (refAfter crc data (BitVec.ofNat r.cfg.W r.cfg.P) r.cfg.right (if r.stepped then r.k + 1 else r.k))

/-- R89, R121: the working Word is the one GEN holds at this point: the Word after `k` passes, in the middle of a pass the step on
it, and, where the pass that is due flattens, perhaps flattened already. -/
def OnProgram (r : Run) : Prop :=
  ∃ w v, unrolled r.cfg r.k = .ok w ∧
    (if r.stepped then stepWord r.cfg.right w (.input .data (dataIndex r.cfg r.k)) r.cfg.P = .ok v else v = w) ∧
    (r.ww = v ∨ r.cfg.opt.flatten = true ∧ (r.stepped = true ∨ r.k = r.cfg.D) ∧ wflat v = .ok r.ww)

/-- The invariant of a run: a running one is as `RunInv` says and on the program of GEN, a done one has consumed every data bit and
its Word is the one GEN delivers, and a failed one records the error VALIDATE raises on its Configuration, with no word of it
left (R21, R123). -/
def RunInvariant (r : Run) : Prop :=
  match r.status with
  | .running => RunInv r ∧ OnProgram r
  | .done => RunInv r ∧ r.k = r.cfg.D ∧ gen r.cfg = .ok r.ww
  | .failed e => validate r.cfg = .error e ∧ r.inCrc = [] ∧ r.inData = [] ∧ r.k = 0 ∧ r.ww = []

/-- The invariant of the machine: that of the run it holds and of every run that is over. -/
def Invariant (s : State) : Prop :=
  RunInvariant s.toRun ∧ ∀ r ∈ s.ended, RunInvariant r ∧ r.status ≠ .running

/-- The operation is a call that reads or writes nothing of the run the machine holds but the operands it names: every operation but
INWORDS on the run's Configuration and the run's own STEPL, STEPR, WFLAT and WSIMP. -/
def isCall : Instr → Bool
  | .mkin _ _ => true
  | .mkconst _ => true
  | .mkxor _ => true
  | .bxeq _ _ => true
  | .bxkey _ => true
  | .bxeval _ _ _ => true
  | .flatten _ => true
  | .elim _ => true
  | .lexsort _ => true
  | .simplify _ _ _ => true
  | .validate _ => true
  | .inwords (.lit _) => true
  | .inwords .cfg => false
  | .stepl (.call _ _ _) => true
  | .stepl .run => false
  | .stepr (.call _ _ _) => true
  | .stepr .run => false
  | .gen _ => true
  | .wnew _ => true
  | .wget _ _ => true
  | .wflat (.call _) => true
  | .wflat .run => false
  | .wsimp (.call _ _ _) => true
  | .wsimp (.run _) => false
  | .crcstep _ _ _ => true
  | .crcref _ => true
  | .walk _ _ => true
  | .crcstream _ _ => true
  | .bitrev _ => true

/-- The operations of one pass of the loop (R89). -/
def passOps (right : Bool) : List Instr :=
  [if right then .stepr .run else .stepl .run, .wsimp (.run false)]

/-- R89, spec/95_test_vectors.md part 3: the sequence of operations a generation run on `c` expands to. -/
def expansion (c : Configuration) : List Instr :=
  [.validate .cfg, .inwords .cfg] ++ (List.replicate c.D (passOps c.right)).flatten ++ [.wsimp (.run true)]

/-- The operations one after the other, stopping at the first that does not complete. -/
def execAll : List Instr → State → Result
  | [], s => .next s
  | i :: l, s =>
    match exec i s with
    | .next t => execAll l t
    | .fault f => .fault f
    | .refused r => .refused r

/-- The number a list of decimal digits stands for, most significant first. -/
def decimal (l : List Char) : Nat := l.foldl (fun n c => 10 * n + (c.toNat - 48)) 0

/-- spec/00_scope.md section 6: the text is `pad(i, n)`: decimal digits of value `i`, at least `n` of them, and no leading
`0` where there are more than `n`. -/
def IsPadded (i n : Nat) (t : List Char) : Prop :=
  (∀ c ∈ t, c.isDigit = true) ∧ decimal t = i ∧ n ≤ t.length ∧ (n < t.length → t.head? ≠ some '0')

/-- R123: the operation raises the error for a run of its own on `c`: the error is surfaced; that the run is kept as one that is over,
failed and with nothing of it left, is the model's choice (notes/assumptions/13.md); nothing else changes. -/
def FailsWith (i : Instr) (s : State) (c : Configuration) (e : Error) : Prop :=
  exec i s = .next { s with result := some (.failure e), ended := ⟨c, [], [], 0, [], false, .failed e⟩ :: s.ended }

/-- R89: the operation completes and delivers the Word `w` with the two source names. -/
def GenOutputs (i : Instr) (s : State) (w : Word) : Prop :=
  ∃ t, exec i s = .next t ∧ t.result = some (.output w ['c', 'r', 'c'] ['d', 'a', 't', 'a'])

/-- R89, R127: the operation is a whole run of its own on `c` that ends done and delivers its Word `w` with the two source names;
that the run is kept as one that is over is the model's choice (notes/assumptions/13.md); nothing else changes. -/
def GenDelivers (i : Instr) (s : State) (c : Configuration) (w : Word) : Prop :=
  exec i s = .next { s with
    result := some (.output w ['c', 'r', 'c'] ['d', 'a', 't', 'a'])
    ended := {
      cfg := c
      inCrc := (List.range c.W).map (BitExpr.input .crc)
      inData := (List.range c.D).map (BitExpr.input .data)
      k := c.D
      ww := w
      stepped := false
      status := .done } :: s.ended }

/-- The bytes of a packed call up to a place where a node is read next: the node of an operand, an element of a Word or of an
operand list, the data bit of a step, and, inside any of them, an operand of an `Xor` node (notes/assumptions/1.md). -/
inductive BeforeNode : List Byte → Prop where
  /-- the first operand of BXEQ, BXKEY, BXEVAL, FLATTEN, ELIM, LEXSORT, SIMP or WALK -/
  | operand (op : Byte) : op ∈ [0x03, 0x04, 0x05, 0x10, 0x11, 0x12, 0x13, 0x42] → BeforeNode (op :: encodeNat 3)
  /-- the second operand of BXEQ -/
  | second (a : ExprSrc) : BeforeNode (0x03 :: (encodeExprSrc a ++ encodeNat 3))
  /-- an element of the list or Word of MKXOR, WNEW, WGET, CRCSTEP or CRCSTREAM -/
  | element (op : Byte) (n : Nat) (l : List BitExpr) : op ∈ [0x02, 0x30, 0x31, 0x40, 0x43] → l.length < n →
    BeforeNode (op :: (encodeNat 3 ++ (encodeNat n ++ encodeMany encodeExpr l)))
  /-- an element of the Word of a call of STEPL, STEPR, WFLAT or WSIMP -/
  | elementOfCall (op : Byte) (n : Nat) (l : List BitExpr) : op ∈ [0x22, 0x23, 0x32, 0x33] → l.length < n →
    BeforeNode (op :: (encodeBool false ++ (encodeNat 3 ++ (encodeNat n ++ encodeMany encodeExpr l))))
  /-- the data bit of a call of STEPL or STEPR -/
  | dataBit (op : Byte) (w : WordSrc) : op ∈ [0x22, 0x23] →
    BeforeNode (op :: (encodeBool false ++ (encodeWordSrc w ++ encodeNat 3)))
  /-- an operand of an `Xor` node -/
  | nested (bs : List Byte) (n : Nat) (l : List BitExpr) : BeforeNode bs → l.length < n →
    BeforeNode (bs ++ (encodeNat (4 * n + 2) ++ encodeMany encodeExpr l))

/-- R72: the operand `e` at position `n` of the operand list `l` is kept: an `Xor` always, an input bit at its first
occurrence when its count is odd, a constant never. -/
def survives (l : List BitExpr) (n : Nat) (e : BitExpr) : Bool :=
  isXor e || isInput e && decide (l.count e % 2 = 1) && decide (e ∉ l.take n)

/-- R72: the operands that are kept, in order. -/
def survivorsOf (l : List BitExpr) : List BitExpr :=
  (l.zipIdx.filter fun p => survives l p.2 p.1).map Prod.fst

/-- R72: the one `Const(1)` that is kept when their number is odd. -/
def onesOf (l : List BitExpr) : List BitExpr := if l.count (.const true) % 2 = 1 then [.const true] else []

/-- R95: the first node is an input bit that stands before the second, an input bit too: all `crc` leaves before all
`data` leaves, each group by ascending index. -/
def leafBefore (a b : BitExpr) : Prop :=
  ∃ s i s' j, a = .input s i ∧ b = .input s' j ∧ (s = .crc ∧ s' = .data ∨ s = s' ∧ i < j)

/-- R103: the reference function as it is written there, on numbers. -/
def numericRef (W D : Nat) (right : Bool) (crc data P : Nat) : Nat :=
  (List.range D).foldl (fun r k =>
    let b := data.testBit (if right then k else D - 1 - k)
    let fb := r.testBit (if right then 0 else W - 1) ^^ b
    let shifted := if right then r / 2 else r * 2 % 2 ^ W
    if fb then shifted ^^^ P else shifted) crc

end Sys2Proof.Safety
end

