-- ==== Sys2Proof/Certificates/Slice0/Obligations.lean ====
section
/-! DEFINITION. The statements about the machine. Where one quotes no rule it says which choice of the model it rests on. -/

open Sys2Proof Sys2Proof.Machine Sys2Proof.Safety

/-! ### The run, the step and the calls -/

/-- R28: what a run holds when it starts. That the machine rests at reset in the start of a run, and on which
Configuration, is the model's choice (notes/assumptions/3.md): the spec gives no reset and no default. -/
def Obligations.ResetIsTheStartOfARun : Prop :=
  (∀ c : Configuration,
    (State.start c).cfg = c ∧ (State.start c).k = 0 ∧ (State.start c).status = .running ∧
    (State.start c).inCrc.length = c.W ∧ (State.start c).inData.length = c.D ∧
    (∀ i, i < c.W → (State.start c).inCrc[i]? = some (.input .crc i)) ∧
    (∀ i, i < c.D → (State.start c).inData[i]? = some (.input .data i)) ∧
    (State.start c).ww = (State.start c).inCrc ∧ (State.start c).stepped = false) ∧
  State.reset = State.start State.resetCfg ∧ validate State.resetCfg = .ok ()

/-- The model's interface (notes/assumptions/1.md): a pending call that decodes is consumed and executed, whatever bytes
follow it; so is the instruction of a row's word placed by `withFetchWord`. -/
def Obligations.StepRunsTheNextCall : Prop :=
  (∀ (s : State) (i : Instr) (rest : List Byte), decode s.calls = .ok (i, rest) →
    step s = exec i { s with calls := rest }) ∧
  (∀ (s : State) (i : Instr) (rest : List Byte), i.wellFormed = true → s.calls = encode i ++ rest →
    step s = exec i { s with calls := rest }) ∧
  (∀ (s : State) (nbits w : Nat) (i : Instr) (rest : List Byte), decode (tableBytes nbits w) = .ok (i, rest) →
    step (s.withFetchWord nbits w) = exec i { s with calls := rest })

/-- R57, R50: an ordinal that R56 does not list is refused, whatever follows it; node tag 3 raises wherever the decoder reads a
node: in every operand that is or holds a node, nested nodes included. The packed form around the ordinal and the tag is the
model's (notes/assumptions/1.md). -/
def Obligations.ReservedEncodingsStop : Prop :=
  (∀ (s : State) (op : Byte) (bs : List Byte), s.calls = op :: bs →
    op.toNat ∉ [0x00, 0x01, 0x02, 0x03, 0x04, 0x05, 0x10, 0x11, 0x12, 0x13, 0x20, 0x21, 0x22, 0x23, 0x24, 0x30, 0x31,
      0x32, 0x33, 0x40, 0x41, 0x42, 0x43, 0x44] →
    step s = .refused (.unknownOrdinal op)) ∧
  (∀ (s : State) (bs : List Byte) (h : Nat) (rest : List Byte), BeforeNode bs → h % 4 = 3 →
    s.calls = bs ++ (encodeNat h ++ rest) →
    step s = .fault (.contractViolation .reservedTag))

/-- R27: a step of a machine with no call pending takes the transition of a running run that is enabled: while data bits are left,
the step on the data bit R27 names and the pass that does not sort; after the last, the pass that sorts, which ends the run.
The rest is the model's choice: that a step with no call pending is a transition (notes/assumptions/1.md); that a pass the caller has
begun is completed (notes/assumptions/5.md); that a Configuration the caller has supplied starts a run when the one held is done or
failed, with what was delivered before kept and the failure surfaced where VALIDATE raises, and that with none supplied the step is
refused (notes/assumptions/1.md, notes/assumptions/4.md, notes/assumptions/13.md). -/
def Obligations.StepWithNoCallTakesTheTransition : Prop :=
  ∀ s : State, s.calls = [] →
    (s.status = .running → s.stepped = false → s.k < s.cfg.D → ∀ x y : Word,
      exec (if s.cfg.right then .stepr (.call (.reg .ww) (.elem .inData s.k) .cfg)
        else .stepl (.call (.reg .ww) (.elem .inData (s.cfg.D - 1 - s.k)) .cfg)) s =
          .next { s with result := some (.word x) } →
      exec (.wsimp (.call (.lit x) .cfg false)) s = .next { s with result := some (.word y) } →
      step s = .next { s with ww := y, k := s.k + 1 }) ∧
    (s.status = .running → s.stepped = true → ∀ y : Word,
      exec (.wsimp (.call (.reg .ww) .cfg false)) s = .next { s with result := some (.word y) } →
      step s = .next { s with ww := y, stepped := false, k := s.k + 1 }) ∧
    (s.status = .running → s.stepped = false → s.k = s.cfg.D → ∀ y : Word,
      exec (.wsimp (.call (.reg .ww) .cfg true)) s = .next { s with result := some (.word y) } →
      step s = .next { s with ww := y, status := .done,
                              result := some (.output y ['c', 'r', 'c'] ['d', 'a', 't', 'a']),
                              ended := { s.toRun with ww := y, status := .done } :: s.ended }) ∧
    (s.status ≠ .running → s.supply = [] → step s = .refused .noTransition) ∧
    (s.status ≠ .running → ∀ (c : Configuration) (cs : List Configuration), s.supply = c :: cs →
      (validate c = .ok () →
        step s = .next { State.start c with result := s.result, supply := cs, ended := s.ended }) ∧
      (∀ e, validate c = .error e → ∃ t, step s = .next t ∧ t.toRun = ⟨c, [], [], 0, [], false, .failed e⟩ ∧
        (∀ r, r ≠ .out → readReg t r = .error (.refused .unobservable)) ∧ t.result = some (.failure e) ∧
        t.calls = [] ∧ t.supply = cs ∧ t.ended = t.toRun :: s.ended))

/-- R27: on a valid Configuration the transitions after `start`, `D` steps and the finish, deliver what GEN delivers and leave the run
that is over as GEN leaves it; until then the run is running and `k` counts the steps. With the start there are `D + 2`. That a
Configuration supplied by the caller starts a run when the one held is done or failed, and that the runs that are over are kept, is
the model's choice (notes/assumptions/1.md, notes/assumptions/13.md). -/
def Obligations.TransitionsOfARunAreGen : Prop :=
  ∀ c : Configuration, validate c = .ok () →
    (∀ k, k ≤ c.D → ∃ t : State, Sys2Proof.core.run k (State.start c) = .next t ∧ t.status = .running ∧ t.k = k) ∧
    (∃ t u : State, Sys2Proof.core.run (c.D + 1) (State.start c) = .next t ∧ t.status = .done ∧
      exec (.gen (.lit c)) (State.start c) = .next u ∧ t.result = u.result ∧ t.ended = u.ended ∧
      t.result = some (.output t.ww ['c', 'r', 'c'] ['d', 'a', 't', 'a'])) ∧
    ∀ (s : State) (cs : List Configuration), s.calls = [] → s.status ≠ .running → s.supply = c :: cs →
      (∀ k, k ≤ c.D → ∃ t : State, Sys2Proof.core.run (k + 1) s = .next t ∧ t.status = .running ∧ t.k = k) ∧
      ∃ t u : State, Sys2Proof.core.run (c.D + 2) s = .next t ∧ t.status = .done ∧
        exec (.gen (.lit c)) s = .next u ∧ t.result = u.result ∧ t.ended = u.ended ∧
        t.result = some (.output t.ww ['c', 'r', 'c'] ['d', 'a', 't', 'a'])

/-- R89: GEN is VALIDATE, INWORDS, for every data bit the step its direction selects and a WSIMP that does not sort, and a
WSIMP that sorts: run one after the other as operations of a run they deliver the Word GEN delivers, with the two source names, and
leave the run that is over as GEN leaves it; on an invalid Configuration GEN raises as VALIDATE. That the operations can be run one
by one is the model's choice (notes/assumptions/5.md). -/
def Obligations.GenIsItsSequenceOfOperations : Prop :=
  (∀ c : CfgSrc, (Instr.gen c).ordinal = 0x24) ∧
  (∀ c : Configuration, validate c = .ok () → ∃ t u, execAll (expansion c) (State.start c) = .next t ∧
    exec (.gen .cfg) (State.start c) = .next u ∧ t.status = .done ∧ t.result = u.result ∧ t.ended = u.ended ∧
    t.result = some (.output t.ww ['c', 'r', 'c'] ['d', 'a', 't', 'a'])) ∧
  (∀ (s : State) (c : CfgSrc) (e : Error), validate (readCfg s c) = .error e →
    exec (.gen c) s = exec (.validate c) s)

/-- R13, R16, R17, R21, R89, R127: GEN completes on every valid Configuration, from every state: it delivers a Word of `W` elements
with the two source names; its run is done, on its own Configuration and with its own input words, every data bit consumed; and the
run the machine holds is left as it is. A later call that names the Word handed over reads that Word. That the run that is over is kept,
and that a call can name its Word, is the model's choice (notes/assumptions/1.md, notes/assumptions/13.md). -/
def Obligations.GenCompletesOnEveryValidConfiguration : Prop :=
  ∀ (s : State) (c : CfgSrc), validate (readCfg s c) = .ok () → ∃ w : Word,
    w.length = (readCfg s c).W ∧ GenDelivers (.gen c) s (readCfg s c) w ∧
    ∀ t, exec (.gen c) s = .next t → readWord t (.reg .out) = .ok w

/-- R13, R91, R125: what a GEN delivers, and how its run ends, depends on its Configuration alone: nothing of the run the machine
holds, nor of the runs that are over, nor of what was delivered before, shows in it. That its run is kept as one that is over, although
R89 says that none of it survives the return, and that the run held is left alone, is the model's choice and reading
(notes/assumptions/4.md, notes/assumptions/13.md). -/
def Obligations.GenIgnoresThePast : Prop :=
  ∀ c : Configuration, ∃ (v : Value) (r : Run), ∀ s : State,
    exec (.gen (.lit c)) s = .next { s with result := some v, ended := r :: s.ended }

/-- R82: VALIDATE's three checks in order, what it raises, and that it returns on every other Configuration. That the run it raises
for is kept among those that are over, failed, and that the run the machine holds is left alone, is the model's
choice and reading (notes/assumptions/13.md). -/
def Obligations.ValidateChecksInOrder : Prop :=
  ∀ (s : State) (c : CfgSrc),
    (Instr.validate c).ordinal = 0x20 ∧
    (validate (readCfg s c) = .ok () ↔
      1 ≤ (readCfg s c).W ∧ 1 ≤ (readCfg s c).D ∧ (readCfg s c).P ≤ 2 ^ (readCfg s c).W - 1) ∧
    ((readCfg s c).W < 1 → FailsWith (.validate c) s (readCfg s c) (.invalidConfiguration .crcWidth)) ∧
    (1 ≤ (readCfg s c).W → (readCfg s c).D < 1 →
      FailsWith (.validate c) s (readCfg s c) (.invalidConfiguration .dataWidth)) ∧
    (1 ≤ (readCfg s c).W → 1 ≤ (readCfg s c).D → 2 ^ (readCfg s c).W - 1 < (readCfg s c).P →
      FailsWith (.validate c) s (readCfg s c) (.invalidConfiguration .polynomial)) ∧
    (1 ≤ (readCfg s c).W → 1 ≤ (readCfg s c).D → (readCfg s c).P ≤ 2 ^ (readCfg s c).W - 1 →
      exec (.validate c) s = .next { s with result := some .unit })

/-- R21, R115, R116, R125, R127: of the operations only VALIDATE and GEN raise an error that is surfaced, only
`InvalidConfiguration`, and the run that fails is their own: no operation makes the run the machine holds fail or takes it out of
failed, and only its last pass ends it. Of the transitions only the start of a run fails, on a Configuration VALIDATE raises on, and
it alone leaves the failed status. That a VALIDATE or GEN that raises fails a run of its own, which is kept, and not the one held, and
that a start takes the place of the run held, is the model's reading and choice (notes/assumptions/2.md, notes/assumptions/13.md). -/
def Obligations.OnlyConfigurationsFail : Prop :=
  (∀ (i : Instr) (s t : State), exec i s = .next t →
    (t.status = s.status ∨ i = .wsimp (.run true) ∧ s.status = .running ∧ t.status = .done) ∧
    (∀ e, t.result = some (.failure e) → (∃ k, e = .invalidConfiguration k) ∧ ∃ c, i = .validate c ∨ i = .gen c) ∧
    (∀ r e, t.ended = r :: s.ended → r.status = .failed e →
      (∃ k, e = .invalidConfiguration k) ∧ ∃ c, i = .validate c ∨ i = .gen c)) ∧
  ∀ s t : State, s.calls = [] → step s = .next t →
    (∀ e, t.status = .failed e → s.status ≠ .running ∧ ∃ c cs, s.supply = c :: cs ∧ validate c = .error e) ∧
    (∀ e, s.status = .failed e → ∃ c cs, s.supply = c :: cs ∧ t.cfg = c ∧ t.supply = cs)

/-- R120, R68: MKIN, MKCONST, VALIDATE, INWORDS, GEN, CRCREF and BITREV raise no contract violation, in any state; nor does WNEW
on a list that can be read, nor BXEQ and the steps on operands that can be read and are well formed and, for a step, a Word that
is not empty. -/
def Obligations.OperationsThatNeverFault : Prop :=
  ∀ (s : State) (f : Fault),
    (∀ src n, exec (.mkin src n) s ≠ .fault f) ∧ (∀ b, exec (.mkconst b) s ≠ .fault f) ∧
    (∀ c, exec (.validate c) s ≠ .fault f) ∧ (∀ c, exec (.inwords c) s ≠ .fault f) ∧
    (∀ c, exec (.gen c) s ≠ .fault f) ∧ (∀ a, exec (.crcref a) s ≠ .fault f) ∧
    (∀ v, exec (.bitrev v) s ≠ .fault f) ∧
    (∀ a b x y, readExpr s a = .ok x → readExpr s b = .ok y → wf x = true → wf y = true →
      exec (.bxeq a b) s ≠ .fault f) ∧
    (∀ w x, readWord s w = .ok x → exec (.wnew w) s ≠ .fault f) ∧
    (∀ w d p x y, readWord s w = .ok x → x ≠ [] → (∀ e ∈ x, wf e = true) → readExpr s d = .ok y → wf y = true →
      exec (.stepl (.call w d p)) s ≠ .fault f ∧ exec (.stepr (.call w d p)) s ≠ .fault f)

/-- R24, R37, R121, R127: an operation that is not one of the held run's own, VALIDATE and GEN on any Configuration among them, leaves
the whole run as it is, and what the caller has placed and supplied too. That a VALIDATE that raises, and a GEN, fails or ends a run of
its own and not the one held is the model's reading (notes/assumptions/13.md); which forms are the held run's own, and that a call has
other forms, is the model's (notes/assumptions/5.md), and so are the calls placed and the Configurations supplied
(notes/assumptions/1.md). -/
def Obligations.CallsLeaveTheRunAlone : Prop :=
  ∀ (i : Instr) (s t : State), isCall i = true → exec i s = .next t →
    SameRun s t ∧ t.calls = s.calls ∧ t.supply = s.supply

/-- R15, R16: no operation changes the Configuration of the run, and none but an INWORDS of the run its input words; a transition of a
running run changes neither, and after the end of a run the only transition is the start of another, on the Configuration
supplied for it. That a VALIDATE or GEN on another Configuration leaves the run held alone, and that another run replaces the one held
once it is over, is the model's reading and choice (notes/assumptions/13.md). -/
def Obligations.ConfigurationIsImmutable : Prop :=
  (∀ (i : Instr) (s t : State), exec i s = .next t → t.cfg = s.cfg) ∧
  (∀ (i : Instr) (s t : State), exec i s = .next t → i ≠ .inwords .cfg → t.inCrc = s.inCrc ∧ t.inData = s.inData) ∧
  (∀ s t : State, s.calls = [] → step s = .next t → t.calls = s.calls ∧
    (s.status = .running → t.cfg = s.cfg ∧ t.inCrc = s.inCrc ∧ t.inData = s.inData ∧ t.supply = s.supply) ∧
    (s.status ≠ .running → s.supply = t.cfg :: t.supply))

/-- What an operand reads (notes/assumptions/1.md): what the caller supplies, a part of the run the machine holds, or the Word of the
last run that ended done, which was handed to the caller; a position beyond the Word raises as WGET does (R97), nothing of a failed
run is read (R123), and no handed Word while no run has ended done. -/
def Obligations.OperandsRead : Prop :=
  ∀ s : State,
    (∀ w e p o c, readWord s (.lit w) = .ok w ∧ readExpr s (.lit e) = .ok e ∧ readPoly s (.lit p) = p ∧
      readOpt s (.lit o) = o ∧ readCfg s (.lit c) = c) ∧
    readPoly s .cfg = s.cfg.P ∧ readOpt s .cfg = s.cfg.opt ∧ readCfg s .cfg = s.cfg ∧
    ((∀ e, s.status ≠ .failed e) →
      readWord s (.reg .ww) = .ok s.ww ∧ readWord s (.reg .inCrc) = .ok s.inCrc ∧
      readWord s (.reg .inData) = .ok s.inData) ∧
    (∀ (r : Run) (pre post : List Run), s.ended = pre ++ r :: post → (∀ x ∈ pre, x.status ≠ .done) → r.status = .done →
      readWord s (.reg .out) = .ok r.ww) ∧
    (∀ r w j, readWord s (.reg r) = .ok w →
      (∀ x, w[j]? = some x → readExpr s (.elem r j) = .ok x) ∧
      (w.length ≤ j → exec (.bxkey (.elem r j)) s = .fault (.contractViolation .indexOutOfRange))) ∧
    (∀ e, s.status = .failed e → ∀ r j, r ≠ .out →
      exec (.wget (.reg r) j) s = .refused .unobservable ∧ exec (.bxkey (.elem r j)) s = .refused .unobservable) ∧
    ((∀ r ∈ s.ended, r.status ≠ .done) → ∀ j,
      exec (.wget (.reg .out) j) s = .refused .unobservable ∧ exec (.bxkey (.elem .out j)) s = .refused .unobservable)

/-- Operands outside their domain, as the model chooses (notes/assumptions/6.md, notes/assumptions/7.md,
notes/assumptions/10.md). INWORDS on a Configuration that is not valid, which is no operand of it (R83), is refused. MKXOR raises on
an element of its list that is not well formed, BXEQ on such an operand, and STEPL and STEPR on such a data bit or element of their
Word: R68 says so of every operation, while the rules of these four and R120 list no such error. A step called on a Word of no
elements, which has no top and no low element to read (R97), faults. CRCSTEP and CRCSTREAM with vectors that are not of the widths of
the Word are refused, but on a Word supplied with the call that has fewer elements than `crc` has bits CRCSTEP reads beyond it and
raises, and so does CRCSTREAM at its first data word, raising what that CRCSTEP raises; with no data word it reads nothing of the Word
and delivers `INIT xor XOROUT`. -/
def Obligations.IllegalOperandsStop : Prop :=
  (∀ (s : State) (c : CfgSrc) (e : Error), validate (readCfg s c) = .error e →
    exec (.inwords c) s = .refused .illegalOperand) ∧
  (∀ (s : State) (ops : WordSrc) (l : List BitExpr), readWord s ops = .ok l → (∃ e ∈ l, wf e = false) →
    exec (.mkxor ops) s = .fault (.contractViolation .emptyXor)) ∧
  (∀ (s : State) (a b : ExprSrc) (x y : BitExpr), readExpr s a = .ok x → readExpr s b = .ok y →
    wf x = false ∨ wf y = false → exec (.bxeq a b) s = .fault (.contractViolation .emptyXor)) ∧
  (∀ (s : State) (w : WordSrc) (d : ExprSrc) (p : PolySrc) (x : Word) (y : BitExpr), readWord s w = .ok x →
    readExpr s d = .ok y → (∃ e ∈ y :: x, wf e = false) →
    exec (.stepl (.call w d p)) s = .fault (.contractViolation .emptyXor) ∧
    exec (.stepr (.call w d p)) s = .fault (.contractViolation .emptyXor)) ∧
  (∀ (s : State) (w : WordSrc) (d : ExprSrc) (p : PolySrc) (y : BitExpr), readWord s w = .ok [] →
    readExpr s d = .ok y → wf y = true →
    exec (.stepl (.call w d p)) s = .fault (.contractViolation .indexOutOfRange) ∧
    exec (.stepr (.call w d p)) s = .fault (.contractViolation .indexOutOfRange)) ∧
  (∀ (s : State) (w : WordSrc) (x : Word) (W D : Nat) (crc xorout : BitVec W) (data : BitVec D) (ws : List (BitVec D)),
    readWord s w = .ok x →
    (W < x.length ∨ (∃ r y, w = .reg r ∧ s.runOf r = some y ∧ (x.length ≠ W ∨ D ≠ y.cfg.D)) →
      exec (.crcstep w ⟨W, crc⟩ ⟨D, data⟩) s = .refused .widthDisagreement ∧
      exec (.crcstream w ⟨W, D, crc, ws, xorout⟩) s = .refused .widthDisagreement) ∧
    (w = .lit x → x.length < W → (∃ c, exec (.crcstep w ⟨W, crc⟩ ⟨D, data⟩) s = .fault (.contractViolation c) ∧
        exec (.crcstream w ⟨W, D, crc, data :: ws, xorout⟩) s = .fault (.contractViolation c) ∧
        ((∀ e ∈ x, wfw W D e = true) → c = .indexOutOfRange)) ∧
      exec (.crcstream w ⟨W, D, crc, [], xorout⟩) s = .next { s with result := some (.bits ⟨W, crc ^^^ xorout⟩) }))

/-! ### The Bit Expression Model -/

/-- R62, R63, R64: the three constructors: MKIN checks no index, MKXOR keeps the operands and their order and raises on an empty
list. Its operands are well formed here; what it does on others is the model's reading, and is stated apart. -/
def Obligations.ConstructorsBuildTheirNodes : Prop :=
  (∀ src n b l, (Instr.mkin src n).ordinal = 0x00 ∧ (Instr.mkconst b).ordinal = 0x01 ∧ (Instr.mkxor l).ordinal = 0x02) ∧
  (∀ (s : State) (src : SourceId) (n : Nat),
    exec (.mkin src n) s = .next { s with result := some (.expr (.input src n)) }) ∧
  (∀ (s : State) (b : Bool), exec (.mkconst b) s = .next { s with result := some (.expr (.const b)) }) ∧
  (∀ (s : State) (ops : WordSrc) (l : List BitExpr), readWord s ops = .ok l →
    (l = [] → exec (.mkxor ops) s = .fault (.contractViolation .emptyXor)) ∧
    (l ≠ [] → (∀ e ∈ l, wf e = true) →
      exec (.mkxor ops) s = .next { s with result := some (.expr (.xor (ExprList.ofList l))) }))

/-- R65: BXEQ answers whether the two trees are the same tree, for all well-formed trees. What it does on others is the model's
reading, and is stated apart. -/
def Obligations.EqualityIsStructural : Prop :=
  (∀ a b, (Instr.bxeq a b).ordinal = 0x03) ∧
  ∀ (s : State) (a b : ExprSrc) (x y : BitExpr), readExpr s a = .ok x → readExpr s b = .ok y →
    wf x = true → wf y = true →
      exec (.bxeq a b) s = .next { s with result := some (.bool (decide (x = y))) }

/-- R66, R52, R53: the sort key of every well-formed tree, and that BXKEY raises on every other. -/
def Obligations.SortKeysHaveTheirFormat : Prop :=
  (∀ a, (Instr.bxkey a).ordinal = 0x04) ∧
  ∀ (s : State) (a : ExprSrc),
    (∀ i, readExpr s a = .ok (.input .crc i) → ∃ t, IsPadded i 7 t ∧
      exec (.bxkey a) s = .next { s with result := some (.key (['c', 'r', 'c'] ++ t)) }) ∧
    (∀ i, readExpr s a = .ok (.input .data i) → ∃ t, IsPadded i 7 t ∧
      exec (.bxkey a) s = .next { s with result := some (.key (['d', 'a', 't', 'a'] ++ t)) }) ∧
    (readExpr s a = .ok (.const false) → exec (.bxkey a) s = .next { s with result := some (.key ['0']) }) ∧
    (readExpr s a = .ok (.const true) → exec (.bxkey a) s = .next { s with result := some (.key ['1']) }) ∧
    (∀ l ks, readExpr s a = .ok (.xorOf l) → l ≠ [] →
      List.Forall₂ (fun e k => exec (.bxkey (.lit e)) s = .next { s with result := some (.key k) }) l ks →
      exec (.bxkey a) s = .next { s with result := some (.key ks.flatten) }) ∧
    (∀ x, readExpr s a = .ok x → wf x = true →
      ∃ k, exec (.bxkey a) s = .next { s with result := some (.key k) }) ∧
    (∀ x, readExpr s a = .ok x → wf x = false → exec (.bxkey a) s = .fault (.contractViolation .emptyXor))

/-- R54: keys are compared character by character by code, a proper prefix being smaller; and what follows: the order
within a source, between the sources, of digits before letters, of the constants, and the overflow of the padded index. -/
def Obligations.KeyOrderIsLexicographic : Prop :=
  (∀ a b : List Char, keyLe a b = true ↔ a = b ∨ List.Lex (fun x y => x.toNat < y.toNat) a b) ∧
  (∀ (s : SourceId) (i j : Nat), i < 10 ^ 7 → j < 10 ^ 7 →
    keyLe (keyText (.input s i)) (keyText (.input s j)) = decide (i ≤ j)) ∧
  (∀ a b : List Char, keyLe (['c', 'r', 'c'] ++ a) (['d', 'a', 't', 'a'] ++ b) = true ∧
    keyLe (['d', 'a', 't', 'a'] ++ b) (['c', 'r', 'c'] ++ a) = false) ∧
  (∀ (a : List Char) (x : Char), x.isDigit = true → ∀ y ∈ ['c', 'd'], ∀ b : List Char,
    keyLe (x :: a) (y :: b) = true ∧ keyLe (y :: b) (x :: a) = false) ∧
  keyLe (keyText (.const false)) (keyText (.const true)) = true ∧
  keyLe (keyText (.const true)) (keyText (.const false)) = false ∧
  keyLe (keyText (.input .crc (10 ^ 7))) (keyText (.input .crc (10 ^ 7 - 1))) = true

/-- R67: BXEVAL answers the parity of the leaves that are 1 exactly on the trees well formed for the two widths; on any other
it raises, `EmptyXor` only where an `Xor` is empty and `IndexOutOfRange` where none is. -/
def Obligations.EvaluationIsParityOfLeaves : Prop :=
  (∀ a crc data, (Instr.bxeval a crc data).ordinal = 0x05) ∧
  ∀ (s : State) (a : ExprSrc) (x : BitExpr) (W D : Nat) (crc : BitVec W) (data : BitVec D), readExpr s a = .ok x →
    (wfw W D x = true → exec (.bxeval a ⟨W, crc⟩ ⟨D, data⟩) s =
      .next { s with result := some (.bit (decide ((leaves x).countP (leafBit crc data) % 2 = 1))) }) ∧
    (wfw W D x = false → wf x = true →
      exec (.bxeval a ⟨W, crc⟩ ⟨D, data⟩) s = .fault (.contractViolation .indexOutOfRange)) ∧
    (wfw W D x = false →
      exec (.bxeval a ⟨W, crc⟩ ⟨D, data⟩) s = .fault (.contractViolation .indexOutOfRange) ∨
      exec (.bxeval a ⟨W, crc⟩ ⟨D, data⟩) s = .fault (.contractViolation .emptyXor))

/-! ### The XOR Simplifier -/

/-- R71: FLATTEN of an `Xor` is the `Xor` of its leaves, left to right with repetition; any other node is unchanged. -/
def Obligations.FlattenListsTheLeaves : Prop :=
  (∀ a, (Instr.flatten a).ordinal = 0x10) ∧
  ∀ (s : State) (a : ExprSrc) (x : BitExpr), readExpr s a = .ok x →
    (wf x = true → exec (.flatten a) s =
      .next { s with result := some (.expr (if isXor x then .xorOf (leaves x) else x)) }) ∧
    (wf x = false → exec (.flatten a) s = .fault (.contractViolation .emptyXor))

/-- R72: ELIM of an `Xor` keeps its operands by position: every nested `Xor`, every input bit of odd count at its first
occurrence, and one `Const(1)` at the end when their count is odd; with none left the result is `Const(0)`; a leaf is
unchanged. -/
def Obligations.ElimKeepsOddOperands : Prop :=
  (∀ a, (Instr.elim a).ordinal = 0x11) ∧
  ∀ (s : State) (a : ExprSrc) (x : BitExpr), readExpr s a = .ok x →
    (isXor x = false → exec (.elim a) s = .next { s with result := some (.expr x) }) ∧
    (∀ l, x = .xorOf l → wf x = true →
      (survivorsOf l ++ onesOf l = [] → exec (.elim a) s = .next { s with result := some (.expr (.const false)) }) ∧
      (survivorsOf l ++ onesOf l ≠ [] →
        exec (.elim a) s = .next { s with result := some (.expr (.xorOf (survivorsOf l ++ onesOf l))) })) ∧
    (wf x = false → exec (.elim a) s = .fault (.contractViolation .emptyXor))

/-- R73: LEXSORT of an `Xor` is the `Xor` of a list that has the same operands, is in ascending key order, and lists operands of
equal key in their original order; a leaf is unchanged. -/
def Obligations.LexsortIsAStableSort : Prop :=
  (∀ a, (Instr.lexsort a).ordinal = 0x12) ∧
  ∀ (s : State) (a : ExprSrc) (x : BitExpr), readExpr s a = .ok x →
    (isXor x = false → exec (.lexsort a) s = .next { s with result := some (.expr x) }) ∧
    (∀ l, x = .xorOf l → wf x = true → ∃ m,
      exec (.lexsort a) s = .next { s with result := some (.expr (.xorOf m)) } ∧ m.Perm l ∧
      m.Pairwise (fun e f => keyLe (keyText e) (keyText f) = true) ∧
      ∀ k : List Char, m.filter (fun e => decide (keyText e = k)) = l.filter fun e => decide (keyText e = k)) ∧
    (wf x = false → exec (.lexsort a) s = .fault (.contractViolation .emptyXor))

/-- R74: SIMP is FLATTEN if `flatten` is set, then ELIM if `eliminate` is set, then LEXSORT if the pass sorts and both
`eliminate` and `lexicographic-sort` are set; each is left out otherwise. -/
def Obligations.SimpIsTheComposition : Prop :=
  (∀ a o b, (Instr.simplify a o b).ordinal = 0x13) ∧
  ∀ (s : State) (a : ExprSrc) (o : OptSrc) (sortLex : Bool) (x : BitExpr), readExpr s a = .ok x →
    (wf x = true → ∃ e1 e2 e3,
      (if (readOpt s o).flatten then exec (.flatten (.lit x)) s = .next { s with result := some (.expr e1) }
        else e1 = x) ∧
      (if (readOpt s o).eliminate then exec (.elim (.lit e1)) s = .next { s with result := some (.expr e2) }
        else e2 = e1) ∧
      (if sortLex = true ∧ (readOpt s o).eliminate = true ∧ (readOpt s o).lexSort = true then
          exec (.lexsort (.lit e2)) s = .next { s with result := some (.expr e3) }
        else e3 = e2) ∧
      exec (.simplify a o sortLex) s = .next { s with result := some (.expr e3) }) ∧
    (wf x = false → exec (.simplify a o sortLex) s = .fault (.contractViolation .emptyXor))

/-- R75: every pass completes on a well-formed tree and delivers a well-formed tree; where the operand is well formed for two
widths so is the result, and it has the same value under every pair of vectors. -/
def Obligations.PassesPreserveMeaning : Prop :=
  ∀ (s : State) (x : BitExpr) (o : OptSrc) (sortLex : Bool), wf x = true →
    ∀ i ∈ [Instr.flatten (.lit x), Instr.elim (.lit x), Instr.lexsort (.lit x), Instr.simplify (.lit x) o sortLex],
      ∃ y, exec i s = .next { s with result := some (.expr y) } ∧ wf y = true ∧
        ∀ (W D : Nat), wfw W D x = true → wfw W D y = true ∧
          ∀ (crc : BitVec W) (data : BitVec D), bxeval crc data y = bxeval crc data x

/-- R76: the cancellation law for an input bit `b`: with an even count ELIM gives what it gives with all copies removed; with
an odd count what it gives with one copy kept, as equality of nodes when the kept copy is the first, and as equality of values
whichever copy is kept. -/
def Obligations.CancellationLaw : Prop :=
  ∀ (s : State) (l : List BitExpr) (b : BitExpr), isInput b = true →
    (l.count b % 2 = 0 → l.filter (· ≠ b) ≠ [] →
      exec (.elim (.lit (.xorOf l))) s = exec (.elim (.lit (.xorOf (l.filter (· ≠ b))))) s) ∧
    (l.count b % 2 = 0 → l ≠ [] → l.filter (· ≠ b) = [] →
      exec (.elim (.lit (.xorOf l))) s = .next { s with result := some (.expr (.const false)) }) ∧
    (l.count b % 2 = 1 → ∀ p q, l = p ++ b :: q →
      (b ∉ p → exec (.elim (.lit (.xorOf l))) s = exec (.elim (.lit (.xorOf (p ++ b :: q.filter (· ≠ b))))) s) ∧
      (∀ (W D : Nat) (crc : BitVec W) (data : BitVec D), wfw W D (.xorOf l) = true → ∃ y z,
        exec (.elim (.lit (.xorOf l))) s = .next { s with result := some (.expr y) } ∧
        exec (.elim (.lit (.xorOf (p.filter (· ≠ b) ++ b :: q.filter (· ≠ b))))) s =
          .next { s with result := some (.expr z) } ∧
        bxeval crc data y = bxeval crc data z))

/-- R77: simplifying a simplified node again, with the same flags and the same `sortLex`, gives the same node; and simplifying
a simplified Word again gives the same Word. -/
def Obligations.SimplificationIsIdempotent : Prop :=
  (∀ (s : State) (x y : BitExpr) (o : OptSrc) (sortLex : Bool),
    exec (.simplify (.lit x) o sortLex) s = .next { s with result := some (.expr y) } →
    exec (.simplify (.lit y) o sortLex) s = .next { s with result := some (.expr y) }) ∧
  (∀ (s : State) (v w : Word) (o : OptSrc) (sortLex : Bool),
    exec (.wsimp (.call (.lit v) o sortLex)) s = .next { s with result := some (.word w) } →
    exec (.wsimp (.call (.lit w) o sortLex)) s = .next { s with result := some (.word w) })

/-- R80, its first half: the shape of an `Xor` after FLATTEN then ELIM, and which leaves stand in it. -/
def Obligations.ShapeAfterFlattenThenElim : Prop :=
  ∀ (s : State) (x : BitExpr), wf x = true → isXor x = true → ∃ f y,
    exec (.flatten (.lit x)) s = .next { s with result := some (.expr f) } ∧
    exec (.elim (.lit f)) s = .next { s with result := some (.expr y) } ∧
    ∃ ins : List BitExpr, ins.Nodup ∧ (∀ e, e ∈ ins ↔ isInput e = true ∧ (leaves x).count e % 2 = 1) ∧
      (ins ++ onesOf (leaves x) = [] → y = .const false) ∧
      (ins ++ onesOf (leaves x) ≠ [] → y = .xorOf (ins ++ onesOf (leaves x)))

/-- R80, its second half: under OPT_ALL two `Xor` trees that are well formed for the same widths and have the same value under
every pair of vectors have the same simplified form, whatever their shapes. -/
def Obligations.SimplifiedFormIsCanonical : Prop :=
  ∀ (s : State) (W D : Nat) (x x' : BitExpr),
    wfw W D x = true → wfw W D x' = true → isXor x = true → isXor x' = true →
    (∀ (crc : BitVec W) (data : BitVec D), bxeval crc data x = bxeval crc data x') →
    ∃ y, exec (.simplify (.lit x) (.lit ⟨true, true, true⟩) true) s = .next { s with result := some (.expr y) } ∧
      exec (.simplify (.lit x') (.lit ⟨true, true, true⟩) true) s = .next { s with result := some (.expr y) }

/-! ### The Register Unroll Algorithm -/

/-- R83: INWORDS delivers the two symbolic input words of a valid Configuration; called on the Configuration of a running run
it writes them to the run (R16), and in every other form it only delivers them. Which operand form is the run's own, and that the
others write nothing of the run, is the model's reading (notes/assumptions/1.md, notes/assumptions/5.md). -/
def Obligations.InwordsBuildsTheInputWords : Prop :=
  (∀ c, (Instr.inwords c).ordinal = 0x21) ∧
  ∀ (s : State) (c : CfgSrc), validate (readCfg s c) = .ok () → ∃ inData inCrc : Word,
    inData.length = (readCfg s c).D ∧ inCrc.length = (readCfg s c).W ∧
    (∀ i, i < (readCfg s c).D → inData[i]? = some (.input .data i)) ∧
    (∀ i, i < (readCfg s c).W → inCrc[i]? = some (.input .crc i)) ∧
    (c = .cfg → s.status = .running →
      exec (.inwords c) s =
        .next { s with inData := inData, inCrc := inCrc, result := some (.inputs inData inCrc) }) ∧
    (c ≠ .cfg ∨ s.status ≠ .running →
      exec (.inwords c) s = .next { s with result := some (.inputs inData inCrc) })

/-- R84: STEPL called with a Word of at least one element: element `j` of the new Word is the old element `j - 1` (at position
0, `Const(0)`), with the feedback query bit of the old top element and the data bit where bit `j` of the polynomial is set. The
operands are well formed here; what the step does on others is the model's reading, and is stated apart. -/
def Obligations.LeftStepBuildsTheNewWord : Prop :=
  (∀ a, (Instr.stepl a).ordinal = 0x22) ∧
  ∀ (s : State) (w : WordSrc) (d : ExprSrc) (p : PolySrc) (x : Word) (e top : BitExpr), readWord s w = .ok x →
    readExpr s d = .ok e → x.getLast? = some top → (∀ y ∈ e :: x, wf y = true) → ∃ z : Word,
      exec (.stepl (.call w d p)) s = .next { s with result := some (.word z) } ∧ z.length = x.length ∧
      ∀ j pred, (BitExpr.const false :: x.dropLast)[j]? = some pred →
        z[j]? = some (if (readPoly s p).testBit j then .xorOf [pred, .xorOf [top, e]] else pred)

/-- R85: STEPR called with a Word of at least one element: element `j` of the new Word is the old element `j + 1` (at the last
position, `Const(0)`), with the feedback query bit of the old element 0 and the data bit where bit `j` of the polynomial is
set. The operands are well formed here; what the step does on others is the model's reading, and is stated apart. -/
def Obligations.RightStepBuildsTheNewWord : Prop :=
  (∀ a, (Instr.stepr a).ordinal = 0x23) ∧
  ∀ (s : State) (w : WordSrc) (d : ExprSrc) (p : PolySrc) (x : Word) (e low : BitExpr), readWord s w = .ok x →
    readExpr s d = .ok e → x.head? = some low → (∀ y ∈ e :: x, wf y = true) → ∃ z : Word,
      exec (.stepr (.call w d p)) s = .next { s with result := some (.word z) } ∧ z.length = x.length ∧
      ∀ j pred, (x.tail ++ [BitExpr.const false])[j]? = some pred →
        z[j]? = some (if (readPoly s p).testBit j then .xorOf [pred, .xorOf [low, e]] else pred)

/-- R19, R27, R86: the run's own step, in the direction of the run, while data bits are left and no pass is due, builds what the call
on the working Word, the data bit R86 names and the run's polynomial builds, and replaces the working Word by it; the data bit counts
as consumed when the pass is done (R27). In the other direction, or with no data bit left, or when the run is not running or its pass
is due, it is refused. The forms are the model's (notes/assumptions/5.md). -/
def Obligations.StepOfTheRunAdvancesIt : Prop :=
  ∀ s : State,
    (s.status = .running → s.stepped = false → s.k < s.cfg.D → s.cfg.right = false → s.ww ≠ [] →
      s.inData.length = s.cfg.D → (∀ e ∈ s.ww ++ s.inData, wf e = true) → ∃ z,
      exec (.stepl (.call (.reg .ww) (.elem .inData (s.cfg.D - 1 - s.k)) .cfg)) s =
        .next { s with result := some (.word z) } ∧
      exec (.stepl .run) s = .next { s with ww := z, stepped := true, result := some (.word z) }) ∧
    (s.status = .running → s.stepped = false → s.k < s.cfg.D → s.cfg.right = true → s.ww ≠ [] →
      s.inData.length = s.cfg.D → (∀ e ∈ s.ww ++ s.inData, wf e = true) → ∃ z,
      exec (.stepr (.call (.reg .ww) (.elem .inData s.k) .cfg)) s = .next { s with result := some (.word z) } ∧
      exec (.stepr .run) s = .next { s with ww := z, stepped := true, result := some (.word z) }) ∧
    (s.status ≠ .running ∨ s.stepped = true ∨ s.cfg.D ≤ s.k ∨ s.cfg.right = true →
      exec (.stepl .run) s = .refused .noTransition) ∧
    (s.status ≠ .running ∨ s.stepped = true ∨ s.cfg.D ≤ s.k ∨ s.cfg.right = false →
      exec (.stepr .run) s = .refused .noTransition)

/-- R90: the loop invariant. The values of the working Word after `k` steps of the run are the values of the recurrence, written
both bit by bit and on whole numbers, and after the last step the value of the reference function. -/
def Obligations.LoopInvariant : Prop :=
  ∀ c : Configuration, validate c = .ok () → ∀ (crc : BitVec c.W) (data : BitVec c.D), ∃ F : Nat → BitVec c.W,
    (∀ k, k ≤ c.D → ∃ t : State, Sys2Proof.core.run k (State.start c) = .next t ∧
      crcstep t.ww crc data = .ok (F k)) ∧
    F 0 = crc ∧ F c.D = crcref crc data (BitVec.ofNat c.W c.P) c.right ∧
    ∀ k, k < c.D → ∀ fb : Bool,
      fb = ((if c.right then (F k).getLsbD 0 else (F k).getLsbD (c.W - 1)) ^^
        data.getLsbD (if c.right then k else c.D - 1 - k)) →
      (∀ j, j < c.W → (F (k + 1)).getLsbD j =
        ((if c.right then (if j < c.W - 1 then (F k).getLsbD (j + 1) else false)
          else (if 0 < j then (F k).getLsbD (j - 1) else false)) ^^ (c.P.testBit j && fb))) ∧
      (F (k + 1)).toNat =
        (if c.right then (F k).toNat / 2 else (F k).toNat * 2 % 2 ^ c.W) ^^^ (if fb then c.P else 0)

/-- R94: on a valid Configuration no GEN raises, and every Word a run builds, in every step, after every step and at the end, is
well formed for the widths and holds no `Const(1)`. -/
def Obligations.RunsBuildWellFormedWords : Prop :=
  ∀ c : Configuration, validate c = .ok () →
    (∀ k, k ≤ c.D + 1 → ∃ t : State, Sys2Proof.core.run k (State.start c) = .next t ∧
      (∀ e ∈ t.ww, wf e = true ∧ wfw c.W c.D e = true ∧ hasNoOne e) ∧
      (k < c.D → ∃ u, exec (if c.right then .stepr .run else .stepl .run) t = .next u ∧
        ∀ e ∈ u.ww, wf e = true ∧ wfw c.W c.D e = true ∧ hasNoOne e)) ∧
    ∀ s : State, ∃ w, GenOutputs (.gen (.lit c)) s w ∧
      ∀ e ∈ w, wf e = true ∧ wfw c.W c.D e = true ∧ hasNoOne e

/-- R92: with `flatten` and `eliminate` set every element after every step is `Const(0)`, a bare leaf, or an `Xor` of distinct
input bits, at most `W + D` of them. -/
def Obligations.EliminationBoundsTheOperands : Prop :=
  ∀ c : Configuration, validate c = .ok () → c.opt.flatten = true → c.opt.eliminate = true →
    ∀ k, k ≤ c.D → ∃ t : State, Sys2Proof.core.run k (State.start c) = .next t ∧
      ∀ e ∈ t.ww, e = .const false ∨ isInput e = true ∨
        ∃ l : List BitExpr, e = .xorOf l ∧ l.Nodup ∧ (∀ x ∈ l, isInput x = true) ∧ l.length ≤ c.W + c.D

/-- R95: the shape of the output under OPT_ALL, for widths of at most `10^7`. -/
def Obligations.OutputShapeUnderAllFlags : Prop :=
  ∀ (s : State) (c : Configuration), validate c = .ok () → c.opt = ⟨true, true, true⟩ → c.W ≤ 10 ^ 7 → c.D ≤ 10 ^ 7 →
    ∃ w, GenOutputs (.gen (.lit c)) s w ∧
      ∀ e ∈ w, e = .const false ∨ (∃ i, e = .input .crc i) ∨
        ∃ l : List BitExpr, e = .xorOf l ∧ l ≠ [] ∧ (∀ x ∈ l, isInput x = true) ∧ l.Pairwise leafBefore

/-! ### The Word Container -/

/-- R96, R97: WNEW delivers the list as a Word, unchecked and also when it is empty; WGET delivers the element at a position of
the Word and raises at any other. -/
def Obligations.WordsAreBuiltAndRead : Prop :=
  (∀ w j, (Instr.wnew w).ordinal = 0x30 ∧ (Instr.wget w j).ordinal = 0x31) ∧
  ∀ (s : State) (w : WordSrc) (x : Word), readWord s w = .ok x →
    exec (.wnew w) s = .next { s with result := some (.word x) } ∧
    ∀ j, (∀ e, x[j]? = some e → exec (.wget w j) s = .next { s with result := some (.expr e) }) ∧
      (x.length ≤ j → exec (.wget w j) s = .fault (.contractViolation .indexOutOfRange))

/-- R98, R99, R78: WFLAT and WSIMP deliver the Word of the same length whose element `j` is what FLATTEN, respectively SIMP with
the same flags, delivers on the old element `j` alone; an element that is not well formed makes them raise. -/
def Obligations.WordPassesWorkElementByElement : Prop :=
  (∀ a b, (Instr.wflat a).ordinal = 0x32 ∧ (Instr.wsimp b).ordinal = 0x33) ∧
  ∀ (s : State) (w : WordSrc) (o : OptSrc) (sortLex : Bool) (x : Word), readWord s w = .ok x →
    ((∀ e ∈ x, wf e = true) →
      (∃ z, exec (.wflat (.call w)) s = .next { s with result := some (.word z) } ∧
        List.Forall₂ (fun e f => exec (.flatten (.lit e)) s = .next { s with result := some (.expr f) }) x z) ∧
      ∃ z, exec (.wsimp (.call w o sortLex)) s = .next { s with result := some (.word z) } ∧
        List.Forall₂ (fun e f =>
          exec (.simplify (.lit e) o sortLex) s = .next { s with result := some (.expr f) }) x z) ∧
    ((∃ e ∈ x, wf e = false) →
      exec (.wflat (.call w)) s = .fault (.contractViolation .emptyXor) ∧
      exec (.wsimp (.call w o sortLex)) s = .fault (.contractViolation .emptyXor))

/-- R19, R22, R27, R87, R88, R121: the run's own WSIMP replaces the working Word by what the call on it delivers: without sorting when
the pass after a step is due, and the data bit is then consumed; sorting when every data bit is, and that ends the run. The run's own
WFLAT does so when a pass is due and the run's flags ask for flattening. Otherwise they are refused, so that a run delivers nothing
but what GEN delivers. The forms, and that the run that is over is kept, are the model's (notes/assumptions/5.md,
notes/assumptions/13.md). -/
def Obligations.WordPassesOfTheRunReplaceTheWorkingWord : Prop :=
  ∀ s : State,
    (s.status = .running → (∀ e ∈ s.ww, wf e = true) →
      (s.cfg.opt.flatten = true → s.stepped = true ∨ s.k = s.cfg.D → ∃ z,
        exec (.wflat (.call (.reg .ww))) s = .next { s with result := some (.word z) } ∧
        exec (.wflat .run) s = .next { s with ww := z, result := some (.word z) }) ∧
      (s.stepped = true → ∃ z,
        exec (.wsimp (.call (.reg .ww) .cfg false)) s = .next { s with result := some (.word z) } ∧
        exec (.wsimp (.run false)) s =
          .next { s with ww := z, stepped := false, k := s.k + 1, result := some (.word z) }) ∧
      (s.stepped = false → s.k = s.cfg.D → ∃ z,
        exec (.wsimp (.call (.reg .ww) .cfg true)) s = .next { s with result := some (.word z) } ∧
        exec (.wsimp (.run true)) s = .next { s with ww := z, status := .done,
                                                     result := some (.output z ['c', 'r', 'c'] ['d', 'a', 't', 'a']),
                                                     ended := { s.toRun with ww := z, status := .done } :: s.ended })) ∧
    (s.status ≠ .running ∨ s.cfg.opt.flatten = false ∨ s.stepped = false ∧ s.k ≠ s.cfg.D →
      exec (.wflat .run) s = .refused .noTransition) ∧
    (s.status ≠ .running ∨ s.stepped = false → exec (.wsimp (.run false)) s = .refused .noTransition) ∧
    (s.status ≠ .running ∨ s.stepped = true ∨ s.k ≠ s.cfg.D → exec (.wsimp (.run true)) s = .refused .noTransition)

/-! ### The datapath -/

/-- R102: CRCSTEP on a Word as long as the register is wide and, where it is a Word of a run, a `data` of that run's `D` bits:
bit `j` of the delivered value is what BXEVAL delivers on element `j`, and an element BXEVAL raises on makes it raise. -/
def Obligations.DatapathEvaluatesEachElement : Prop :=
  (∀ w c d, (Instr.crcstep w c d).ordinal = 0x40) ∧
  ∀ (s : State) (w : WordSrc) (x : Word) (W D : Nat) (crc : BitVec W) (data : BitVec D), readWord s w = .ok x →
    x.length = W → (∀ r y, w = .reg r → s.runOf r = some y → D = y.cfg.D) →
    ((∀ e ∈ x, wfw W D e = true) → ∃ v : BitVec W,
      exec (.crcstep w ⟨W, crc⟩ ⟨D, data⟩) s = .next { s with result := some (.bits ⟨W, v⟩) } ∧
      crcstep x crc data = .ok v ∧
      ∀ j e, x[j]? = some e → exec (.bxeval (.lit e) ⟨W, crc⟩ ⟨D, data⟩) s =
        .next { s with result := some (.bit (v.getLsbD j)) }) ∧
    ((∃ e ∈ x, wfw W D e = false) → ∃ c,
      exec (.crcstep w ⟨W, crc⟩ ⟨D, data⟩) s = .fault (.contractViolation c) ∧
      (c = .emptyXor ∨ c = .indexOutOfRange))

/-- R103: CRCREF delivers the number the loop of the rule computes, for all operands of the stated widths. -/
def Obligations.ReferenceFunctionIsTheLoop : Prop :=
  (∀ a, (Instr.crcref a).ordinal = 0x41) ∧
  ∀ (s : State) (a : RefArgs), 1 ≤ a.W → 1 ≤ a.D → ∃ v : BitVec a.W,
    v = crcref a.crc a.data a.poly a.right ∧
    v.toNat = numericRef a.W a.D a.right a.crc.toNat a.data.toNat a.poly.toNat ∧
    exec (.crcref a) s = .next { s with result := some (.bits ⟨a.W, v⟩) }

/-- R104: equivalence. For every valid Configuration and every input pair, CRCSTEP on the Word GEN delivers and CRCREF deliver the
same value. -/
def Obligations.GenAgreesWithTheReference : Prop :=
  ∀ (s : State) (c : Configuration), validate c = .ok () → ∃ w, GenOutputs (.gen (.lit c)) s w ∧
    ∀ (t : State) (crc : BitVec c.W) (data : BitVec c.D), ∃ v : BitVec c.W,
      exec (.crcstep (.lit w) ⟨c.W, crc⟩ ⟨c.D, data⟩) t = .next { t with result := some (.bits ⟨c.W, v⟩) } ∧
      exec (.crcref ⟨c.W, c.D, crc, data, BitVec.ofNat c.W c.P, c.right⟩) t =
        .next { t with result := some (.bits ⟨c.W, v⟩) }

/-- R105: the flag set does not change the function. -/
def Obligations.FlagsDoNotChangeTheFunction : Prop :=
  ∀ (s : State) (P W D : Nat) (right : Bool) (o o' : OptFlags), validate ⟨P, W, D, right, o⟩ = .ok () → ∃ w w',
    GenOutputs (.gen (.lit ⟨P, W, D, right, o⟩)) s w ∧ GenOutputs (.gen (.lit ⟨P, W, D, right, o'⟩)) s w' ∧
    ∀ (crc : BitVec W) (data : BitVec D), ∃ v : BitVec W,
      crcstep w crc data = .ok v ∧ crcstep w' crc data = .ok v

/-- R106: WALK is the fold of the tree by the three callbacks, for callbacks that build values of any type: it gives `xr` the
results of the operands in their order, completes on well-formed trees, and raises on any other. -/
def Obligations.WalkIsTheFold : Prop :=
  ∀ (T : Type) (ref : SourceId → Nat → T) (con : Bool → T) (xr : List T → T),
    (∀ s i, walk ref con xr (.input s i) = .ok (ref s i)) ∧ (∀ b, walk ref con xr (.const b) = .ok (con b)) ∧
    (∀ l ts, l ≠ [] → List.Forall₂ (fun e t => walk ref con xr e = .ok t) l ts →
      walk ref con xr (.xorOf l) = .ok (xr ts)) ∧
    (∀ e, wf e = true → ∃ t, walk ref con xr e = .ok t) ∧
    (∀ e, wf e = false → walk ref con xr e = .error (.contractViolation .emptyXor))

/-- R106: the operation WALK, for every renderer: it delivers what the fold by the renderer's callbacks builds and raises on a
tree that is not well formed. The value renderer delivers what BXEVAL delivers and raises what BXEVAL raises. The choice of
renderers is the model's (notes/assumptions/9.md). -/
def Obligations.WalkDeliversWhatTheCallbacksBuild : Prop :=
  (∀ a r, (Instr.walk a r).ordinal = 0x42) ∧
  ∀ (s : State) (a : ExprSrc) (x : BitExpr), readExpr s a = .ok x →
    (wf x = true →
      (∀ style op bare, ∃ t, walk (refText style) conText (xorText op bare) x = .ok t ∧
        exec (.walk a (.text style op bare)) s = .next { s with result := some (.rendered (.text t)) }) ∧
      (∃ n, walk (fun _ _ => 1) (fun _ => 1) List.sum x = .ok n ∧ n = (leaves x).length ∧
        exec (.walk a .leafCount) s = .next { s with result := some (.rendered (.number n)) }) ∧
      (∃ n, walk (fun _ _ => 0) (fun _ => 0) (fun l => 1 + l.foldr max 0) x = .ok n ∧
        exec (.walk a .depth) s = .next { s with result := some (.rendered (.number n)) }) ∧
      (∃ k, walk (fun src i => sourceName src ++ pad i 7) conText List.flatten x = .ok k ∧
        exec (.walk a .sortKey) s = .next { s with result := some (.rendered (.text k)) }) ∧
      (∀ id, ∃ t, walk (Config.envRef id) (Config.envCon id) (Config.envXr id) x = .ok t ∧
        exec (.walk a (.env id)) s = .next { s with result := some (.rendered t) })) ∧
    (∀ crc data : Bits,
      (∀ b, exec (.bxeval a crc data) s = .next { s with result := some (.bit b) } →
        exec (.walk a (.value crc data)) s = .next { s with result := some (.rendered (.bit b)) }) ∧
      (∀ f, exec (.bxeval a crc data) s = .fault f → exec (.walk a (.value crc data)) s = .fault f)) ∧
    (wf x = false → ∀ r, (∀ crc data, r ≠ .value crc data) → exec (.walk a r) s = .fault (.contractViolation .emptyXor)) ∧
    (wf x = false → ∀ crc data, ∃ c, exec (.walk a (.value crc data)) s = .fault (.contractViolation c)) ∧
    (x = .xorOf [] → ∀ r, exec (.walk a r) s = .fault (.contractViolation .emptyXor))

/-- R106: BXEVAL is WALK with the input bits, the constants and parity, and BXKEY is WALK with the key formats and
concatenation: each delivers where the other does, the same value, and raises where the other does, the same error. -/
def Obligations.EvaluationAndKeyAreWalks : Prop :=
  ∀ (s : State) (a : ExprSrc) (x : BitExpr), readExpr s a = .ok x →
    (∀ (crc data : Bits),
      (∀ b, exec (.bxeval a crc data) s = .next { s with result := some (.bit b) } ↔
        exec (.walk a (.value crc data)) s = .next { s with result := some (.rendered (.bit b)) }) ∧
      (∀ f, exec (.bxeval a crc data) s = .fault f ↔ exec (.walk a (.value crc data)) s = .fault f)) ∧
    (∀ k, exec (.bxkey a) s = .next { s with result := some (.key k) } ↔
      exec (.walk a .sortKey) s = .next { s with result := some (.rendered (.text k)) }) ∧
    (∀ f, exec (.bxkey a) s = .fault f ↔ exec (.walk a .sortKey) s = .fault f)

/-- R58: with the style `bracket`, the token `^` and parentheses always written, what the text renderer delivers is the notation of
R58. The other text renderers are the model's choice (notes/assumptions/9.md): the style `call`, the token `xor` and the bare form
are those of vector V-D8; R107 says that operator tokens and text are not in the spec. -/
def Obligations.TextRenderersWriteTheNotation : Prop :=
  ∀ (s : State) (op : OpToken) (bare : Bool),
    (∀ i, ∃ t, IsPadded i 1 t ∧
      exec (.walk (.lit (.input .crc i)) (.text .bracket op bare)) s =
        .next { s with result := some (.rendered (.text (['c', 'r', 'c', '['] ++ t ++ [']']))) } ∧
      exec (.walk (.lit (.input .data i)) (.text .bracket op bare)) s =
        .next { s with result := some (.rendered (.text (['d', 'a', 't', 'a', '['] ++ t ++ [']']))) } ∧
      exec (.walk (.lit (.input .crc i)) (.text .call op bare)) s =
        .next { s with result := some (.rendered (.text (['c', 'r', 'c', '_', 'i', 'n', '('] ++ t ++ [')']))) } ∧
      exec (.walk (.lit (.input .data i)) (.text .call op bare)) s =
        .next { s with result := some (.rendered (.text (['d', 'a', 't', 'a', '_', 'i', 'n', '('] ++ t ++ [')']))) }) ∧
    (∀ style, exec (.walk (.lit (.const false)) (.text style op bare)) s =
        .next { s with result := some (.rendered (.text ['0'])) } ∧
      exec (.walk (.lit (.const true)) (.text style op bare)) s =
        .next { s with result := some (.rendered (.text ['1'])) }) ∧
    (∀ style l ts, l ≠ [] →
      List.Forall₂ (fun e t => exec (.walk (.lit e) (.text style op bare)) s =
        .next { s with result := some (.rendered (.text t)) }) l ts →
      exec (.walk (.lit (.xorOf l)) (.text style op bare)) s =
        .next { s with result := some (.rendered (.text
          ((if bare then [] else ['(']) ++
            List.intercalate (if op = .caret then [' ', '^', ' '] else [' ', 'x', 'o', 'r', ' ']) ts ++
            (if bare then [] else [')'])))) })

/-- R108: CRCSTREAM with no data word delivers `INIT xor XOROUT`; with a first data word it delivers what it delivers on the others
from the register value CRCSTEP delivers on the first, and raises what that CRCSTEP raises; and it completes on every Word well
formed for the widths. -/
def Obligations.StreamAppliesTheStepOncePerWord : Prop :=
  (∀ w a, (Instr.crcstream w a).ordinal = 0x43) ∧
  ∀ (s : State) (w : WordSrc) (x : Word) (W D : Nat) (xorout : BitVec W), readWord s w = .ok x → x.length = W →
    (∀ r y, w = .reg r → s.runOf r = some y → D = y.cfg.D) →
    (∀ init : BitVec W, exec (.crcstream w ⟨W, D, init, [], xorout⟩) s =
      .next { s with result := some (.bits ⟨W, init ^^^ xorout⟩) }) ∧
    (∀ (init v : BitVec W) (d : BitVec D) (ws : List (BitVec D)),
      exec (.crcstep w ⟨W, init⟩ ⟨D, d⟩) s = .next { s with result := some (.bits ⟨W, v⟩) } →
      exec (.crcstream w ⟨W, D, init, d :: ws, xorout⟩) s = exec (.crcstream w ⟨W, D, v, ws, xorout⟩) s) ∧
    (∀ (init : BitVec W) (d : BitVec D) (ws : List (BitVec D)) (f : Fault),
      exec (.crcstep w ⟨W, init⟩ ⟨D, d⟩) s = .fault f → exec (.crcstream w ⟨W, D, init, d :: ws, xorout⟩) s = .fault f) ∧
    ((∀ e ∈ x, wfw W D e = true) → ∀ (init : BitVec W) (ws : List (BitVec D)), ∃ v : BitVec W,
      exec (.crcstream w ⟨W, D, init, ws, xorout⟩) s = .next { s with result := some (.bits ⟨W, v⟩) })

/-- R109: BITREV delivers the value whose bit `i` is bit `n - 1 - i` of its operand, and BITREV of that is the operand. -/
def Obligations.BitReversalReverses : Prop :=
  (∀ v, (Instr.bitrev v).ordinal = 0x44) ∧
  ∀ (s : State) (n : Nat) (v : BitVec n), ∃ u : BitVec n, u = bitrev v ∧
    exec (.bitrev ⟨n, v⟩) s = .next { s with result := some (.bits ⟨n, u⟩) } ∧
    (∀ i, i < n → u.getLsbD i = v.getLsbD (n - 1 - i)) ∧
    exec (.bitrev ⟨n, u⟩) s = .next { s with result := some (.bits ⟨n, v⟩) }

/-- R110, in the general form its last paragraph derives: for all widths, the left reference function is the right one between
bit reversals of every operand and of the result. -/
def Obligations.DirectionsAreMirrorImages : Prop :=
  ∀ (W D : Nat) (crc P : BitVec W) (data : BitVec D), 1 ≤ W → 1 ≤ D →
    crcref crc data P false = bitrev (crcref (bitrev crc) (bitrev data) (bitrev P) true)

/-- R112: the datapath of a generated Word is linear; it maps zeros to zero, and for `W = D` it depends on `crc xor data` only. -/
def Obligations.DatapathIsLinear : Prop :=
  ∀ (s : State) (c : Configuration), validate c = .ok () → ∃ w, GenOutputs (.gen (.lit c)) s w ∧
    ∃ F : BitVec c.W → BitVec c.D → BitVec c.W,
      (∀ crc data, crcstep w crc data = .ok (F crc data)) ∧
      (∀ c1 c2 d1 d2, F (c1 ^^^ c2) (d1 ^^^ d2) = F c1 d1 ^^^ F c2 d2) ∧
      F 0 0 = 0 ∧
      (∀ h : c.W = c.D, ∀ crc data, F crc data = F (crc ^^^ data.cast h.symm) 0)

/-- R113: a wide data word equals a sequence of two narrow ones, in the order the direction gives. -/
def Obligations.WideWordsAreSequencesOfNarrowOnes : Prop :=
  ∀ (W D1 D2 : Nat) (crc P : BitVec W) (data : BitVec (D1 + D2)), 1 ≤ W → 1 ≤ D1 → 1 ≤ D2 →
    crcref crc data P false =
      crcref (crcref crc (data.extractLsb' D2 D1) P false) (data.extractLsb' 0 D2) P false ∧
    crcref crc data P true =
      crcref (crcref crc (data.extractLsb' 0 D1) P true) (data.extractLsb' D1 D2) P true

/-! ### Encodings and numbers -/

/-- Decoding the packed call of any well-formed instruction, whatever bytes follow, gives the instruction back and leaves those
bytes. The packing is the model's own but for ordinals, node tags and flag numbers (notes/assumptions/1.md). -/
def Obligations.DecodeOfEncodeIsTheInstruction : Prop :=
  ∀ (i : Instr) (rest : List Byte), i.wellFormed = true → decode (encode i ++ rest) = .ok (i, rest)

/-- Bytes that decode are the packed call of the instruction they decode to, followed by the bytes left: no instruction has two
packed calls, and only well-formed ones are decoded. -/
def Obligations.EncodeOfDecodeIsTheBytes : Prop :=
  ∀ (bs rest : List Byte) (i : Instr), decode bs = .ok (i, rest) → bs = encode i ++ rest ∧ i.wellFormed = true

/-- A few packed calls written out, in the model's own packing (notes/assumptions/1.md): the ordinal of R56, the node tag of R50
in the two low bits of a node's header and the flag numbers of R47 are the spec's; the header's layout, the number groups and the
operand forms are the model's choice. -/
def Obligations.WordsWrittenOutDecode : Prop :=
  decode [0x00, 0x01, 0x07] = .ok (.mkin .data 7, []) ∧
  decode [0x04, 0x03, 0x2C] = .ok (.bxkey (.lit (.input .data 5)), []) ∧
  decode [0x10, 0x03, 0x0A, 0x00, 0x05] = .ok (.flatten (.lit (.xorOf [.input .crc 0, .const true])), []) ∧
  decode [0x20, 0x01, 0x87, 0x02, 0x08, 0x08, 0x00, 0x07] =
    .ok (.validate (.lit ⟨0x107, 8, 8, false, ⟨true, true, true⟩⟩), []) ∧
  decode [0x31, 0x00, 0x02] = .ok (.wget (.reg .ww) 2, []) ∧
  decode [0x44, 0x08, 0x07] = .ok (.bitrev ⟨8, 0x07⟩, [])

/-- R47, R48, R118: the numbers of the flag sets, and of the error classes and their sub-causes. -/
def Obligations.NumbersOfFlagsAndErrors : Prop :=
  (∀ o : OptFlags, natOfOpt o =
    (if o.flatten then 1 else 0) + (if o.eliminate then 2 else 0) + (if o.lexSort then 4 else 0)) ∧
  (∀ o, natOfOpt o < 8 ∧ optOfNat (natOfOpt o) = o) ∧ (∀ n, n < 8 → natOfOpt (optOfNat n) = n) ∧
  natOfOpt optNone = 0 ∧ natOfOpt optAll = 7 ∧
  (∀ k, classCode (.invalidConfiguration k) = 1) ∧ classCode .unsupportedBackendWidth = 2 ∧
  (∀ k, classCode (.contractViolation k) = 3) ∧
  causeCode (.invalidConfiguration .crcWidth) = some 1 ∧ causeCode (.invalidConfiguration .dataWidth) = some 2 ∧
  causeCode (.invalidConfiguration .polynomial) = some 3 ∧ causeCode (.contractViolation .emptyXor) = some 1 ∧
  causeCode (.contractViolation .indexOutOfRange) = some 2 ∧ causeCode (.contractViolation .reservedTag) = some 3

/-! ### The invariant of the machine -/

/-- R16, R17, R20, R21, R89, R90, R94, R123: every step from every state that meets the invariant of the machine, whatever calls
are pending, leads to a state that meets it. That the invariant speaks of the runs that are over too, and of the middle of a pass, is
due to what the model keeps (notes/assumptions/5.md, notes/assumptions/13.md). -/
def Obligations.InvariantIsKept : Prop :=
  ∀ s t : State, Invariant s → step s = .next t → Invariant t

/-- The invariant holds in the state after reset (whose Configuration is the model's choice, notes/assumptions/3.md). -/
def Obligations.InvariantHoldsAtReset : Prop := Invariant State.reset

/-- R42, R121, R127, R129: runs do not disturb one another, and what a caller was handed does not change. Whatever calls and
Configurations the caller places, from every state that meets the invariant: a step leaves the runs that are over as they are and adds
at most one; a step from a running run leaves it running or done on its own Configuration; however many steps are taken, with no
Configuration supplied for another run, the Word it ends with is the one GEN delivers on that Configuration; and, once no call is
pending, it ends so after the transitions that are left to it. That the runs that are over are kept, that the machine holds one other,
and that calls are taken before its transitions is the model's choice (notes/assumptions/1.md, notes/assumptions/13.md). -/
def Obligations.RunsDoNotDisturbOneAnother : Prop :=
  (∀ s t : State, step s = .next t → t.ended = s.ended ∨ ∃ r, r.status ≠ .running ∧ t.ended = r :: s.ended) ∧
  (∀ s t : State, Invariant s → s.status = .running → step s = .next t →
    t.cfg = s.cfg ∧ t.supply = s.supply ∧ (t.status = .running ∨ t.status = .done)) ∧
  (∀ (n : Nat) (s t : State), Invariant s → s.status = .running → s.supply = [] → Sys2Proof.core.run n s = .next t →
    t.cfg = s.cfg ∧ (t.status = .running ∨
      t.status = .done ∧ ∀ u : State, GenDelivers (.gen (.lit s.cfg)) u s.cfg t.ww)) ∧
  ∀ s : State, Invariant s → s.status = .running → s.calls = [] → ∃ t : State,
    Sys2Proof.core.run (s.cfg.D - s.k + 1) s = .next t ∧ t.status = .done ∧ t.cfg = s.cfg ∧
    ∀ u : State, GenDelivers (.gen (.lit s.cfg)) u s.cfg t.ww
end

