-- ==== Sys2Proof/Laws/State.lean ====
section
/-! SUPPORT. One lemma per field of State per update, and per field of a Run per way it begins or ends, true by rfl, so that no
proof unfolds a record update. Where an update leaves or sets the held run as a whole, one lemma says so of `toRun`. -/

namespace Sys2Proof.Machine

open Sys2Proof

@[simp] theorem State.deliver_toRun (v : Value) (s : State) : (s.deliver v).toRun = s.toRun := rfl

@[simp] theorem State.deliver_result (v : Value) (s : State) : (s.deliver v).result = some v := rfl

@[simp] theorem State.deliver_calls (v : Value) (s : State) : (s.deliver v).calls = s.calls := rfl

@[simp] theorem State.deliver_supply (v : Value) (s : State) : (s.deliver v).supply = s.supply := rfl

@[simp] theorem State.deliver_ended (v : Value) (s : State) : (s.deliver v).ended = s.ended := rfl

@[simp] theorem State.record_toRun (r : Run) (s : State) : (s.record r).toRun = s.toRun := rfl

@[simp] theorem State.record_result (r : Run) (s : State) : (s.record r).result = s.result := rfl

@[simp] theorem State.record_calls (r : Run) (s : State) : (s.record r).calls = s.calls := rfl

@[simp] theorem State.record_supply (r : Run) (s : State) : (s.record r).supply = s.supply := rfl

@[simp] theorem State.record_ended (r : Run) (s : State) : (s.record r).ended = r :: s.ended := rfl

@[simp] theorem State.fail_toRun (e : Error) (s : State) : (s.fail e).toRun = Run.failed s.cfg e := rfl

@[simp] theorem State.fail_result (e : Error) (s : State) : (s.fail e).result = s.result := rfl

@[simp] theorem State.fail_calls (e : Error) (s : State) : (s.fail e).calls = s.calls := rfl

@[simp] theorem State.fail_supply (e : Error) (s : State) : (s.fail e).supply = s.supply := rfl

@[simp] theorem State.fail_ended (e : Error) (s : State) : (s.fail e).ended = Run.failed s.cfg e :: s.ended := rfl

@[simp] theorem State.rebind_cfg (w : Word) (s : State) : (s.rebind w).cfg = s.cfg := rfl

@[simp] theorem State.rebind_inCrc (w : Word) (s : State) : (s.rebind w).inCrc = s.inCrc := rfl

@[simp] theorem State.rebind_inData (w : Word) (s : State) : (s.rebind w).inData = s.inData := rfl

@[simp] theorem State.rebind_k (w : Word) (s : State) : (s.rebind w).k = s.k := rfl

@[simp] theorem State.rebind_ww (w : Word) (s : State) : (s.rebind w).ww = w := rfl

@[simp] theorem State.rebind_stepped (w : Word) (s : State) : (s.rebind w).stepped = s.stepped := rfl

@[simp] theorem State.rebind_status (w : Word) (s : State) : (s.rebind w).status = s.status := rfl

@[simp] theorem State.rebind_result (w : Word) (s : State) : (s.rebind w).result = some (.word w) := rfl

@[simp] theorem State.rebind_calls (w : Word) (s : State) : (s.rebind w).calls = s.calls := rfl

@[simp] theorem State.rebind_supply (w : Word) (s : State) : (s.rebind w).supply = s.supply := rfl

@[simp] theorem State.rebind_ended (w : Word) (s : State) : (s.rebind w).ended = s.ended := rfl

@[simp] theorem State.shift_cfg (w : Word) (s : State) : (s.shift w).cfg = s.cfg := rfl

@[simp] theorem State.shift_inCrc (w : Word) (s : State) : (s.shift w).inCrc = s.inCrc := rfl

@[simp] theorem State.shift_inData (w : Word) (s : State) : (s.shift w).inData = s.inData := rfl

@[simp] theorem State.shift_k (w : Word) (s : State) : (s.shift w).k = s.k := rfl

@[simp] theorem State.shift_ww (w : Word) (s : State) : (s.shift w).ww = w := rfl

@[simp] theorem State.shift_stepped (w : Word) (s : State) : (s.shift w).stepped = true := rfl

@[simp] theorem State.shift_status (w : Word) (s : State) : (s.shift w).status = s.status := rfl

@[simp] theorem State.shift_result (w : Word) (s : State) : (s.shift w).result = some (.word w) := rfl

@[simp] theorem State.shift_calls (w : Word) (s : State) : (s.shift w).calls = s.calls := rfl

@[simp] theorem State.shift_supply (w : Word) (s : State) : (s.shift w).supply = s.supply := rfl

@[simp] theorem State.shift_ended (w : Word) (s : State) : (s.shift w).ended = s.ended := rfl

@[simp] theorem State.advance_cfg (w : Word) (s : State) : (s.advance w).cfg = s.cfg := rfl

@[simp] theorem State.advance_inCrc (w : Word) (s : State) : (s.advance w).inCrc = s.inCrc := rfl

@[simp] theorem State.advance_inData (w : Word) (s : State) : (s.advance w).inData = s.inData := rfl

@[simp] theorem State.advance_k (w : Word) (s : State) : (s.advance w).k = s.k + 1 := rfl

@[simp] theorem State.advance_ww (w : Word) (s : State) : (s.advance w).ww = w := rfl

@[simp] theorem State.advance_stepped (w : Word) (s : State) : (s.advance w).stepped = false := rfl

@[simp] theorem State.advance_status (w : Word) (s : State) : (s.advance w).status = s.status := rfl

@[simp] theorem State.advance_result (w : Word) (s : State) : (s.advance w).result = some (.word w) := rfl

@[simp] theorem State.advance_calls (w : Word) (s : State) : (s.advance w).calls = s.calls := rfl

@[simp] theorem State.advance_supply (w : Word) (s : State) : (s.advance w).supply = s.supply := rfl

@[simp] theorem State.advance_ended (w : Word) (s : State) : (s.advance w).ended = s.ended := rfl

@[simp] theorem State.complete_cfg (w : Word) (s : State) : (s.complete w).cfg = s.cfg := rfl

@[simp] theorem State.complete_inCrc (w : Word) (s : State) : (s.complete w).inCrc = s.inCrc := rfl

@[simp] theorem State.complete_inData (w : Word) (s : State) : (s.complete w).inData = s.inData := rfl

@[simp] theorem State.complete_k (w : Word) (s : State) : (s.complete w).k = s.k := rfl

@[simp] theorem State.complete_ww (w : Word) (s : State) : (s.complete w).ww = w := rfl

@[simp] theorem State.complete_stepped (w : Word) (s : State) : (s.complete w).stepped = s.stepped := rfl

@[simp] theorem State.complete_status (w : Word) (s : State) : (s.complete w).status = .done := rfl

@[simp] theorem State.complete_result (w : Word) (s : State) : (s.complete w).result = some (outputOf w) := rfl

@[simp] theorem State.complete_calls (w : Word) (s : State) : (s.complete w).calls = s.calls := rfl

@[simp] theorem State.complete_supply (w : Word) (s : State) : (s.complete w).supply = s.supply := rfl

@[simp] theorem State.complete_ended (w : Word) (s : State) : (s.complete w).ended = { s.toRun with ww := w, status := .done } :: s.ended := rfl

@[simp] theorem State.placeCalls_toRun (bs : List Byte) (s : State) : (s.placeCalls bs).toRun = s.toRun := rfl

@[simp] theorem State.placeCalls_result (bs : List Byte) (s : State) : (s.placeCalls bs).result = s.result := rfl

@[simp] theorem State.placeCalls_calls (bs : List Byte) (s : State) : (s.placeCalls bs).calls = bs := rfl

@[simp] theorem State.placeCalls_supply (bs : List Byte) (s : State) : (s.placeCalls bs).supply = s.supply := rfl

@[simp] theorem State.placeCalls_ended (bs : List Byte) (s : State) : (s.placeCalls bs).ended = s.ended := rfl

@[simp] theorem State.supplyRun_toRun (c : Configuration) (s : State) : (s.supplyRun c).toRun = s.toRun := rfl

@[simp] theorem State.supplyRun_result (c : Configuration) (s : State) : (s.supplyRun c).result = s.result := rfl

@[simp] theorem State.supplyRun_calls (c : Configuration) (s : State) : (s.supplyRun c).calls = s.calls := rfl

@[simp] theorem State.supplyRun_supply (c : Configuration) (s : State) : (s.supplyRun c).supply = s.supply ++ [c] := rfl

@[simp] theorem State.supplyRun_ended (c : Configuration) (s : State) : (s.supplyRun c).ended = s.ended := rfl

@[simp] theorem State.start_toRun (c : Configuration) : (State.start c).toRun = Run.start c := rfl

@[simp] theorem State.start_result (c : Configuration) : (State.start c).result = none := rfl

@[simp] theorem State.start_calls (c : Configuration) : (State.start c).calls = [] := rfl

@[simp] theorem State.start_supply (c : Configuration) : (State.start c).supply = [] := rfl

@[simp] theorem State.start_ended (c : Configuration) : (State.start c).ended = [] := rfl

@[simp] theorem Run.start_cfg (c : Configuration) : (Run.start c).cfg = c := rfl

@[simp] theorem Run.start_inCrc (c : Configuration) : (Run.start c).inCrc = Run.inputWord .crc c.W := rfl

@[simp] theorem Run.start_inData (c : Configuration) : (Run.start c).inData = Run.inputWord .data c.D := rfl

@[simp] theorem Run.start_k (c : Configuration) : (Run.start c).k = 0 := rfl

@[simp] theorem Run.start_ww (c : Configuration) : (Run.start c).ww = Run.inputWord .crc c.W := rfl

@[simp] theorem Run.start_stepped (c : Configuration) : (Run.start c).stepped = false := rfl

@[simp] theorem Run.start_status (c : Configuration) : (Run.start c).status = .running := rfl

@[simp] theorem Run.failed_cfg (c : Configuration) (e : Error) : (Run.failed c e).cfg = c := rfl

@[simp] theorem Run.failed_inCrc (c : Configuration) (e : Error) : (Run.failed c e).inCrc = [] := rfl

@[simp] theorem Run.failed_inData (c : Configuration) (e : Error) : (Run.failed c e).inData = [] := rfl

@[simp] theorem Run.failed_k (c : Configuration) (e : Error) : (Run.failed c e).k = 0 := rfl

@[simp] theorem Run.failed_ww (c : Configuration) (e : Error) : (Run.failed c e).ww = [] := rfl

@[simp] theorem Run.failed_stepped (c : Configuration) (e : Error) : (Run.failed c e).stepped = false := rfl

@[simp] theorem Run.failed_status (c : Configuration) (e : Error) : (Run.failed c e).status = .failed e := rfl

@[simp] theorem Run.finished_cfg (c : Configuration) (w : Word) : (Run.finished c w).cfg = c := rfl

@[simp] theorem Run.finished_inCrc (c : Configuration) (w : Word) : (Run.finished c w).inCrc = Run.inputWord .crc c.W := rfl

@[simp] theorem Run.finished_inData (c : Configuration) (w : Word) : (Run.finished c w).inData = Run.inputWord .data c.D := rfl

@[simp] theorem Run.finished_k (c : Configuration) (w : Word) : (Run.finished c w).k = c.D := rfl

@[simp] theorem Run.finished_ww (c : Configuration) (w : Word) : (Run.finished c w).ww = w := rfl

@[simp] theorem Run.finished_stepped (c : Configuration) (w : Word) : (Run.finished c w).stepped = false := rfl

@[simp] theorem Run.finished_status (c : Configuration) (w : Word) : (Run.finished c w).status = .done := rfl

@[simp] theorem Run.inputWord_length (s : SourceId) (n : Nat) : (Run.inputWord s n).length = n := by
  simp [Run.inputWord]

theorem Run.inputWord_getElem? (s : SourceId) (n i : Nat) (h : i < n) :
    (Run.inputWord s n)[i]? = some (.input s i) := by
  simp [Run.inputWord, h]

/-- The input words of a run that has started are INWORDS's (R83). -/
theorem inwords_eq (c : Configuration) : inwords c = (Run.inputWord .data c.D, Run.inputWord .crc c.W) := rfl

end Sys2Proof.Machine
end

