-- ==== Sys2Proof/Laws/Ops.lean ====
section
/-! SUPPORT. What each shared operation of Machine/Ops.lean and Machine/Operands.lean can do, said once. -/

namespace Sys2Proof.Machine

open Sys2Proof

@[simp] theorem bind_ok {ε α β : Type} (a : α) (f : α → Except ε β) : (Except.ok a : Except ε α).bind f = f a := rfl

@[simp] theorem bind_error {ε α β : Type} (e : ε) (f : α → Except ε β) :
    (Except.error e : Except ε α).bind f = .error e := rfl

theorem bind_eq_ok {ε α β : Type} {x : Except ε α} {f : α → Except ε β} {b : β} :
    x.bind f = .ok b ↔ ∃ a, x = .ok a ∧ f a = .ok b := by
  cases x <;> simp

@[simp] theorem andThen_ok {α β : Type} (a : α) (f : α → Except Stop β) : andThen (.ok a) f = f a := rfl

@[simp] theorem andThen_error {α β : Type} (p : Stop) (f : α → Except Stop β) :
    andThen (.error p) f = .error p := rfl

@[simp] theorem orRaise_ok {α β : Type} (a : α) (f : α → Except Stop β) : orRaise (.ok a) f = f a := rfl

@[simp] theorem orRaise_error {α β : Type} (e : Error) (f : α → Except Stop β) :
    orRaise (.error e) f = .error (.raised e) := rfl

theorem orRaise_violation {α β : Type} (c : ContractCause) (f : α → Except Stop β) :
    orRaise (violation c) f = .error (.raised (.contractViolation c)) := rfl

@[simp] theorem conclude_ok (v : Value) (s : State) : conclude (.ok v) s = .next (s.deliver v) := rfl

@[simp] theorem conclude_refused (r : Refusal) (s : State) :
    conclude (.error (.refused r)) s = .refused r := rfl

@[simp] theorem conclude_violation (c : ContractCause) (s : State) :
    conclude (.error (.raised (.contractViolation c))) s = .fault (.contractViolation c) := rfl

@[simp] theorem surface_invalid (k : ConfigCause) (s : State) :
    surface (.invalidConfiguration k) s = .next (s.deliver (.failure (.invalidConfiguration k))) := rfl

@[simp] theorem surface_violation (c : ContractCause) (s : State) :
    surface (.contractViolation c) s = .fault (.contractViolation c) := rfl

/-- R123: what raising does: a contract violation is a fault, every other error is surfaced to the caller. -/
theorem surface_cases {e : Error} {s t : State} (h : surface e s = .next t) :
    t = s.deliver (.failure e) ∧ ∀ c, e ≠ .contractViolation c := by
  cases e <;> simp [surface] at h <;> exact ⟨h.symm, by simp⟩

/-- A call that concludes delivers its value or surfaces an error that is no contract violation, and changes nothing else. -/
theorem conclude_cases {x : Except Stop Value} {s t : State} (h : conclude x s = .next t) :
    (∃ v, x = .ok v ∧ t = s.deliver v) ∨ ∃ e, x = .error (.raised e) ∧ t = s.deliver (.failure e) := by
  match x, h with
  | .ok v, h => exact .inl ⟨v, rfl, by simpa using h.symm⟩
  | .error (.raised e), h => exact .inr ⟨e, rfl, (surface_cases h).1⟩
  | .error (.refused _), h => simp [conclude, stop] at h

/-- R97: a read in range answers the element. -/
theorem wget_of_lt {w : Word} {j : Nat} (h : j < w.length) : wget w j = .ok w[j] := by
  simp [wget, h]

/-- R32: a read out of range raises. -/
theorem wget_of_le {w : Word} {j : Nat} (h : w.length ≤ j) : wget w j = violation .indexOutOfRange := by
  simp [wget, h]

theorem wget_eq_ok {w : Word} {j : Nat} {e : BitExpr} : wget w j = .ok e ↔ w[j]? = some e := by
  unfold wget
  cases w[j]? <;> simp [violation]

theorem wget_error {w : Word} {j : Nat} {x : Error} (h : wget w j = .error x) :
    x = .contractViolation .indexOutOfRange := by
  unfold wget at h
  cases hw : w[j]? <;> simp [hw, violation] at h
  exact h.symm

/-- A Word every element of which the operation answers is answered element by element. -/
theorem mapWord_eq_ok {f : BitExpr → Except Error BitExpr} {w v : Word} :
    mapWord f w = .ok v ↔ List.Forall₂ (fun e x => f e = .ok x) w v := by
  induction w generalizing v with
  | nil => cases v <;> simp [mapWord]
  | cons e w ih =>
    simp only [mapWord, bind_eq_ok, List.forall₂_cons_left_iff]
    constructor
    · rintro ⟨x, hx, y, hy, h⟩
      exact ⟨x, y, hx, ih.1 hy, by simpa using h.symm⟩
    · rintro ⟨x, y, hx, hy, rfl⟩
      exact ⟨x, hx, y, ih.2 hy, rfl⟩

/-- When the operation answers every element by a function, so does the Word operation. -/
theorem mapWord_of_ok {f : BitExpr → Except Error BitExpr} {g : BitExpr → BitExpr} {w : Word}
    (h : ∀ e ∈ w, f e = .ok (g e)) : mapWord f w = .ok (w.map g) := by
  induction w with
  | nil => rfl
  | cons e w ih => simp [mapWord, h e (by simp), ih fun x hx => h x (by simp [hx])]

theorem mapWord_length {f : BitExpr → Except Error BitExpr} {w v : Word} (h : mapWord f w = .ok v) :
    v.length = w.length := (mapWord_eq_ok.1 h).length_eq.symm

/-- R10: bit `i` of the number is element `i` of the list. -/
theorem natOfBits_testBit (l : List Bool) (i : Nat) : (natOfBits l).testBit i = l.getD i false := by
  induction l generalizing i with
  | nil => simp [natOfBits]
  | cons b l ih =>
    cases i with
    | zero => cases b <;> simp [natOfBits, Nat.testBit_zero, Nat.add_mod]
    | succ i =>
      have : (b.toNat + 2 * natOfBits l) / 2 = natOfBits l := by have := b.toNat_lt; omega
      simp [natOfBits, Nat.testBit_succ, this, ih]

/-- R10: bit `i` of the vector is element `i` of the list. -/
theorem vecOfBits_getLsbD (n : Nat) (l : List Bool) (i : Nat) :
    (vecOfBits n l).getLsbD i = (decide (i < n) && l.getD i false) := by
  simp [vecOfBits, BitVec.getLsbD_ofNat, natOfBits_testBit]

@[simp] theorem readWord_lit (s : State) (w : Word) : readWord s (.lit w) = .ok w := rfl

@[simp] theorem readExpr_lit (s : State) (e : BitExpr) : readExpr s (.lit e) = .ok e := rfl

/-- R123: the Words of the run the machine holds belong to it when it has not failed. -/
theorem runOf_of_observable {s : State} (h : s.observable = true) {r : WordReg} (hr : r ≠ .out) :
    s.runOf r = some s.toRun := by
  cases r <;> simp_all [State.runOf]

theorem runOf_of_failed {s : State} {e : Error} (h : s.status = .failed e) {r : WordReg} (hr : r ≠ .out) :
    s.runOf r = none := by
  cases r <;> simp_all [State.runOf, State.observable]

/-- A Word of a run is readable exactly when it belongs to one. -/
theorem readReg_of_some {s : State} {r : WordReg} {x : Run} (h : s.runOf r = some x) : readReg s r = .ok (x.wordOf r) := by
  simp [readReg, h]

theorem readReg_of_none {s : State} {r : WordReg} (h : s.runOf r = none) :
    readReg s r = .error (.refused .unobservable) := by
  simp [readReg, h]

/-- R123: a Word of the run the machine holds is readable exactly when the run has not failed. -/
theorem readReg_of_observable {s : State} (h : s.observable = true) {r : WordReg} (hr : r ≠ .out) :
    readReg s r = .ok (s.toRun.wordOf r) := readReg_of_some (runOf_of_observable h hr)

theorem readReg_of_failed {s : State} {e : Error} (h : s.status = .failed e) {r : WordReg} (hr : r ≠ .out) :
    readReg s r = .error (.refused .unobservable) := readReg_of_none (runOf_of_failed h hr)

/-- R42: the Word of the run that ended last, if it ended done, is the one handed to the caller. -/
theorem readReg_out {s : State} {r : Run} {l : List Run} (h : s.ended = r :: l) (hd : r.status = .done) :
    readReg s .out = .ok r.ww := by
  simp [readReg, State.runOf, State.handed, h, Run.isDone, hd, Run.wordOf]

/-- An element of a Word of a run reads as WGET reads it. -/
theorem readExpr_elem {s : State} {r : WordReg} {w : Word} {j : Nat} (h : readReg s r = .ok w)
    (hj : j < w.length) : readExpr s (.elem r j) = .ok w[j] := by
  simp [readExpr, h, wget_of_lt hj]

theorem isRunning_iff {s : State} : s.isRunning = true ↔ s.status = .running := by
  simp [State.isRunning]

end Sys2Proof.Machine
end

