-- ==== Sys2Proof/Laws/BitExpr.lean ====
section
/-! SUPPORT. Laws of the Bit Expression Model: induction over trees, equality, well-formedness, and evaluation. -/

namespace Sys2Proof.Machine

open Sys2Proof

/-- Induction over a tree whose `Xor` case speaks of the operands as a list. -/
theorem BitExpr.induct {motive : BitExpr → Prop} (input : ∀ s i, motive (.input s i)) (const : ∀ b, motive (.const b))
    (xor : ∀ l : ExprList, (∀ e ∈ l.toList, motive e) → motive (.xor l)) (e : BitExpr) : motive e :=
  BitExpr.rec (motive_1 := motive) (motive_2 := fun l => ∀ e ∈ l.toList, motive e) input const xor (by simp)
    (fun _ _ h1 h2 => by simpa using ⟨h1, h2⟩) e

mutual

theorem bxeq_iff (a b : BitExpr) : bxeq a b = true ↔ a = b := by
  match a, b with
  | .input s i, .input s' i' => simp [bxeq]
  | .const x, .const y => simp [bxeq]
  | .xor l, .xor m => simp [bxeq, bxeqAll_iff l m]
  | .input _ _, .const _ => simp [bxeq]
  | .input _ _, .xor _ => simp [bxeq]
  | .const _, .input _ _ => simp [bxeq]
  | .const _, .xor _ => simp [bxeq]
  | .xor _, .input _ _ => simp [bxeq]
  | .xor _, .const _ => simp [bxeq]

theorem bxeqAll_iff (l m : ExprList) : bxeqAll l m = true ↔ l = m := by
  match l, m with
  | .nil, .nil => simp [bxeqAll]
  | .cons a l, .cons b m => simp [bxeqAll, bxeq_iff a b, bxeqAll_iff l m]
  | .nil, .cons _ _ => simp [bxeqAll]
  | .cons _ _, .nil => simp [bxeqAll]

end

/-- R65: BXEQ is equality of trees. -/
theorem bxeq_eq_decide (a b : BitExpr) : bxeq a b = decide (a = b) := by
  rw [Bool.eq_iff_iff]; simp [bxeq_iff]

theorem wfAll_iff (l : ExprList) : wfAll l = true ↔ ∀ e ∈ l.toList, wf e = true := by
  induction l using ExprList.rec (motive_1 := fun _ => True) with
  | input _ _ => trivial
  | const _ => trivial
  | xor _ _ => trivial
  | nil => simp [wfAll]
  | cons e l _ ih => simp [wfAll, ih]

theorem wf_xor_iff (l : ExprList) : wf (.xor l) = true ↔ l.toList ≠ [] ∧ ∀ e ∈ l.toList, wf e = true := by
  cases l <;> simp [wf, wfAll_iff]

theorem wfwAll_iff (W D : Nat) (l : ExprList) : wfwAll W D l = true ↔ ∀ e ∈ l.toList, wfw W D e = true := by
  induction l using ExprList.rec (motive_1 := fun _ => True) with
  | input _ _ => trivial
  | const _ => trivial
  | xor _ _ => trivial
  | nil => simp [wfwAll]
  | cons e l _ ih => simp [wfwAll, ih]

theorem wfw_xor_iff (W D : Nat) (l : ExprList) :
    wfw W D (.xor l) = true ↔ l.toList ≠ [] ∧ ∀ e ∈ l.toList, wfw W D e = true := by
  cases l <;> simp [wfw, wfwAll_iff]

/-- R68: well formed for widths is well formed. -/
theorem wf_of_wfw {W D : Nat} {e : BitExpr} : wfw W D e = true → wf e = true := by
  induction e using BitExpr.induct with
  | input s i => intro _; simp [wf]
  | const b => intro _; simp [wf]
  | xor l ih =>
    rw [wfw_xor_iff, wf_xor_iff]
    exact fun h => ⟨h.1, fun e he => ih e he (h.2 e he)⟩

theorem guardWf_of_wf {α : Type} {e : BitExpr} {x : Except Error α} (h : wf e = true) : guardWf e x = x := by
  simp [guardWf, h]

theorem guardWf_of_not_wf {α : Type} {e : BitExpr} {x : Except Error α} (h : wf e = false) :
    guardWf e x = violation .emptyXor := by
  simp [guardWf, h]

theorem guardAll_of_wf {α : Type} {l : List BitExpr} {x : Except Error α} (h : ∀ e ∈ l, wf e = true) :
    guardAll l x = x := by
  simp only [guardAll, List.all_eq_true.2 h, if_true]

theorem guardAll_of_not_wf {α : Type} {l : List BitExpr} {x : Except Error α} {e : BitExpr} (he : e ∈ l)
    (h : wf e = false) : guardAll l x = violation .emptyXor := by
  have : l.all wf = false := List.all_eq_false.2 ⟨e, he, by simp [h]⟩
  simp [guardAll, this]

/-- R64, R68: MKXOR answers exactly the lists that make a well-formed node. -/
theorem mkxor_eq (l : List BitExpr) : mkxor l = guardWf (.xorOf l) (.ok (.xorOf l)) := by
  cases l with
  | nil => rfl
  | cons e l =>
    cases h : wf (.xorOf (e :: l)) with
    | true =>
      rw [guardWf_of_wf h, mkxor, if_neg (by simp), guardAll_of_wf]
      simpa [wf_xor_iff] using h
    | false =>
      obtain ⟨x, hx, hw⟩ : ∃ x ∈ e :: l, wf x = false := by
        by_contra hn
        push Not at hn
        have : wf (.xorOf (e :: l)) = true := by
          rw [wf_xor_iff]
          exact ⟨by simp, fun x hx => by simpa using hn x (by simpa using hx)⟩
        simp [this] at h
      rw [guardWf_of_not_wf h, mkxor, if_neg (by simp), guardAll_of_not_wf hx hw]

theorem guardWf_eq_ok {α : Type} {e : BitExpr} {x : Except Error α} {a : α} :
    guardWf e x = .ok a ↔ wf e = true ∧ x = .ok a := by
  cases h : wf e <;> simp [guardWf, h, violation]

mutual

/-- The value of a tree that is well formed for the widths (R67); a support function, met only where `wfw` holds. -/
def val {W D : Nat} (crc : BitVec W) (data : BitVec D) : BitExpr → Bool
  | .input .crc i => crc.getLsbD i
  | .input .data i => data.getLsbD i
  | .const b => b
  | .xor l => valAll crc data l

def valAll {W D : Nat} (crc : BitVec W) (data : BitVec D) : ExprList → Bool
  | .nil => false
  | .cons e l => val crc data e ^^ valAll crc data l

end

/-- The sum modulo 2 of the values of a list of nodes. -/
def sumVal {W D : Nat} (crc : BitVec W) (data : BitVec D) : List BitExpr → Bool
  | [] => false
  | e :: l => val crc data e ^^ sumVal crc data l

theorem valAll_eq {W D : Nat} (crc : BitVec W) (data : BitVec D) (l : ExprList) :
    valAll crc data l = sumVal crc data l.toList := by
  induction l using ExprList.rec (motive_1 := fun _ => True) with
  | input _ _ => trivial
  | const _ => trivial
  | xor _ _ => trivial
  | nil => simp [valAll, sumVal]
  | cons e l _ ih => simp [valAll, sumVal, ih]

@[simp] theorem val_xorOf {W D : Nat} (crc : BitVec W) (data : BitVec D) (l : List BitExpr) :
    val crc data (.xorOf l) = sumVal crc data l := by
  simp [val, valAll_eq]

@[simp] theorem sumVal_append {W D : Nat} (crc : BitVec W) (data : BitVec D) (l m : List BitExpr) :
    sumVal crc data (l ++ m) = (sumVal crc data l ^^ sumVal crc data m) := by
  induction l with
  | nil => simp [sumVal]
  | cons e l ih => simp [sumVal, ih]

/-- R81: the sum does not depend on the order. -/
theorem sumVal_perm {W D : Nat} (crc : BitVec W) (data : BitVec D) {l m : List BitExpr} (h : l.Perm m) :
    sumVal crc data l = sumVal crc data m := by
  induction h with
  | nil => rfl
  | cons _ _ ih => simp [sumVal, ih]
  | swap _ _ _ => simp only [sumVal, Bool.xor_left_comm]
  | trans _ _ ih1 ih2 => exact ih1.trans ih2

mutual

/-- R67: on a tree well formed for the widths BXEVAL answers the value. -/
theorem bxeval_of_wfw {W D : Nat} (crc : BitVec W) (data : BitVec D) (e : BitExpr) (h : wfw W D e = true) :
    bxeval crc data e = .ok (val crc data e) := by
  match e, h with
  | .input .crc i, h => simp [wfw] at h; simp [bxeval, inputBit, val, h]
  | .input .data i, h => simp [wfw] at h; simp [bxeval, inputBit, val, h]
  | .const b, _ => simp [bxeval, val]
  | .xor .nil, h => simp [wfw] at h
  | .xor (.cons e l), h =>
    simp [wfw] at h
    simp [bxeval, bxeval_of_wfw crc data e h.1, bxevalAll_of_wfw crc data l h.2, val, valAll]

theorem bxevalAll_of_wfw {W D : Nat} (crc : BitVec W) (data : BitVec D) (l : ExprList)
    (h : wfwAll W D l = true) : bxevalAll crc data l = .ok (valAll crc data l) := by
  match l, h with
  | .nil, _ => simp [bxevalAll, valAll]
  | .cons e l, h =>
    simp [wfwAll] at h
    simp [bxevalAll, bxeval_of_wfw crc data e h.1, bxevalAll_of_wfw crc data l h.2, valAll]

end

mutual

/-- R67: BXEVAL answers only on a tree that is well formed for the widths. -/
theorem wfw_of_bxeval {W D : Nat} (crc : BitVec W) (data : BitVec D) (e : BitExpr) (b : Bool)
    (h : bxeval crc data e = .ok b) : wfw W D e = true := by
  match e, h with
  | .input .crc i, h => by_contra hc; simp [wfw] at hc; simp [bxeval, inputBit, Nat.not_lt.2 hc, violation] at h
  | .input .data i, h => by_contra hc; simp [wfw] at hc; simp [bxeval, inputBit, Nat.not_lt.2 hc, violation] at h
  | .const b, _ => simp [wfw]
  | .xor .nil, h => simp [bxeval, violation] at h
  | .xor (.cons e l), h =>
    obtain ⟨x, hx, h⟩ := bind_eq_ok.1 (by simpa only [bxeval] using h)
    obtain ⟨y, hy, -⟩ := bind_eq_ok.1 h
    simp [wfw, wfw_of_bxeval crc data e x hx, wfwAll_of_bxevalAll crc data l y hy]

theorem wfwAll_of_bxevalAll {W D : Nat} (crc : BitVec W) (data : BitVec D) (l : ExprList) (b : Bool)
    (h : bxevalAll crc data l = .ok b) : wfwAll W D l = true := by
  match l, h with
  | .nil, _ => simp [wfwAll]
  | .cons e l, h =>
    obtain ⟨x, hx, h⟩ := bind_eq_ok.1 (by simpa only [bxevalAll] using h)
    obtain ⟨y, hy, -⟩ := bind_eq_ok.1 h
    simp [wfwAll, wfw_of_bxeval crc data e x hx, wfwAll_of_bxevalAll crc data l y hy]

end

theorem inputBit_error {W D : Nat} {crc : BitVec W} {data : BitVec D} {s : SourceId} {i : Nat} {x : Error}
    (h : inputBit crc data s i = .error x) : x = .contractViolation .indexOutOfRange := by
  cases s <;> simp only [inputBit] at h <;> split at h <;> simp [violation] at h <;> exact h.symm

mutual

/-- R67, R122: what BXEVAL raises: a contract violation, and `EmptyXor` only where an `Xor` is empty. -/
theorem bxeval_error {W D : Nat} (crc : BitVec W) (data : BitVec D) (e : BitExpr) (x : Error)
    (h : bxeval crc data e = .error x) :
    x = .contractViolation .indexOutOfRange ∨ x = .contractViolation .emptyXor ∧ wf e = false := by
  match e, h with
  | .input s i, h => exact .inl (inputBit_error (by simpa only [bxeval] using h))
  | .const b, h => simp [bxeval] at h
  | .xor .nil, h => simp [bxeval, violation] at h; exact .inr ⟨h.symm, rfl⟩
  | .xor (.cons e l), h =>
    simp only [bxeval] at h
    cases he : bxeval crc data e with
    | error y =>
      simp [he] at h
      rcases h ▸ bxeval_error crc data e y he with h1 | ⟨h1, h2⟩
      · exact .inl h1
      · exact .inr ⟨h1, by simp [wf, h2]⟩
    | ok a =>
      simp [he] at h
      cases hl : bxevalAll crc data l with
      | error y =>
        simp [hl] at h
        rcases h ▸ bxevalAll_error crc data l y hl with h1 | ⟨h1, h2⟩
        · exact .inl h1
        · exact .inr ⟨h1, by simp [wf, h2]⟩
      | ok b => simp [hl] at h

theorem bxevalAll_error {W D : Nat} (crc : BitVec W) (data : BitVec D) (l : ExprList) (x : Error)
    (h : bxevalAll crc data l = .error x) :
    x = .contractViolation .indexOutOfRange ∨ x = .contractViolation .emptyXor ∧ wfAll l = false := by
  match l, h with
  | .nil, h => simp [bxevalAll] at h
  | .cons e l, h =>
    simp only [bxevalAll] at h
    cases he : bxeval crc data e with
    | error y =>
      simp [he] at h
      rcases h ▸ bxeval_error crc data e y he with h1 | ⟨h1, h2⟩
      · exact .inl h1
      · exact .inr ⟨h1, by simp [wfAll, h2]⟩
    | ok a =>
      simp [he] at h
      cases hl : bxevalAll crc data l with
      | error y =>
        simp [hl] at h
        rcases h ▸ bxevalAll_error crc data l y hl with h1 | ⟨h1, h2⟩
        · exact .inl h1
        · exact .inr ⟨h1, by simp [wfAll, h2]⟩
      | ok b => simp [hl] at h

end

/-! ### WALK -/

mutual

/-- What WALK builds of a well-formed tree (R106); a support function, met only where `wf` holds. -/
def walkNode {T : Type} (ref : SourceId → Nat → T) (con : Bool → T) (xr : List T → T) : BitExpr → T
  | .input s i => ref s i
  | .const b => con b
  | .xor l => xr (walkNodes ref con xr l)

def walkNodes {T : Type} (ref : SourceId → Nat → T) (con : Bool → T) (xr : List T → T) : ExprList → List T
  | .nil => []
  | .cons e l => walkNode ref con xr e :: walkNodes ref con xr l

end

mutual

/-- R106: WALK answers every well-formed tree and raises on every other. -/
theorem walk_eq {T : Type} (ref : SourceId → Nat → T) (con : Bool → T) (xr : List T → T) (e : BitExpr) :
    walk ref con xr e = guardWf e (.ok (walkNode ref con xr e)) := by
  match e with
  | .input s i => rfl
  | .const b => rfl
  | .xor .nil => rfl
  | .xor (.cons e l) =>
    have h1 : walkThrough (fun s i => .ok (ref s i)) con xr e = _ := walk_eq ref con xr e
    have h2 := walkAll_eq ref con xr l
    rw [walk, walkThrough, h1, h2]
    cases h : wf e <;> cases h' : wfAll l <;> simp [guardWf, wf, h, h', violation, walkNode, walkNodes]

theorem walkAll_eq {T : Type} (ref : SourceId → Nat → T) (con : Bool → T) (xr : List T → T) (l : ExprList) :
    walkThroughAll (fun s i => .ok (ref s i)) con xr l =
      if wfAll l then .ok (walkNodes ref con xr l) else violation .emptyXor := by
  match l with
  | .nil => rfl
  | .cons e l =>
    have h1 : walkThrough (fun s i => .ok (ref s i)) con xr e = _ := walk_eq ref con xr e
    have h2 := walkAll_eq ref con xr l
    rw [walkThroughAll, h1, h2]
    cases h : wf e <;> cases h' : wfAll l <;> simp [guardWf, wfAll, h, h', violation, walkNodes]

end

/-- R106: WALK answers every well-formed tree. -/
theorem walk_of_wf {T : Type} (ref : SourceId → Nat → T) (con : Bool → T) (xr : List T → T) {e : BitExpr}
    (h : wf e = true) : walk ref con xr e = .ok (walkNode ref con xr e) := by rw [walk_eq, guardWf_of_wf h]

/-- R106: WALK raises on a tree that is not well formed. -/
theorem walk_of_not_wf {T : Type} (ref : SourceId → Nat → T) (con : Bool → T) (xr : List T → T) {e : BitExpr}
    (h : wf e = false) : walk ref con xr e = violation .emptyXor := by rw [walk_eq, guardWf_of_not_wf h]

/-- R106: the callback for an `Xor` receives the results of its operands, in order. -/
theorem walkNode_xor {T : Type} (ref : SourceId → Nat → T) (con : Bool → T) (xr : List T → T) (l : ExprList) :
    walkNode ref con xr (.xor l) = xr (l.toList.map (walkNode ref con xr)) := by
  rw [walkNode]
  congr 1
  induction l using ExprList.rec (motive_1 := fun _ => True) with
  | input _ _ => trivial
  | const _ => trivial
  | xor _ _ => trivial
  | nil => simp [walkNodes]
  | cons e l _ ih => simp [walkNodes, ih]

mutual

/-- R106: BXEVAL is the fold by the input bits, the constants and parity, on every tree and with every error. -/
theorem walkThrough_value {W D : Nat} (crc : BitVec W) (data : BitVec D) (e : BitExpr) :
    walkThrough (inputBit crc data) id parity e = bxeval crc data e := by
  match e with
  | .input s i => rfl
  | .const b => rfl
  | .xor .nil => rfl
  | .xor (.cons e l) =>
    have h2 := walkThroughAll_value crc data l
    rw [walkThrough, bxeval, walkThrough_value crc data e, ← h2]
    cases bxeval crc data e <;> simp
    cases walkThroughAll (inputBit crc data) id parity l <;> simp [parity]

theorem walkThroughAll_value {W D : Nat} (crc : BitVec W) (data : BitVec D) (l : ExprList) :
    ((walkThroughAll (inputBit crc data) id parity l).bind fun ts => .ok (parity ts)) = bxevalAll crc data l := by
  match l with
  | .nil => rfl
  | .cons e l =>
    have h2 := walkThroughAll_value crc data l
    rw [walkThroughAll, bxevalAll, walkThrough_value crc data e, ← h2]
    cases bxeval crc data e <;> simp
    cases walkThroughAll (inputBit crc data) id parity l <;> simp [parity]

end

end Sys2Proof.Machine
end

