-- ==== Sys2Proof/Laws/Codec.lean ====
section
/-! SUPPORT. The reader of each packed operand gives back what its writer wrote, and leaves the bytes after it. -/

namespace Sys2Proof

@[simp] theorem Decoded.andThen_ok {α β : Type} (a : α) (r : List Byte) (f : α → List Byte → Decoded β) :
    Decoded.andThen (.ok (a, r)) f = f a r := rfl

@[simp] theorem Decoded.andThen_error {α β : Type} (e : DecodeError) (f : α → List Byte → Decoded β) :
    Decoded.andThen (.error e) f = .error e := rfl

theorem decodeNat_encodeGroups (fuel n : Nat) (h : n < 2 ^ (fuel + 1)) (r : List Byte) :
    decodeNat (encodeGroups fuel n ++ r) = .ok (n, r) := by
  induction fuel generalizing n with
  | zero =>
    have : n < 256 := by omega
    simp [encodeGroups, decodeNat, Nat.mod_eq_of_lt this]
    omega
  | succ fuel ih =>
    unfold encodeGroups
    split
    · next h1 =>
      have : n < 256 := by omega
      simp [decodeNat, Nat.mod_eq_of_lt this, h1]
    · next h1 =>
      have hlt : n / 128 < 2 ^ (fuel + 1) := by
        rw [Nat.div_lt_iff_lt_mul (by omega)]
        have := Nat.two_pow_pos (fuel + 1)
        rw [Nat.pow_succ] at h
        omega
      have hb : (BitVec.ofNat 8 (128 + n % 128)).toNat = 128 + n % 128 := by
        rw [BitVec.toNat_ofNat, Nat.mod_eq_of_lt (by omega)]
      rw [List.cons_append, decodeNat, hb, if_neg (by omega), ih _ hlt]
      simp only
      rw [if_neg (by omega)]
      simp only [Except.ok.injEq, Prod.mk.injEq, and_true]
      omega

theorem decodeNat_encodeNat (n : Nat) (r : List Byte) : decodeNat (encodeNat n ++ r) = .ok (n, r) :=
  decodeNat_encodeGroups _ _ Nat.lt_log2_self r

theorem encodeGroups_pos (fuel n : Nat) : 1 ≤ (encodeGroups fuel n).length := by
  cases fuel with
  | zero => simp [encodeGroups]
  | succ fuel => unfold encodeGroups; split <;> simp

theorem decodeBool_encodeBool (b : Bool) (r : List Byte) : decodeBool (encodeBool b ++ r) = .ok (b, r) := by
  cases b <;> simp [decodeBool, encodeBool, decodeNat_encodeNat]

theorem decodeSource_encodeSource (s : SourceId) (r : List Byte) :
    decodeSource (encodeSource s ++ r) = .ok (s, r) := by
  cases s <;> simp [decodeSource, encodeSource, decodeNat_encodeNat, sourceOfNat]

theorem decodeMany_encodeMany {α : Type} {p : List Byte → Decoded α} {f : α → List Byte} {l : List α}
    (h : ∀ a ∈ l, ∀ r, p (f a ++ r) = .ok (a, r)) (r : List Byte) :
    decodeMany p l.length (encodeMany f l ++ r) = .ok (l, r) := by
  induction l with
  | nil => rfl
  | cons a l ih =>
    rw [List.length_cons, encodeMany, List.append_assoc, decodeMany, h a (by simp)]
    simp only
    rw [ih fun x hx => h x (by simp [hx])]

theorem decodeList_encodeList {α : Type} {p : List Byte → Decoded α} {f : α → List Byte} {l : List α}
    (h : ∀ a ∈ l, ∀ r, p (f a ++ r) = .ok (a, r)) (r : List Byte) :
    decodeList p (encodeList f l ++ r) = .ok (l, r) := by
  simp [decodeList, encodeList, decodeNat_encodeNat, decodeMany_encodeMany h]

theorem encodeExprs_eq (l : ExprList) : encodeExprs l = encodeMany encodeExpr l.toList := by
  induction l using ExprList.rec (motive_1 := fun _ => True) with
  | input _ _ => trivial
  | const _ => trivial
  | xor _ _ => trivial
  | nil => rfl
  | cons e l _ ih => simp [encodeExprs, encodeMany, ih]

theorem length_le_encodeMany {α : Type} (f : α → List Byte) {l : List α} {a : α} (h : a ∈ l) :
    (f a).length ≤ (encodeMany f l).length := by
  induction l with
  | nil => simp at h
  | cons b l ih =>
    simp only [encodeMany, List.length_append]
    rcases List.mem_cons.1 h with rfl | h
    · omega
    · have := ih h; omega

/-- R50: a node is read back when the bound on the nesting is at least its number of bytes. -/
theorem decodeNode_encodeExpr (e : BitExpr) :
    ∀ fuel, (encodeExpr e).length ≤ fuel → ∀ r, decodeNode fuel (encodeExpr e ++ r) = .ok (e, r) := by
  induction e using Machine.BitExpr.induct with
  | input s i =>
    intro fuel hf r
    obtain ⟨m, rfl⟩ : ∃ m, fuel = m + 1 := ⟨fuel - 1, by
      have := encodeGroups_pos (4 * (2 * i + natOfSource s)).log2 (4 * (2 * i + natOfSource s))
      rw [encodeExpr, encodeNat] at hf; omega⟩
    rw [encodeExpr, decodeNode, decodeNat_encodeNat]
    simp only [Nat.mul_mod_right, if_true]
    cases s
    · have h1 : 4 * (2 * i + natOfSource .crc) / 4 % 2 = 0 := by simp [natOfSource]
      have h2 : 4 * (2 * i + natOfSource .crc) / 4 / 2 = i := by simp [natOfSource]
      rw [h1, h2]; rfl
    · have h1 : 4 * (2 * i + natOfSource .data) / 4 % 2 = 1 := by simp [natOfSource]
      have h2 : 4 * (2 * i + natOfSource .data) / 4 / 2 = i := by simp [natOfSource]; omega
      rw [h1, h2]; rfl
  | const b =>
    intro fuel hf r
    obtain ⟨m, rfl⟩ : ∃ m, fuel = m + 1 := ⟨fuel - 1, by
      have := encodeGroups_pos (4 * b.toNat + 1).log2 (4 * b.toNat + 1)
      rw [encodeExpr, encodeNat] at hf; omega⟩
    rw [encodeExpr, decodeNode, decodeNat_encodeNat]
    cases b <;> simp
  | xor l ih =>
    intro fuel hf r
    have hp := encodeGroups_pos (4 * l.toList.length + 2).log2 (4 * l.toList.length + 2)
    simp only [encodeExpr, List.length_append] at hf
    obtain ⟨m, rfl⟩ : ∃ m, fuel = m + 1 := ⟨fuel - 1, by rw [encodeNat] at hf; omega⟩
    rw [encodeExpr, List.append_assoc, decodeNode, decodeNat_encodeNat]
    have h0 : (4 * l.toList.length + 2) % 4 = 2 := by omega
    have h1 : (4 * l.toList.length + 2) / 4 = l.toList.length := by omega
    simp only [h0, h1]
    rw [if_neg (by omega), if_neg (by omega), if_pos trivial, encodeExprs_eq, decodeMany_encodeMany]
    · simp [BitExpr.xorOf]
    · intro e he
      refine ih e he m ?_
      have := length_le_encodeMany encodeExpr he
      rw [encodeExprs_eq, encodeNat] at hf
      omega

theorem decodeExpr_encodeExpr (e : BitExpr) (r : List Byte) : decodeExpr (encodeExpr e ++ r) = .ok (e, r) :=
  decodeNode_encodeExpr e _ (by simp; omega) r

theorem decodeVec_encodeVec {width : Nat} (v : BitVec width) (r : List Byte) :
    decodeVec width (encodeVec v ++ r) = .ok (v, r) := by
  simp [decodeVec, encodeVec, decodeNat_encodeNat, v.isLt]

theorem decodeBits_encodeBits (v : Bits) (r : List Byte) : decodeBits (encodeBits v ++ r) = .ok (v, r) := by
  simp [decodeBits, encodeBits, decodeNat_encodeNat, decodeVec_encodeVec]

theorem decodePort_encodePort {v : Bits} (h : 1 ≤ v.width) (r : List Byte) :
    decodePort (encodePort v ++ r) = .ok (v, r) := by
  obtain ⟨w, v⟩ := v
  obtain ⟨w, rfl⟩ : ∃ n, w = n + 1 := ⟨w - 1, by simp at h; omega⟩
  simp [decodePort, encodePort, decodeNat_encodeNat, decodeVec_encodeVec]

theorem optOfNat_natOfOpt (o : OptFlags) : optOfNat (natOfOpt o) = o := by
  obtain ⟨a, b, c⟩ := o
  cases a <;> cases b <;> cases c <;> rfl

theorem natOfOpt_lt (o : OptFlags) : natOfOpt o < 8 := by
  obtain ⟨a, b, c⟩ := o
  cases a <;> cases b <;> cases c <;> decide

theorem regOfNat_natOfReg (x : WordReg) : regOfNat (natOfReg x) = x := by cases x <;> rfl

theorem natOfReg_ne (x : WordReg) : natOfReg x ≠ 3 := by cases x <;> decide

theorem natOfReg_lt (x : WordReg) : natOfReg x < 5 := by cases x <;> decide

theorem decodeWordSrc_encodeWordSrc (w : WordSrc) (r : List Byte) :
    decodeWordSrc (encodeWordSrc w ++ r) = .ok (w, r) := by
  cases w with
  | reg x => simp [decodeWordSrc, encodeWordSrc, decodeNat_encodeNat, natOfReg_ne, natOfReg_lt, regOfNat_natOfReg]
  | lit w =>
    simp [decodeWordSrc, encodeWordSrc, decodeNat_encodeNat,
      decodeList_encodeList fun e _ r => decodeExpr_encodeExpr e r]

theorem decodeExprSrc_encodeExprSrc (e : ExprSrc) (r : List Byte) :
    decodeExprSrc (encodeExprSrc e ++ r) = .ok (e, r) := by
  cases e with
  | elem x j => simp [decodeExprSrc, encodeExprSrc, decodeNat_encodeNat, natOfReg_ne, natOfReg_lt, regOfNat_natOfReg]
  | lit e => simp [decodeExprSrc, encodeExprSrc, decodeNat_encodeNat, decodeExpr_encodeExpr]

theorem decodePolySrc_encodePolySrc (p : PolySrc) (r : List Byte) :
    decodePolySrc (encodePolySrc p ++ r) = .ok (p, r) := by
  cases p <;> simp [decodePolySrc, encodePolySrc, decodeNat_encodeNat]

theorem decodeOptSrc_encodeOptSrc (o : OptSrc) (r : List Byte) :
    decodeOptSrc (encodeOptSrc o ++ r) = .ok (o, r) := by
  cases o with
  | cfg => simp [decodeOptSrc, encodeOptSrc, decodeNat_encodeNat]
  | lit o =>
    have := natOfOpt_lt o
    simp [decodeOptSrc, encodeOptSrc, decodeNat_encodeNat, optOfNat_natOfOpt, this]

theorem decodeCfg_encodeCfg (c : Configuration) (r : List Byte) : decodeCfg (encodeCfg c ++ r) = .ok (c, r) := by
  simp [decodeCfg, encodeCfg, decodeNat_encodeNat, decodeBool_encodeBool, natOfOpt_lt, optOfNat_natOfOpt]

theorem decodeCfgSrc_encodeCfgSrc (c : CfgSrc) (r : List Byte) :
    decodeCfgSrc (encodeCfgSrc c ++ r) = .ok (c, r) := by
  cases c <;> simp [decodeCfgSrc, encodeCfgSrc, decodeBool_encodeBool, decodeCfg_encodeCfg]

theorem decodeStepArgs_encodeStepArgs (a : StepArgs) (r : List Byte) :
    decodeStepArgs (encodeStepArgs a ++ r) = .ok (a, r) := by
  cases a <;> simp [decodeStepArgs, encodeStepArgs, decodeBool_encodeBool, decodeWordSrc_encodeWordSrc,
    decodeExprSrc_encodeExprSrc, decodePolySrc_encodePolySrc]

theorem decodeFlatArgs_encodeFlatArgs (a : FlatArgs) (r : List Byte) :
    decodeFlatArgs (encodeFlatArgs a ++ r) = .ok (a, r) := by
  cases a <;> simp [decodeFlatArgs, encodeFlatArgs, decodeBool_encodeBool, decodeWordSrc_encodeWordSrc]

theorem decodeSimpArgs_encodeSimpArgs (a : SimpArgs) (r : List Byte) :
    decodeSimpArgs (encodeSimpArgs a ++ r) = .ok (a, r) := by
  cases a <;> simp [decodeSimpArgs, encodeSimpArgs, decodeBool_encodeBool, decodeWordSrc_encodeWordSrc,
    decodeOptSrc_encodeOptSrc]

theorem decodeRefArgs_encodeRefArgs {a : RefArgs} (hW : 1 ≤ a.W) (hD : 1 ≤ a.D) (r : List Byte) :
    decodeRefArgs (encodeRefArgs a ++ r) = .ok (a, r) := by
  obtain ⟨W, D, crc, data, poly, right⟩ := a
  obtain ⟨W, rfl⟩ : ∃ n, W = n + 1 := ⟨W - 1, by simp at hW; omega⟩
  obtain ⟨D, rfl⟩ : ∃ n, D = n + 1 := ⟨D - 1, by simp at hD; omega⟩
  simp [decodeRefArgs, encodeRefArgs, decodeNat_encodeNat, decodeVec_encodeVec, decodeBool_encodeBool]

theorem decodeStreamArgs_encodeStreamArgs {a : StreamArgs} (hW : 1 ≤ a.W) (hD : 1 ≤ a.D) (r : List Byte) :
    decodeStreamArgs (encodeStreamArgs a ++ r) = .ok (a, r) := by
  obtain ⟨W, D, init, ws, xorout⟩ := a
  obtain ⟨W, rfl⟩ : ∃ n, W = n + 1 := ⟨W - 1, by simp at hW; omega⟩
  obtain ⟨D, rfl⟩ : ∃ n, D = n + 1 := ⟨D - 1, by simp at hD; omega⟩
  simp [decodeStreamArgs, encodeStreamArgs, decodeNat_encodeNat, decodeVec_encodeVec,
    decodeList_encodeList (l := ws) fun v _ r => decodeVec_encodeVec v r]

theorem decodeRenderer_encodeRenderer {x : Renderer} (h : x.legal = true) (r : List Byte) :
    decodeRenderer (encodeRenderer x ++ r) = .ok (x, r) := by
  cases x with
  | text style op bare =>
    cases style <;> cases op <;> simp [decodeRenderer, encodeRenderer, decodeNat_encodeNat, decodeBool_encodeBool]
  | leafCount => simp [decodeRenderer, encodeRenderer, decodeNat_encodeNat]
  | depth => simp [decodeRenderer, encodeRenderer, decodeNat_encodeNat]
  | value crc data =>
    simp [Renderer.legal, widthsLegal] at h
    simp [decodeRenderer, encodeRenderer, decodeNat_encodeNat, decodePort_encodePort h.1, decodePort_encodePort h.2]
  | sortKey => simp [decodeRenderer, encodeRenderer, decodeNat_encodeNat]
  | env id => simp [decodeRenderer, encodeRenderer, decodeNat_encodeNat]

end Sys2Proof
end

