-- ==== Sys2Proof/Laws/Errors.lean ====
section
/-! SUPPORT. What each operation can raise (spec/60_exceptions.md R120): every operation but VALIDATE and GEN raises contract
violations only, so that it never ends a run. -/

namespace Sys2Proof.Machine

open Sys2Proof

/-- The computation raises nothing but contract violations. -/
def OnlyViolations {α : Type} (x : Except Error α) : Prop := ∀ e, x = .error e → ∃ c, e = .contractViolation c

theorem OnlyViolations.ok {α : Type} (a : α) : OnlyViolations (.ok a) := fun _ h => by cases h

theorem OnlyViolations.violation {α : Type} (c : ContractCause) : OnlyViolations (α := α) (violation c) :=
  fun _ h => ⟨c, by cases h; rfl⟩

theorem OnlyViolations.bind {α β : Type} {x : Except Error α} {f : α → Except Error β} (hx : OnlyViolations x)
    (hf : ∀ a, OnlyViolations (f a)) : OnlyViolations (x.bind f) := by
  intro e h
  cases x with
  | ok a => exact hf a e h
  | error y => exact hx e (by simpa using h)

theorem OnlyViolations.guardWf {α : Type} (e : BitExpr) {x : Except Error α} (hx : OnlyViolations x) :
    OnlyViolations (guardWf e x) := by
  unfold Machine.guardWf
  split
  exacts [hx, .violation _]

theorem OnlyViolations.guardAll {α : Type} (l : List BitExpr) {x : Except Error α} (hx : OnlyViolations x) :
    OnlyViolations (guardAll l x) := by
  unfold Machine.guardAll
  split
  exacts [hx, .violation _]

theorem OnlyViolations.mapWord {f : BitExpr → Except Error BitExpr} (hf : ∀ e, OnlyViolations (f e)) (w : Word) :
    OnlyViolations (mapWord f w) := by
  induction w with
  | nil => exact .ok _
  | cons e w ih => exact (hf e).bind fun _ => ih.bind fun _ => .ok _

theorem onlyViolations_wget (w : Word) (j : Nat) : OnlyViolations (wget w j) := fun _ h => ⟨_, wget_error h⟩

theorem onlyViolations_mkxor (l : List BitExpr) : OnlyViolations (mkxor l) := by
  rw [mkxor_eq]
  exact .guardWf _ (.ok _)

theorem onlyViolations_bxeqChecked (a b : BitExpr) : OnlyViolations (bxeqChecked a b) := .guardAll _ (.ok _)

theorem onlyViolations_bxkey (e : BitExpr) : OnlyViolations (bxkey e) := .guardWf e (.ok _)

theorem onlyViolations_bxeval {W D : Nat} (crc : BitVec W) (data : BitVec D) (e : BitExpr) :
    OnlyViolations (bxeval crc data e) := by
  intro x h
  rcases bxeval_error crc data e x h with h | ⟨h, -⟩
  exacts [⟨_, h⟩, ⟨_, h⟩]

theorem onlyViolations_flatten (e : BitExpr) : OnlyViolations (flatten e) := .guardWf e (.ok _)

theorem onlyViolations_elim (e : BitExpr) : OnlyViolations (elim e) := .guardWf e (.ok _)

theorem onlyViolations_lexsort (e : BitExpr) : OnlyViolations (lexsort e) := .guardWf e (.ok _)

theorem onlyViolations_simplify (e : BitExpr) (opt : OptFlags) (sortLex : Bool) :
    OnlyViolations (simplify e opt sortLex) := by
  refine .guardWf e (.bind ?_ fun a => .bind ?_ fun b => ?_) <;> split
  exacts [onlyViolations_flatten e, .ok _, onlyViolations_elim a, .ok _, onlyViolations_lexsort b, .ok _]

theorem onlyViolations_wflat (w : Word) : OnlyViolations (wflat w) := .mapWord onlyViolations_flatten w

theorem onlyViolations_wsimp (w : Word) (opt : OptFlags) (sortLex : Bool) : OnlyViolations (wsimp w opt sortLex) :=
  .mapWord (fun e => onlyViolations_simplify e opt sortLex) w

theorem onlyViolations_stepl (w : Word) (d : BitExpr) (P : Nat) : OnlyViolations (stepl w d P) :=
  .guardAll _ ((onlyViolations_wget _ _).bind fun _ => .ok _)

theorem onlyViolations_stepr (w : Word) (d : BitExpr) (P : Nat) : OnlyViolations (stepr w d P) :=
  .guardAll _ ((onlyViolations_wget _ _).bind fun _ => .ok _)

theorem onlyViolations_stepWord (right : Bool) (w : Word) (d : BitExpr) (P : Nat) :
    OnlyViolations (stepWord right w d P) := by
  unfold stepWord
  split
  exacts [onlyViolations_stepr w d P, onlyViolations_stepl w d P]

theorem onlyViolations_loopBody (c : Configuration) (inData : Word) (k : Nat) (w : Word) :
    OnlyViolations (loopBody c inData k w) :=
  (onlyViolations_wget _ _).bind fun _ => (onlyViolations_stepWord _ _ _ _).bind fun _ => onlyViolations_wsimp _ _ _

theorem onlyViolations_evalWord {W D : Nat} (crc : BitVec W) (data : BitVec D) (w : Word) :
    OnlyViolations (evalWord crc data w) := by
  induction w with
  | nil => exact .ok _
  | cons e w ih => exact (onlyViolations_bxeval crc data e).bind fun _ => ih.bind fun _ => .ok _

theorem onlyViolations_crcstep {W D : Nat} (w : Word) (crc : BitVec W) (data : BitVec D) :
    OnlyViolations (crcstep w crc data) := by
  refine (onlyViolations_evalWord crc data w).bind fun _ => ?_
  split
  exacts [.violation _, .ok _]

theorem onlyViolations_crcstream {W D : Nat} (w : Word) (init : BitVec W) (ws : List (BitVec D))
    (xorout : BitVec W) : OnlyViolations (crcstream w init ws xorout) := by
  refine .bind ?_ fun _ => .ok _
  induction ws generalizing init with
  | nil => exact .ok _
  | cons x ws ih => exact (onlyViolations_crcstep w init x).bind fun r => ih r

mutual

theorem onlyViolations_walkThrough {T : Type} {ref : SourceId → Nat → Except Error T}
    (h : ∀ s i, OnlyViolations (ref s i)) (con : Bool → T) (xr : List T → T) (e : BitExpr) :
    OnlyViolations (walkThrough ref con xr e) := by
  match e with
  | .input s i => rw [walkThrough]; exact h s i
  | .const b => rw [walkThrough]; exact .ok _
  | .xor .nil => rw [walkThrough]; exact .violation _
  | .xor (.cons e l) =>
    rw [walkThrough]
    exact (onlyViolations_walkThrough h con xr e).bind fun _ =>
      (onlyViolations_walkThroughAll h con xr l).bind fun _ => .ok _

theorem onlyViolations_walkThroughAll {T : Type} {ref : SourceId → Nat → Except Error T}
    (h : ∀ s i, OnlyViolations (ref s i)) (con : Bool → T) (xr : List T → T) (l : ExprList) :
    OnlyViolations (walkThroughAll ref con xr l) := by
  match l with
  | .nil => rw [walkThroughAll]; exact .ok _
  | .cons e l =>
    rw [walkThroughAll]
    exact (onlyViolations_walkThrough h con xr e).bind fun _ =>
      (onlyViolations_walkThroughAll h con xr l).bind fun _ => .ok _

end

theorem onlyViolations_walk {T : Type} (ref : SourceId → Nat → T) (con : Bool → T) (xr : List T → T) (e : BitExpr) :
    OnlyViolations (walk ref con xr e) := onlyViolations_walkThrough (fun _ _ => .ok _) con xr e

theorem onlyViolations_walkWith (r : Renderer) (e : BitExpr) : OnlyViolations (walkWith r e) := by
  cases r with
  | text style op bare => exact (onlyViolations_walk _ _ _ e).bind fun _ => .ok _
  | leafCount => exact (onlyViolations_walk _ _ _ e).bind fun _ => .ok _
  | depth => exact (onlyViolations_walk _ _ _ e).bind fun _ => .ok _
  | value crc data =>
    rw [walkWith, walkThrough_value]
    exact (onlyViolations_bxeval _ _ e).bind fun _ => .ok _
  | sortKey => exact (onlyViolations_walk _ _ _ e).bind fun _ => .ok _
  | env id => exact onlyViolations_walk _ _ _ e

/-- The computation of a call stops with nothing but refusals and contract violations. -/
def OnlyFaults {α : Type} (x : Except Stop α) : Prop := ∀ e, x = .error (.raised e) → ∃ c, e = .contractViolation c

theorem OnlyFaults.ok {α : Type} (a : α) : OnlyFaults (.ok a) := fun _ h => by cases h

theorem OnlyFaults.refused {α : Type} (r : Refusal) : OnlyFaults (α := α) (.error (.refused r)) := fun _ h => by cases h

theorem OnlyFaults.andThen {α β : Type} {x : Except Stop α} {f : α → Except Stop β} (hx : OnlyFaults x)
    (hf : ∀ a, OnlyFaults (f a)) : OnlyFaults (andThen x f) := by
  intro e h
  cases x with
  | ok a => exact hf a e h
  | error p => exact hx e (by simpa using h)

theorem OnlyFaults.orRaise {α β : Type} {x : Except Error α} {f : α → Except Stop β} (hx : OnlyViolations x)
    (hf : ∀ a, OnlyFaults (f a)) : OnlyFaults (orRaise x f) := by
  intro e h
  cases x with
  | ok a => exact hf a e h
  | error y => exact hx e (by simpa using h)

theorem onlyFaults_readWord (s : State) (w : WordSrc) : OnlyFaults (readWord s w) := by
  cases w with
  | reg r =>
    simp only [readWord, readReg]
    split
    exacts [.ok _, .refused _]
  | lit w => exact .ok w

theorem onlyFaults_readExpr (s : State) (e : ExprSrc) : OnlyFaults (readExpr s e) := by
  cases e with
  | elem r j => exact (onlyFaults_readWord s (.reg r)).andThen fun w => .orRaise (onlyViolations_wget w j) fun _ => .ok _
  | lit e => exact .ok e

/-- A call whose computation raises contract violations only delivers a value and changes nothing else, when it ends in a
next state. -/
theorem conclude_next {x : Except Stop Value} {s t : State} (hx : OnlyFaults x) (h : conclude x s = .next t) :
    ∃ v, x = .ok v ∧ t = s.deliver v := by
  match x, h with
  | .ok v, h => exact ⟨v, rfl, by simpa using h.symm⟩
  | .error (.raised e), h =>
    obtain ⟨c, rfl⟩ := hx e rfl
    simp at h
  | .error (.refused _), h => simp at h

/-- The computation of a call delivers no `failure`: a value of its own, a contract violation or a refusal. -/
def Delivers (x : Except Stop Value) : Prop := OnlyFaults x ∧ ∀ v, x = .ok v → ∀ e, v ≠ .failure e

theorem Delivers.ok {v : Value} (h : ∀ e, v ≠ .failure e) : Delivers (.ok v) :=
  ⟨.ok v, fun _ hv => by cases hv; exact h⟩

theorem Delivers.refused (r : Refusal) : Delivers (.error (.refused r)) := ⟨.refused r, nofun⟩

theorem Delivers.andThen {α : Type} {x : Except Stop α} {f : α → Except Stop Value} (hx : OnlyFaults x)
    (hf : ∀ a, Delivers (f a)) : Delivers (andThen x f) :=
  ⟨hx.andThen fun a => (hf a).1, fun v h => by
    cases x with
    | ok a => exact (hf a).2 v h
    | error p => cases h⟩

theorem Delivers.orRaise {α : Type} {x : Except Error α} {f : α → Except Stop Value} (hx : OnlyViolations x)
    (hf : ∀ a, Delivers (f a)) : Delivers (orRaise x f) :=
  ⟨.orRaise hx fun a => (hf a).1, fun v h => by
    cases x with
    | ok a => exact (hf a).2 v h
    | error y => cases h⟩

/-- What a call whose computation delivers no `failure` does, when it ends in a next state. -/
theorem Delivers.next {x : Except Stop Value} (hx : Delivers x) {s t : State} (h : conclude x s = .next t) :
    ∃ v, (∀ e, v ≠ .failure e) ∧ t = s.deliver v :=
  let ⟨v, hv, ht⟩ := conclude_next hx.1 h
  ⟨v, hx.2 v hv, ht⟩

/-- An operation of the run that raises contract violations only does not end the run. -/
theorem raise_ne_next {α : Type} {x : Except Error α} (hx : OnlyViolations x) {e : Error} (h : x = .error e) (s t : State) :
    raise e s ≠ .next t := by
  obtain ⟨c, rfl⟩ := hx e h
  simp [raise]

end Sys2Proof.Machine
end

