-- ==== Sys2Proof/Laws/PerInstr.lean ====
section
/-! SUPPORT. The family Operands, made per instruction: the decoder reads back the packed operands of every well-formed
instruction under that instruction's ordinal. -/

namespace Sys2Proof.Laws.Operands

open Sys2Proof

/-- The operands of a well-formed instruction are read back under its ordinal, whatever bytes follow. -/
def Statement (i : Instr) : Prop :=
  i.wellFormed = true →
    ∀ r, decodeOperands (BitVec.ofNat 8 i.ordinal) (encodeOperands i ++ r) = .ok (i, r)

theorem mkin (s : SourceId) (i : Nat) : Statement (.mkin s i) := by
  intro _ r
  simp [Instr.ordinal, decodeOperands, encodeOperands, decodeSource_encodeSource, decodeNat_encodeNat]

theorem mkconst (b : Bool) : Statement (.mkconst b) := by
  intro _ r
  simp [Instr.ordinal, decodeOperands, encodeOperands, decodeBool_encodeBool]

theorem mkxor (w : WordSrc) : Statement (.mkxor w) := by
  intro _ r
  simp [Instr.ordinal, decodeOperands, encodeOperands, decodeWordSrc_encodeWordSrc]

theorem bxeq (a b : ExprSrc) : Statement (.bxeq a b) := by
  intro _ r
  simp [Instr.ordinal, decodeOperands, encodeOperands, decodeExprSrc_encodeExprSrc]

theorem bxkey (e : ExprSrc) : Statement (.bxkey e) := by
  intro _ r
  simp [Instr.ordinal, decodeOperands, encodeOperands, decodeExprSrc_encodeExprSrc]

theorem bxeval (e : ExprSrc) (crc data : Bits) : Statement (.bxeval e crc data) := by
  intro h r
  simp only [Instr.wellFormed, widthsLegal, Bool.and_eq_true, decide_eq_true_eq] at h
  simp [Instr.ordinal, decodeOperands, encodeOperands, decodeExprSrc_encodeExprSrc, decodePort_encodePort h.1,
    decodePort_encodePort h.2]

theorem flatten (e : ExprSrc) : Statement (.flatten e) := by
  intro _ r
  simp [Instr.ordinal, decodeOperands, encodeOperands, decodeExprSrc_encodeExprSrc]

theorem elim (e : ExprSrc) : Statement (.elim e) := by
  intro _ r
  simp [Instr.ordinal, decodeOperands, encodeOperands, decodeExprSrc_encodeExprSrc]

theorem lexsort (e : ExprSrc) : Statement (.lexsort e) := by
  intro _ r
  simp [Instr.ordinal, decodeOperands, encodeOperands, decodeExprSrc_encodeExprSrc]

theorem simplify (e : ExprSrc) (o : OptSrc) (x : Bool) : Statement (.simplify e o x) := by
  intro _ r
  simp [Instr.ordinal, decodeOperands, encodeOperands, decodeExprSrc_encodeExprSrc, decodeOptSrc_encodeOptSrc,
    decodeBool_encodeBool]

theorem validate (c : CfgSrc) : Statement (.validate c) := by
  intro _ r
  simp [Instr.ordinal, decodeOperands, encodeOperands, decodeCfgSrc_encodeCfgSrc]

theorem inwords (c : CfgSrc) : Statement (.inwords c) := by
  intro _ r
  simp [Instr.ordinal, decodeOperands, encodeOperands, decodeCfgSrc_encodeCfgSrc]

theorem stepl (a : StepArgs) : Statement (.stepl a) := by
  intro _ r
  simp [Instr.ordinal, decodeOperands, encodeOperands, decodeStepArgs_encodeStepArgs]

theorem stepr (a : StepArgs) : Statement (.stepr a) := by
  intro _ r
  simp [Instr.ordinal, decodeOperands, encodeOperands, decodeStepArgs_encodeStepArgs]

theorem gen (c : CfgSrc) : Statement (.gen c) := by
  intro _ r
  simp [Instr.ordinal, decodeOperands, encodeOperands, decodeCfgSrc_encodeCfgSrc]

theorem wnew (w : WordSrc) : Statement (.wnew w) := by
  intro _ r
  simp [Instr.ordinal, decodeOperands, encodeOperands, decodeWordSrc_encodeWordSrc]

theorem wget (w : WordSrc) (j : Nat) : Statement (.wget w j) := by
  intro _ r
  simp [Instr.ordinal, decodeOperands, encodeOperands, decodeWordSrc_encodeWordSrc, decodeNat_encodeNat]

theorem wflat (a : FlatArgs) : Statement (.wflat a) := by
  intro _ r
  simp [Instr.ordinal, decodeOperands, encodeOperands, decodeFlatArgs_encodeFlatArgs]

theorem wsimp (a : SimpArgs) : Statement (.wsimp a) := by
  intro _ r
  simp [Instr.ordinal, decodeOperands, encodeOperands, decodeSimpArgs_encodeSimpArgs]

theorem crcstep (w : WordSrc) (crc data : Bits) : Statement (.crcstep w crc data) := by
  intro h r
  simp only [Instr.wellFormed, widthsLegal, Bool.and_eq_true, decide_eq_true_eq] at h
  simp [Instr.ordinal, decodeOperands, encodeOperands, decodeWordSrc_encodeWordSrc, decodePort_encodePort h.1.1,
    decodePort_encodePort h.1.2]

theorem crcref (a : RefArgs) : Statement (.crcref a) := by
  intro h r
  simp only [Instr.wellFormed, widthsLegal, Bool.and_eq_true, decide_eq_true_eq] at h
  simp [Instr.ordinal, decodeOperands, encodeOperands, decodeRefArgs_encodeRefArgs h.1 h.2]

theorem walk (e : ExprSrc) (n : Renderer) : Statement (.walk e n) := by
  intro h r
  simp [Instr.ordinal, decodeOperands, encodeOperands, decodeExprSrc_encodeExprSrc, decodeRenderer_encodeRenderer h]

theorem crcstream (w : WordSrc) (a : StreamArgs) : Statement (.crcstream w a) := by
  intro h r
  simp only [Instr.wellFormed, widthsLegal, Bool.and_eq_true, decide_eq_true_eq] at h
  simp [Instr.ordinal, decodeOperands, encodeOperands, decodeWordSrc_encodeWordSrc,
    decodeStreamArgs_encodeStreamArgs h.1.1 h.1.2]

theorem bitrev (v : Bits) : Statement (.bitrev v) := by
  intro _ r
  simp [Instr.ordinal, decodeOperands, encodeOperands, decodeBits_encodeBits]

end Sys2Proof.Laws.Operands
end

