-- ==== Sys2Proof/Laws/Simplifier.lean ====
section
/-! SUPPORT. Laws of the XOR Simplifier: what FLATTEN, ELIM, LEXSORT and SIMP answer, and that each keeps the value and
the well-formedness of its operand. -/

namespace Sys2Proof.Machine

open Sys2Proof Sys2Proof.Safety

/-! ### Leaves -/

theorem leavesAll_eq (l : ExprList) : leavesAll l = l.toList.flatMap leaves := by
  induction l using ExprList.rec (motive_1 := fun _ => True) with
  | input _ _ => trivial
  | const _ => trivial
  | xor _ _ => trivial
  | nil => simp [leavesAll]
  | cons e l _ ih => simp [leavesAll, ih]

@[simp] theorem leaves_xorOf (l : List BitExpr) : leaves (.xorOf l) = l.flatMap leaves := by
  simp [leaves, leavesAll_eq]

/-- A leaf is its own only leaf. -/
theorem leaves_of_not_isXor {e : BitExpr} (h : isXor e = false) : leaves e = [e] := by
  cases e <;> simp [isXor] at h <;> simp [leaves]

theorem flatMap_leaves_of_no_xor {l : List BitExpr} (h : ∀ e ∈ l, isXor e = false) : l.flatMap leaves = l := by
  induction l with
  | nil => rfl
  | cons e l ih =>
    simp [leaves_of_not_isXor (h e (by simp)), ih fun x hx => h x (by simp [hx])]

/-- Every leaf of a tree is no `Xor`. -/
theorem not_isXor_of_mem_leaves {e x : BitExpr} : x ∈ leaves e → isXor x = false := by
  induction e using BitExpr.induct with
  | input s i => intro h; rw [leaves, List.mem_singleton] at h; rw [h]; rfl
  | const b => intro h; rw [leaves, List.mem_singleton] at h; rw [h]; rfl
  | xor l ih =>
    simp only [leaves, leavesAll_eq, List.mem_flatMap]
    rintro ⟨e, he, hx⟩
    exact ih e he hx

/-- R68: a well-formed tree is well formed for the widths when its leaves are. -/
theorem wfw_iff_leaves {W D : Nat} {e : BitExpr} (h : wf e = true) :
    wfw W D e = true ↔ ∀ x ∈ leaves e, wfw W D x = true := by
  induction e using BitExpr.induct with
  | input s i => simp [leaves]
  | const b => simp [leaves]
  | xor l ih =>
    rw [wf_xor_iff] at h
    rw [wfw_xor_iff]
    simp only [leaves, leavesAll_eq, List.mem_flatMap]
    constructor
    · rintro ⟨-, hl⟩ x ⟨e, he, hx⟩
      exact (ih e he (h.2 e he)).1 (hl e he) x hx
    · intro hx
      exact ⟨h.1, fun e he => (ih e he (h.2 e he)).2 fun x hx' => hx x ⟨e, he, hx'⟩⟩

/-- R67: the value of a tree is the sum modulo 2 of the values of its leaves. -/
theorem val_eq_sumVal_leaves {W D : Nat} (crc : BitVec W) (data : BitVec D) (e : BitExpr) :
    val crc data e = sumVal crc data (leaves e) := by
  induction e using BitExpr.induct with
  | input s i => simp [leaves, sumVal]
  | const b => simp [leaves, sumVal]
  | xor l ih =>
    simp only [val, valAll_eq, leaves, leavesAll_eq]
    generalize l.toList = m at ih
    induction m with
    | nil => simp [sumVal]
    | cons e m ih2 => simp [sumVal, ih e (by simp), ih2 fun x hx => ih x (by simp [hx])]

/-! ### FLATTEN -/

/-- R71: the spliced operands are the leaves of the operands, in order. -/
theorem spliced_eq_leaves (l : ExprList) : spliced l = leavesAll l := by
  induction l using ExprList.rec (motive_1 := fun e => ∀ m, e = .xor m → spliced m = leavesAll m) with
  | input _ _ => rename_i h; cases h
  | const _ => rename_i h; cases h
  | xor m ih => rename_i h; cases h; exact ih
  | nil => simp [spliced, leavesAll]
  | cons e l he ih =>
    cases e with
    | input s i => simp [spliced, leavesAll, leaves, ih]
    | const b => simp [spliced, leavesAll, leaves, ih]
    | xor m => simp [spliced, leavesAll, leaves, ih, he m rfl]

/-- R71: FLATTEN of an `Xor` is the `Xor` of its leaves. -/
theorem flattened_xor (l : ExprList) : flattened (.xor l) = .xorOf (leavesAll l) := by
  simp [flattened, spliced_eq_leaves]

theorem flattened_of_not_isXor {e : BitExpr} (h : isXor e = false) : flattened e = e := by
  cases e <;> simp [isXor] at h <;> rfl

/-- R71: the leaves are unchanged, counted with repetition and in order. -/
@[simp] theorem leaves_flattened (e : BitExpr) : leaves (flattened e) = leaves e := by
  cases e with
  | input s i => rfl
  | const b => rfl
  | xor l =>
    rw [flattened_xor, leaves_xorOf, leaves, flatMap_leaves_of_no_xor]
    intro e he
    exact not_isXor_of_mem_leaves (e := .xor l) (by simpa [leaves] using he)

theorem leaves_ne_nil {e : BitExpr} : wf e = true → leaves e ≠ [] := by
  induction e using BitExpr.induct with
  | input s i => simp [leaves]
  | const b => simp [leaves]
  | xor l ih =>
    rw [wf_xor_iff]
    rintro ⟨hne, hl⟩
    obtain ⟨e, he⟩ := List.exists_mem_of_ne_nil _ hne
    rw [leaves, leavesAll_eq]
    exact fun h => ih e he (hl e he) (List.flatMap_eq_nil_iff.1 h e he)

theorem wf_of_not_isXor {e : BitExpr} (h : isXor e = false) : wf e = true := by
  cases e <;> simp [isXor] at h <;> rfl

/-- R75: FLATTEN keeps well-formedness. -/
theorem wf_flattened {e : BitExpr} (h : wf e = true) : wf (flattened e) = true := by
  cases e with
  | input s i => rfl
  | const b => rfl
  | xor l =>
    have hne := leaves_ne_nil h
    rw [flattened_xor, wf_xor_iff]
    refine ⟨by simpa [leaves] using hne, fun e he => ?_⟩
    exact wf_of_not_isXor (not_isXor_of_mem_leaves (e := .xor l) (by simpa [leaves] using he))

theorem wfw_flattened {W D : Nat} {e : BitExpr} (h : wfw W D e = true) : wfw W D (flattened e) = true := by
  have hw := wf_of_wfw h
  rw [wfw_iff_leaves (wf_flattened hw), leaves_flattened, ← wfw_iff_leaves hw]
  exact h

/-- R75: FLATTEN keeps the value. -/
theorem val_flattened {W D : Nat} (crc : BitVec W) (data : BitVec D) (e : BitExpr) :
    val crc data (flattened e) = val crc data e := by
  rw [val_eq_sumVal_leaves, leaves_flattened, ← val_eq_sumVal_leaves]

/-- R71: FLATTEN of a flattened node is that node: its leaves are those of the first. -/
@[simp] theorem flattened_flattened (e : BitExpr) : flattened (flattened e) = flattened e := by
  cases e with
  | input s i => rfl
  | const b => rfl
  | xor l =>
    have h := leaves_flattened (.xor l)
    rw [flattened_xor] at h ⊢
    rw [BitExpr.xorOf, leaves, leaves] at h
    rw [BitExpr.xorOf, flattened_xor, h]

/-- R71: no operand of the flattened node is an `Xor`. -/
theorem not_isXor_of_mem_flattened {l : ExprList} {x : BitExpr} (h : x ∈ leavesAll l) : isXor x = false :=
  not_isXor_of_mem_leaves (e := .xor l) (by simpa [leaves] using h)

/-! ### ELIM -/

theorem occurrences_eq_count (x : BitExpr) (l : List BitExpr) : occurrences x l = l.count x := by
  unfold occurrences
  rw [List.count_eq_countP, List.countP_eq_length_filter]
  congr 1
  apply List.filter_congr
  intro y _
  rw [bxeq_eq_decide, Bool.eq_iff_iff, decide_eq_true_iff, beq_iff_eq]
  exact eq_comm

theorem occurs_eq_decide (x : BitExpr) (l : List BitExpr) : occurs x l = decide (x ∈ l) := by
  unfold occurs
  rw [occurrences_eq_count]
  exact decide_eq_decide.2 List.count_pos_iff

/-- R72: ELIM keeps the operand `x` of `ops` that stands after the operands `pre`. -/
def keeps (ops pre : List BitExpr) : BitExpr → Bool
  | .input s i => decide (.input s i ∉ pre) && decide (ops.count (.input s i) % 2 = 1)
  | .const _ => false
  | .xor _ => true

/-- R72: what ELIM keeps of the operands `l` of `ops` that stand after `pre`, but for a `Const(1)`. -/
def keptFrom (ops pre : List BitExpr) : List BitExpr → List BitExpr
  | [] => []
  | x :: l => (if keeps ops pre x then [x] else []) ++ keptFrom ops (pre ++ [x]) l

theorem survivors_eq (ops : List BitExpr) (l pre kept : List BitExpr) (ones : Nat)
    (hk : ∀ s i, BitExpr.input s i ∈ kept ↔ .input s i ∈ pre ∧ ops.count (.input s i) % 2 = 1) :
    survivors ops l kept ones = (kept ++ keptFrom ops pre l, ones + l.count (.const true)) := by
  induction l generalizing pre kept ones with
  | nil => simp [survivors, keptFrom]
  | cons x l ih =>
    match x with
    | .input s i =>
      simp only [survivors, occurs_eq_decide, occurrences_eq_count, keptFrom, keeps]
      by_cases hodd : ops.count (.input s i) % 2 = 1
      · by_cases hp : BitExpr.input s i ∈ pre
        · have : BitExpr.input s i ∈ kept := (hk s i).2 ⟨hp, hodd⟩
          simp only [this, hp, hodd, decide_true, decide_false, Bool.not_true, Bool.false_and, not_true,
            Bool.false_eq_true, if_false, List.nil_append]
          rw [ih (pre ++ [BitExpr.input s i]) kept ones]
          · simp
          · intro s' i'
            rw [hk, List.mem_append, List.mem_singleton]
            constructor
            · exact fun h => ⟨.inl h.1, h.2⟩
            · rintro ⟨h | h, h2⟩
              · exact ⟨h, h2⟩
              · exact ⟨h ▸ hp, h2⟩
        · have : BitExpr.input s i ∉ kept := fun h => hp ((hk s i).1 h).1
          simp only [this, hp, hodd, decide_true, decide_false, Bool.not_false, Bool.true_and, not_false_eq_true,
            if_true]
          rw [ih (pre ++ [BitExpr.input s i]) (kept ++ [BitExpr.input s i]) ones]
          · simp
          · intro s' i'
            rw [List.mem_append, List.mem_append, hk, List.mem_singleton]
            constructor
            · rintro (h | h)
              · exact ⟨.inl h.1, h.2⟩
              · exact ⟨.inr h, h ▸ hodd⟩
            · rintro ⟨h | h, h2⟩
              · exact .inl ⟨h, h2⟩
              · exact .inr h
      · simp only [hodd, decide_false, Bool.and_false, Bool.false_eq_true, if_false, List.nil_append]
        rw [ih (pre ++ [BitExpr.input s i]) kept ones]
        · simp
        · intro s' i'
          rw [hk, List.mem_append, List.mem_singleton]
          constructor
          · exact fun h => ⟨.inl h.1, h.2⟩
          · rintro ⟨h | h, h2⟩
            · exact ⟨h, h2⟩
            · exact absurd (h ▸ h2) hodd
    | .const false =>
      simp only [survivors, keptFrom, keeps, Bool.false_eq_true, if_false, List.nil_append]
      rw [ih (pre ++ [BitExpr.const false]) kept ones (by intro s' i'; rw [hk]; simp)]
      simp
    | .const true =>
      simp only [survivors, keptFrom, keeps, Bool.false_eq_true, if_false, List.nil_append]
      rw [ih (pre ++ [BitExpr.const true]) kept (ones + 1) (by intro s' i'; rw [hk]; simp)]
      simp; omega
    | .xor m =>
      simp only [survivors, keptFrom, keeps, if_true]
      rw [ih (pre ++ [BitExpr.xor m]) (kept ++ [BitExpr.xor m]) ones (by intro s' i'; simp [hk])]
      simp

/-- R72: the survivors in closed form. -/
theorem surviving_eq (ops : List BitExpr) :
    surviving ops = keptFrom ops [] ops ++ (if ops.count (.const true) % 2 = 1 then [.const true] else []) := by
  simp only [surviving, survivors_eq ops ops [] [] 0 (by simp), List.nil_append, Nat.zero_add]
  split <;> simp

theorem mem_keptFrom {ops pre l : List BitExpr} {x : BitExpr} (h : x ∈ keptFrom ops pre l) : x ∈ l := by
  induction l generalizing pre with
  | nil => simp [keptFrom] at h
  | cons y l ih =>
    simp only [keptFrom, List.mem_append] at h
    rcases h with h | h
    · split at h <;> simp at h; simp [h]
    · exact List.mem_cons_of_mem _ (ih h)

theorem keptFrom_sublist (ops pre l : List BitExpr) : (keptFrom ops pre l).Sublist l := by
  induction l generalizing pre with
  | nil => exact .slnil
  | cons y l ih =>
    simp only [keptFrom]
    split
    · exact (ih _).cons_cons y
    · exact (ih _).cons y

/-- R72: a constant is never among what is kept in place. -/
theorem const_not_mem_keptFrom (ops pre l : List BitExpr) (b : Bool) : BitExpr.const b ∉ keptFrom ops pre l := by
  induction l generalizing pre with
  | nil => simp [keptFrom]
  | cons y l ih =>
    simp only [keptFrom, List.mem_append, not_or]
    refine ⟨?_, ih _⟩
    split
    · rename_i h
      rintro hm
      rw [List.mem_singleton] at hm
      simp [← hm, keeps] at h
    · simp

theorem count_input_keptFrom (ops pre l : List BitExpr) (s : SourceId) (i : Nat) :
    (keptFrom ops pre l).count (.input s i) =
      if .input s i ∈ l ∧ .input s i ∉ pre ∧ ops.count (.input s i) % 2 = 1 then 1 else 0 := by
  induction l generalizing pre with
  | nil => simp [keptFrom]
  | cons y l ih =>
    simp only [keptFrom, List.count_append, ih]
    by_cases hy : y = .input s i
    · subst hy
      by_cases hp : BitExpr.input s i ∈ pre
      · simp [keeps, hp]
      · by_cases ho : ops.count (.input s i) % 2 = 1 <;> simp [keeps, hp, ho]
    · have h1 : (if keeps ops pre y = true then [y] else []).count (.input s i) = 0 := by
        split <;> simp [hy]
      have hy' : ¬ BitExpr.input s i = y := fun h => hy h.symm
      simp [h1, hy']

theorem count_xor_keptFrom (ops pre l : List BitExpr) (m : ExprList) :
    (keptFrom ops pre l).count (.xor m) = l.count (.xor m) := by
  induction l generalizing pre with
  | nil => simp [keptFrom]
  | cons y l ih =>
    simp only [keptFrom, List.count_append, ih]
    by_cases hy : y = .xor m
    · subst hy; simp [keeps, Nat.add_comm]
    · have h1 : (if keeps ops pre y = true then [y] else []).count (.xor m) = 0 := by
        split <;> simp [hy]
      simp [h1, List.count_cons_of_ne hy]

/-- R72: an input bit survives once when it occurs an odd number of times, and not at all otherwise. -/
theorem count_input_surviving (ops : List BitExpr) (s : SourceId) (i : Nat) :
    (surviving ops).count (.input s i) = ops.count (.input s i) % 2 := by
  have h2 : (if ops.count (.const true) % 2 = 1 then [BitExpr.const true] else []).count (.input s i) = 0 := by
    split <;> simp
  rw [surviving_eq, List.count_append, count_input_keptFrom, h2]
  by_cases ho : ops.count (.input s i) % 2 = 1
  · have hm : BitExpr.input s i ∈ ops := List.count_pos_iff.1 (by omega)
    simp [ho, hm]
  · simp [ho]; omega

/-- R72: `Const(1)` survives once when it occurs an odd number of times, and not at all otherwise. -/
theorem count_one_surviving (ops : List BitExpr) :
    (surviving ops).count (.const true) = ops.count (.const true) % 2 := by
  rw [surviving_eq, List.count_append, List.count_eq_zero.2 (const_not_mem_keptFrom _ _ _ _)]
  split
  · next h => simp [h]
  · next h => simp; omega

/-- R72: `Const(0)` never survives. -/
theorem count_zero_surviving (ops : List BitExpr) : (surviving ops).count (.const false) = 0 := by
  rw [surviving_eq, List.count_append, List.count_eq_zero.2 (const_not_mem_keptFrom _ _ _ _)]
  split <;> simp

/-- R72: a nested `Xor` is always kept. -/
theorem count_xor_surviving (ops : List BitExpr) (m : ExprList) :
    (surviving ops).count (.xor m) = ops.count (.xor m) := by
  have h2 : (if ops.count (.const true) % 2 = 1 then [BitExpr.const true] else []).count (.xor m) = 0 := by
    split <;> simp
  rw [surviving_eq, List.count_append, count_xor_keptFrom, h2, Nat.add_zero]

/-- R72: only operands survive. -/
theorem mem_of_mem_surviving {ops : List BitExpr} {x : BitExpr} (h : x ∈ surviving ops) : x ∈ ops := by
  rw [surviving_eq, List.mem_append] at h
  rcases h with h | h
  · exact mem_keptFrom h
  · split at h
    · next ho =>
      rw [List.mem_singleton] at h
      exact h ▸ List.count_pos_iff.1 (by omega)
    · simp at h

/-- The parities of the counts of the survivors are those of the operands, but for `Const(0)`. -/
theorem count_surviving_mod (ops : List BitExpr) (x : BitExpr) (hx : x ≠ .const false) :
    (surviving ops).count x % 2 = ops.count x % 2 := by
  match x, hx with
  | .input s i, _ => rw [count_input_surviving]; omega
  | .const true, _ => rw [count_one_surviving]; omega
  | .const false, hx => exact absurd rfl hx
  | .xor m, _ => rw [count_xor_surviving]

/-- R81: taking out every copy of a node leaves the sum unchanged but for one copy when their number is odd. -/
theorem sumVal_filter {W D : Nat} (crc : BitVec W) (data : BitVec D) (x : BitExpr) (l : List BitExpr) :
    sumVal crc data l =
      ((decide (l.count x % 2 = 1) && val crc data x) ^^ sumVal crc data (l.filter (· ≠ x))) := by
  induction l with
  | nil => simp [sumVal]
  | cons y l ih =>
    by_cases hy : y = x
    · subst hy
      have h2 : (l.count y + 1) % 2 = 1 ↔ ¬ l.count y % 2 = 1 := by omega
      simp only [sumVal, ih, List.count_cons_self, h2, ne_eq, not_true_eq_false, decide_false,
        Bool.false_eq_true, not_false_eq_true, List.filter_cons_of_neg]
      by_cases h : l.count y % 2 = 1 <;> simp [h]
    · simp only [sumVal, ih, List.count_cons_of_ne hy, ne_eq, hy, not_false_eq_true, decide_true,
        List.filter_cons_of_pos]
      exact Bool.xor_left_comm _ _ _

/-- R81: two lists in which every node occurs with the same parity have the same sum; `Const(0)` may occur in any number. -/
theorem sumVal_eq_zero {W D : Nat} (crc : BitVec W) (data : BitVec D) (n : Nat) :
    ∀ l : List BitExpr, l.length ≤ n → (∀ x, x ≠ .const false → l.count x % 2 = 0) →
      sumVal crc data l = false := by
  induction n with
  | zero =>
    intro l hl _
    rw [List.eq_nil_of_length_eq_zero (Nat.le_zero.1 hl)]
    rfl
  | succ n ih =>
    intro l hl h
    match l with
    | [] => rfl
    | x :: l =>
      rw [sumVal_filter crc data x]
      have hv : (decide ((x :: l).count x % 2 = 1) && val crc data x) = false := by
        by_cases hx : x = .const false
        · simp [hx, val]
        · rw [h x hx]; rfl
      rw [hv, Bool.false_xor]
      apply ih
      · simp only [ne_eq, not_true_eq_false, decide_false, Bool.false_eq_true, not_false_eq_true,
          List.filter_cons_of_neg]
        exact (List.length_filter_le _ _).trans (by simpa using hl)
      · intro y hy
        by_cases hyx : y = x
        · rw [List.count_eq_zero.2]
          simp [hyx]
        · rw [List.count_filter (by simpa using hyx)]
          exact h y hy

theorem sumVal_congr {W D : Nat} (crc : BitVec W) (data : BitVec D) (l m : List BitExpr)
    (h : ∀ x, x ≠ .const false → l.count x % 2 = m.count x % 2) : sumVal crc data l = sumVal crc data m := by
  have := sumVal_eq_zero crc data _ (l ++ m) le_rfl fun x hx => by
    have := h x hx
    rw [List.count_append]; omega
  rw [sumVal_append] at this
  revert this
  cases sumVal crc data l <;> cases sumVal crc data m <;> simp

/-- R72: ELIM keeps the value of the operand list. -/
theorem sumVal_surviving {W D : Nat} (crc : BitVec W) (data : BitVec D) (ops : List BitExpr) :
    sumVal crc data (surviving ops) = sumVal crc data ops :=
  sumVal_congr crc data _ _ fun x hx => count_surviving_mod ops x hx

theorem eliminated_xor (l : ExprList) :
    eliminated (.xor l) =
      if surviving l.toList = [] then .const false else .xorOf (surviving l.toList) := by
  simp [eliminated, List.isEmpty_iff]

theorem eliminated_of_not_isXor {e : BitExpr} (h : isXor e = false) : eliminated e = e := by
  cases e <;> simp [isXor] at h <;> rfl

/-- R75: ELIM keeps the value. -/
theorem val_eliminated {W D : Nat} (crc : BitVec W) (data : BitVec D) (e : BitExpr) :
    val crc data (eliminated e) = val crc data e := by
  cases e with
  | input s i => rfl
  | const b => rfl
  | xor l =>
    rw [eliminated_xor]
    split
    · next h =>
      have := sumVal_surviving crc data l.toList
      rw [h] at this
      simp [val, valAll_eq, ← this, sumVal]
    · rw [val_xorOf, sumVal_surviving, val, valAll_eq]

/-- R75: ELIM keeps well-formedness. -/
theorem wf_eliminated {e : BitExpr} (h : wf e = true) : wf (eliminated e) = true := by
  cases e with
  | input s i => rfl
  | const b => rfl
  | xor l =>
    rw [wf_xor_iff] at h
    rw [eliminated_xor]
    split
    · rfl
    · next hne =>
      rw [wf_xor_iff]
      simpa using ⟨hne, fun e he => h.2 e (mem_of_mem_surviving he)⟩

theorem wfw_eliminated {W D : Nat} {e : BitExpr} (h : wfw W D e = true) : wfw W D (eliminated e) = true := by
  cases e with
  | input s i => exact h
  | const b => rfl
  | xor l =>
    rw [wfw_xor_iff] at h
    rw [eliminated_xor]
    split
    · rfl
    · next hne =>
      rw [wfw_xor_iff]
      simpa using ⟨hne, fun e he => h.2 e (mem_of_mem_surviving he)⟩

/-- R94: ELIM makes no leaf but `Const(0)`. -/
theorem mem_leaves_eliminated {e x : BitExpr} (h : x ∈ leaves (eliminated e)) :
    x ∈ leaves e ∨ x = .const false := by
  cases e with
  | input s i => exact .inl h
  | const b => exact .inl h
  | xor l =>
    rw [eliminated_xor] at h
    split at h
    · exact .inr (by simpa [leaves] using h)
    · rw [leaves_xorOf, List.mem_flatMap] at h
      obtain ⟨e, he, hx⟩ := h
      exact .inl (by rw [leaves, leavesAll_eq, List.mem_flatMap]; exact ⟨e, mem_of_mem_surviving he, hx⟩)

/-! ### LEXSORT -/

theorem keyLe_refl (a : List Char) : keyLe a a = true := by
  induction a with
  | nil => rfl
  | cons c a ih => simp [keyLe, ih]

theorem keyLe_total (a b : List Char) : keyLe a b = true ∨ keyLe b a = true := by
  induction a generalizing b with
  | nil => exact .inl rfl
  | cons c a ih =>
    cases b with
    | nil => exact .inr rfl
    | cons d b =>
      rcases Nat.lt_trichotomy c.toNat d.toNat with h | h | h
      · exact .inl (by simp [keyLe, h])
      · simpa [keyLe, h] using ih b
      · exact .inr (by simp [keyLe, h])

theorem keyLe_trans {a b c : List Char} (h1 : keyLe a b = true) (h2 : keyLe b c = true) : keyLe a c = true := by
  induction a generalizing b c with
  | nil => rfl
  | cons x a ih =>
    match b, c, h1, h2 with
    | y :: b, z :: c, h1, h2 =>
      simp only [keyLe] at h1 h2 ⊢
      split at h1
      · split at h2
        · rw [if_pos (by omega)]
        · split at h2
          · simp at h2
          · rw [if_pos (by omega)]
      · split at h1
        · simp at h1
        · split at h2
          · rw [if_pos (by omega)]
          · split at h2
            · simp at h2
            · rw [if_neg (by omega), if_neg (by omega)]
              exact ih h1 h2

theorem keyLe_antisymm {a b : List Char} (h1 : keyLe a b = true) (h2 : keyLe b a = true) : a = b := by
  induction a generalizing b with
  | nil =>
    match b, h2 with
    | [], _ => rfl
  | cons x a ih =>
    match b, h1, h2 with
    | y :: b, h1, h2 =>
      simp only [keyLe] at h1 h2
      rcases Nat.lt_trichotomy x.toNat y.toNat with h | h | h
      · rw [if_neg (by omega), if_pos h] at h2; simp at h2
      · rw [if_neg (by omega), if_neg (by omega)] at h1 h2
        rw [Char.toNat_inj.1 h, ih h1 h2]
      · rw [if_neg (by omega), if_pos h] at h1; simp at h1

theorem insertByKey_perm (x : BitExpr) (l : List BitExpr) : (insertByKey x l).Perm (x :: l) := by
  induction l with
  | nil => exact .refl _
  | cons y l ih =>
    simp only [insertByKey]
    split
    · exact .refl _
    · exact (ih.cons y).trans (.swap x y l)

/-- R73: LEXSORT reorders the operands and does nothing else. -/
theorem sortedByKey_perm (l : List BitExpr) : (sortedByKey l).Perm l := by
  induction l with
  | nil => exact .refl _
  | cons x l ih => exact (insertByKey_perm x _).trans (ih.cons x)

theorem insertByKey_sorted (x : BitExpr) {l : List BitExpr}
    (h : l.Pairwise fun a b => keyLe (keyText a) (keyText b) = true) :
    (insertByKey x l).Pairwise fun a b => keyLe (keyText a) (keyText b) = true := by
  induction l with
  | nil => simp [insertByKey]
  | cons y l ih =>
    rw [List.pairwise_cons] at h
    simp only [insertByKey]
    split
    · next hxy =>
      refine .cons (fun z hz => ?_) (List.pairwise_cons.2 h)
      rcases List.mem_cons.1 hz with rfl | hz
      · exact hxy
      · exact keyLe_trans hxy (h.1 z hz)
    · next hxy =>
      refine .cons (fun z hz => ?_) (ih h.2)
      rcases List.mem_cons.1 ((insertByKey_perm x l).mem_iff.1 hz) with rfl | hz
      · exact (keyLe_total _ _).resolve_left hxy
      · exact h.1 z hz

/-- R73: the operands stand in ascending order of key. -/
theorem sortedByKey_sorted (l : List BitExpr) :
    (sortedByKey l).Pairwise fun a b => keyLe (keyText a) (keyText b) = true := by
  induction l with
  | nil => exact .nil
  | cons x l ih => exact insertByKey_sorted x ih

theorem insertByKey_filter (k : List Char) (x : BitExpr) (l : List BitExpr) :
    (insertByKey x l).filter (fun e => keyText e = k) = (x :: l).filter fun e => keyText e = k := by
  induction l with
  | nil => rfl
  | cons y l ih =>
    simp only [insertByKey]
    split
    · rfl
    · next hxy =>
      rw [List.filter_cons, ih]
      by_cases hx : keyText x = k
      · by_cases hy : keyText y = k
        · exact absurd (by rw [hx, hy]; exact keyLe_refl k) hxy
        · simp [hx, hy]
      · simp [hx, List.filter_cons]

/-- R73: operands with equal keys keep their original relative order. -/
theorem sortedByKey_stable (k : List Char) (l : List BitExpr) :
    (sortedByKey l).filter (fun e => keyText e = k) = l.filter fun e => keyText e = k := by
  induction l with
  | nil => rfl
  | cons x l ih =>
    rw [sortedByKey, insertByKey_filter, List.filter_cons, ih, List.filter_cons]

theorem lexsorted_of_not_isXor {e : BitExpr} (h : isXor e = false) : lexsorted e = e := by
  cases e <;> simp [isXor] at h <;> rfl

/-- R75: LEXSORT keeps the value. -/
theorem val_lexsorted {W D : Nat} (crc : BitVec W) (data : BitVec D) (e : BitExpr) :
    val crc data (lexsorted e) = val crc data e := by
  cases e with
  | input s i => rfl
  | const b => rfl
  | xor l => rw [lexsorted, val_xorOf, sumVal_perm crc data (sortedByKey_perm _), val, valAll_eq]

/-- R75: LEXSORT keeps well-formedness. -/
theorem wf_lexsorted {e : BitExpr} (h : wf e = true) : wf (lexsorted e) = true := by
  cases e with
  | input s i => rfl
  | const b => rfl
  | xor l =>
    rw [wf_xor_iff] at h
    rw [lexsorted, wf_xor_iff, ExprList.toList_ofList]
    refine ⟨fun hn => h.1 ?_, fun e he => h.2 e ((sortedByKey_perm _).mem_iff.1 he)⟩
    exact List.Perm.eq_nil (hn ▸ (sortedByKey_perm l.toList).symm)

theorem wfw_lexsorted {W D : Nat} {e : BitExpr} (h : wfw W D e = true) : wfw W D (lexsorted e) = true := by
  cases e with
  | input s i => exact h
  | const b => rfl
  | xor l =>
    rw [wfw_xor_iff] at h
    rw [lexsorted, wfw_xor_iff, ExprList.toList_ofList]
    refine ⟨fun hn => h.1 ?_, fun e he => h.2 e ((sortedByKey_perm _).mem_iff.1 he)⟩
    exact List.Perm.eq_nil (hn ▸ (sortedByKey_perm l.toList).symm)

theorem mem_leaves_lexsorted {e x : BitExpr} : x ∈ leaves (lexsorted e) ↔ x ∈ leaves e := by
  cases e with
  | input s i => rfl
  | const b => rfl
  | xor l =>
    rw [lexsorted, leaves_xorOf, leaves, leavesAll_eq, List.mem_flatMap, List.mem_flatMap]
    simp [(sortedByKey_perm l.toList).mem_iff]

/-! ### SIMP -/

/-- R74: the node SIMP answers on a well-formed operand. -/
def simplified (e : BitExpr) (opt : OptFlags) (sortLex : Bool) : BitExpr :=
  let e1 := if runsFlatten opt then flattened e else e
  let e2 := if runsElim opt then eliminated e1 else e1
  if runsSort opt sortLex then lexsorted e2 else e2

/-- R74: a pass that flattens gives on a flattened node what it gives on the node. -/
theorem simplified_flattened {opt : OptFlags} (h : opt.flatten = true) (e : BitExpr) (sortLex : Bool) :
    simplified (flattened e) opt sortLex = simplified e opt sortLex := by
  simp [simplified, runsFlatten, h]

/-- R79: SIMP answers every well-formed operand. -/
theorem simplify_of_wf {e : BitExpr} (h : wf e = true) (opt : OptFlags) (sortLex : Bool) :
    simplify e opt sortLex = .ok (simplified e opt sortLex) := by
  have h1 : wf (if runsFlatten opt then flattened e else e) = true := by split; exacts [wf_flattened h, h]
  have e1 : (if runsFlatten opt then flatten e else .ok e) =
      Except.ok (ε := Error) (if runsFlatten opt then flattened e else e) := by
    split
    · rw [flatten, guardWf_of_wf h]
    · rfl
  rw [simplify, guardWf_of_wf h, e1, bind_ok]
  simp only [simplified]
  generalize (if runsFlatten opt then flattened e else e) = y at h1
  have h2 : wf (if runsElim opt then eliminated y else y) = true := by split; exacts [wf_eliminated h1, h1]
  have e2 : (if runsElim opt then elim y else .ok y) =
      Except.ok (ε := Error) (if runsElim opt then eliminated y else y) := by
    split
    · rw [elim, guardWf_of_wf h1]
    · rfl
  rw [e2, bind_ok]
  generalize (if runsElim opt then eliminated y else y) = z at h2
  split
  · rw [lexsort, guardWf_of_wf h2]
  · rfl

/-- R79: SIMP raises on an operand that is not well formed. -/
theorem simplify_of_not_wf {e : BitExpr} (h : wf e = false) (opt : OptFlags) (sortLex : Bool) :
    simplify e opt sortLex = violation .emptyXor := guardWf_of_not_wf h

theorem wf_simplified {e : BitExpr} (h : wf e = true) (opt : OptFlags) (sortLex : Bool) :
    wf (simplified e opt sortLex) = true := by
  simp only [simplified]
  have h1 : wf (if runsFlatten opt then flattened e else e) = true := by split; exacts [wf_flattened h, h]
  generalize (if runsFlatten opt then flattened e else e) = y at h1
  have h2 : wf (if runsElim opt then eliminated y else y) = true := by split; exacts [wf_eliminated h1, h1]
  split
  · exact wf_lexsorted h2
  · exact h2

/-- R75: SIMP keeps well-formedness for the widths. -/
theorem wfw_simplified {W D : Nat} {e : BitExpr} (h : wfw W D e = true) (opt : OptFlags) (sortLex : Bool) :
    wfw W D (simplified e opt sortLex) = true := by
  simp only [simplified]
  have h1 : wfw W D (if runsFlatten opt then flattened e else e) = true := by split; exacts [wfw_flattened h, h]
  generalize (if runsFlatten opt then flattened e else e) = y at h1
  have h2 : wfw W D (if runsElim opt then eliminated y else y) = true := by split; exacts [wfw_eliminated h1, h1]
  split
  · exact wfw_lexsorted h2
  · exact h2

/-- R75: SIMP keeps the value. -/
theorem val_simplified {W D : Nat} (crc : BitVec W) (data : BitVec D) (e : BitExpr) (opt : OptFlags)
    (sortLex : Bool) : val crc data (simplified e opt sortLex) = val crc data e := by
  simp only [simplified]
  have h1 : val crc data (if runsFlatten opt then flattened e else e) = val crc data e := by
    split; exacts [val_flattened _ _ _, rfl]
  have h2 (y : BitExpr) : val crc data (if runsElim opt then eliminated y else y) = val crc data y := by
    split; exacts [val_eliminated _ _ _, rfl]
  split
  · rw [val_lexsorted, h2, h1]
  · rw [h2, h1]

/-- R94: SIMP makes no `Const(1)`. -/
theorem hasNoOne_simplified {e : BitExpr} (h : hasNoOne e) (opt : OptFlags) (sortLex : Bool) :
    hasNoOne (simplified e opt sortLex) := by
  have h1 : hasNoOne (if runsFlatten opt then flattened e else e) := by
    split
    · simpa [hasNoOne] using h
    · exact h
  have h2 (y : BitExpr) (hy : hasNoOne y) : hasNoOne (if runsElim opt then eliminated y else y) := by
    split
    · intro hm
      rcases mem_leaves_eliminated hm with hm | hm
      · exact hy hm
      · simp at hm
    · exact hy
  simp only [simplified]
  split
  · intro hm
    exact h2 _ h1 (mem_leaves_lexsorted.1 hm)
  · exact h2 _ h1

end Sys2Proof.Machine
end

