-- ==== Sys2Proof/Laws/Unroll.lean ====
section
/-! SUPPORT. Laws of the Word Container, the unroll algorithm and the datapath: what each operation answers, and that a
step of the loop does to the values of a Word what an iteration of the reference function does to a register. -/

namespace Sys2Proof.Machine

open Sys2Proof Sys2Proof.Safety

/-! ### VALIDATE -/

/-- R82: VALIDATE returns exactly on a legal Configuration. -/
theorem validate_eq_ok {c : Configuration} : validate c = .ok () ↔ 1 ≤ c.W ∧ 1 ≤ c.D ∧ c.P < 2 ^ c.W := by
  have := Nat.two_pow_pos c.W
  unfold validate
  split
  · simp; omega
  · split
    · simp; omega
    · split <;> simp <;> omega

/-- R115: VALIDATE raises nothing but `InvalidConfiguration`. -/
theorem validate_error {c : Configuration} {x : Error} (h : validate c = .error x) :
    ∃ k, x = .invalidConfiguration k := by
  unfold validate at h
  split at h
  · simp at h; exact ⟨_, h.symm⟩
  · split at h
    · simp at h; exact ⟨_, h.symm⟩
    · split at h
      · simp at h; exact ⟨_, h.symm⟩
      · simp at h

/-! ### WFLAT, WSIMP -/

/-- R98: WFLAT flattens every element. -/
theorem wflat_of_wf {w : Word} (h : ∀ e ∈ w, wf e = true) : wflat w = .ok (w.map flattened) :=
  mapWord_of_ok fun e he => by rw [flatten, guardWf_of_wf (h e he)]

/-- R99: WSIMP simplifies every element. -/
theorem wsimp_of_wf {w : Word} (h : ∀ e ∈ w, wf e = true) (opt : OptFlags) (sortLex : Bool) :
    wsimp w opt sortLex = .ok (w.map fun e => simplified e opt sortLex) :=
  mapWord_of_ok fun e he => simplify_of_wf (h e he) opt sortLex

/-- WFLAT of a flattened Word is that Word, and a pass that flattens gives on it what it gives on the Word it came from. -/
theorem passes_after_wflat {w v : Word} (h : ∀ e ∈ w, wf e = true) (hv : wflat w = .ok v) :
    wflat v = .ok v ∧ ∀ opt : OptFlags, opt.flatten = true → ∀ sortLex, wsimp v opt sortLex = wsimp w opt sortLex := by
  rw [wflat_of_wf h] at hv
  obtain rfl := Except.ok.inj hv
  have h' : ∀ e ∈ w.map flattened, wf e = true := by simpa using fun e he => wf_flattened (h e he)
  refine ⟨by rw [wflat_of_wf h']; simp, fun opt ho sortLex => ?_⟩
  rw [wsimp_of_wf h', wsimp_of_wf h]
  simp [simplified_flattened ho]

/-! ### The steps -/

/-- R84, R85: the element a step builds at position `j`. -/
def newElement (right : Bool) (w : Word) (d : BitExpr) (P j : Nat) : BitExpr :=
  stepElement (if right then predRight w j else predLeft w j)
    (.xorOf [w.getD (if right then 0 else w.length - 1) (.const false), d]) (P.testBit j)

/-- R84, R85: a step on a Word with at least one element, all operands well formed, builds a Word of the same length, element
by element. -/
theorem stepWord_eq {w : Word} (h : w ≠ []) (right : Bool) {d : BitExpr} (hd : wf d = true) (hw : ∀ e ∈ w, wf e = true)
    (P : Nat) : stepWord right w d P = .ok ((List.range w.length).map (newElement right w d P)) := by
  have hpos := List.length_pos_iff.2 h
  have hall : ∀ e ∈ d :: w, wf e = true := by simpa using ⟨hd, hw⟩
  cases right
  · have : w.getD (w.length - 1) (.const false) = w[w.length - 1] :=
      List.getD_eq_getElem _ _ (by omega)
    rw [stepWord, if_neg (by simp), stepl, guardAll_of_wf hall, wget_of_lt (by omega), bind_ok]
    refine congrArg Except.ok (List.map_congr_left fun j _ => ?_)
    simp only [newElement, this, Bool.false_eq_true, if_false]
  · have : w.getD 0 (.const false) = w[0] := List.getD_eq_getElem _ _ hpos
    rw [stepWord, if_pos rfl, stepr, guardAll_of_wf hall, wget_of_lt hpos, bind_ok]
    refine congrArg Except.ok (List.map_congr_left fun j _ => ?_)
    simp only [newElement, this, if_true]

/-- R68: a step raises on an operand that is not well formed. -/
theorem stepWord_of_not_wf {w : Word} {d e : BitExpr} (he : e ∈ d :: w) (h : wf e = false) (right : Bool) (P : Nat) :
    stepWord right w d P = violation .emptyXor := by
  cases right <;> simp only [stepWord, stepl, stepr, guardAll_of_not_wf he h] <;> rfl

/-- The conditions the loop keeps of the elements of a Word (R94). -/
def ElementsOk (W D : Nat) (w : Word) : Prop := ∀ e ∈ w, wfw W D e = true ∧ hasNoOne e

theorem ElementsOk.wf {W D : Nat} {w : Word} (h : ElementsOk W D w) : ∀ e ∈ w, wf e = true :=
  fun e he => wf_of_wfw (h e he).1

theorem elementOk_const_false (W D : Nat) : wfw W D (.const false) = true ∧ hasNoOne (.const false) := by
  simp [wfw, hasNoOne, leaves]

theorem ElementsOk.getD {W D : Nat} {w : Word} (h : ElementsOk W D w) (j : Nat) :
    wfw W D (w.getD j (.const false)) = true ∧ hasNoOne (w.getD j (.const false)) := by
  by_cases hj : j < w.length
  · rw [List.getD_eq_getElem _ _ hj]
    exact h _ (List.getElem_mem hj)
  · rw [List.getD_eq_default _ _ (by omega)]
    exact elementOk_const_false W D

theorem elementOk_pair {W D : Nat} {a b : BitExpr} (ha : wfw W D a = true ∧ hasNoOne a)
    (hb : wfw W D b = true ∧ hasNoOne b) : wfw W D (.xorOf [a, b]) = true ∧ hasNoOne (.xorOf [a, b]) := by
  refine ⟨by rw [wfw_xor_iff]; simpa using ⟨ha.1, hb.1⟩, ?_⟩
  rw [hasNoOne, leaves_xorOf]
  simpa using ⟨ha.2, hb.2⟩

/-- R94: a step builds only elements that are well formed for the widths and hold no `Const(1)`. -/
theorem elementOk_newElement {W D : Nat} {w : Word} (h : ElementsOk W D w) {d : BitExpr}
    (hd : wfw W D d = true ∧ hasNoOne d) (right : Bool) (P j : Nat) :
    wfw W D (newElement right w d P j) = true ∧ hasNoOne (newElement right w d P j) := by
  have hp : wfw W D (if right then predRight w j else predLeft w j) = true ∧
      hasNoOne (if right then predRight w j else predLeft w j) := by
    split
    · unfold predRight; split; exacts [h.getD _, elementOk_const_false W D]
    · unfold predLeft; split; exacts [h.getD _, elementOk_const_false W D]
  unfold newElement stepElement
  split
  · exact elementOk_pair hp (elementOk_pair (h.getD _) hd)
  · exact hp

/-! ### The values of a Word -/

/-- The number whose bit `j` is the value of element `j`. -/
def wordVal {W D : Nat} (crc : BitVec W) (data : BitVec D) (w : Word) : BitVec W :=
  vecOfBits W (w.map (val crc data))

theorem evalWord_of_wfw {W D : Nat} (crc : BitVec W) (data : BitVec D) {w : Word}
    (h : ∀ e ∈ w, wfw W D e = true) : evalWord crc data w = .ok (w.map (val crc data)) := by
  induction w with
  | nil => rfl
  | cons e w ih =>
    simp [evalWord, bxeval_of_wfw crc data e (h e (by simp)), ih fun x hx => h x (by simp [hx])]

theorem evalWord_length {W D : Nat} {crc : BitVec W} {data : BitVec D} {w : Word} {l : List Bool}
    (h : evalWord crc data w = .ok l) : l.length = w.length := by
  induction w generalizing l with
  | nil => cases h; rfl
  | cons e w ih =>
    simp only [evalWord, bind_eq_ok] at h
    obtain ⟨b, -, m, hm, h⟩ := h
    cases h
    simp [ih hm]

/-- R102: on a Word of `W` elements well formed for the widths CRCSTEP answers its values. -/
theorem crcstep_of_wfw {W D : Nat} (crc : BitVec W) (data : BitVec D) {w : Word} (hw : w.length = W)
    (h : ∀ e ∈ w, wfw W D e = true) : crcstep w crc data = .ok (wordVal crc data w) := by
  simp [crcstep, evalWord_of_wfw crc data h, wordVal, hw]

/-- R32: on a Word with fewer elements CRCSTEP raises. -/
theorem crcstep_of_short {W D : Nat} (crc : BitVec W) (data : BitVec D) {w : Word} (hw : w.length < W) :
    ∃ c, crcstep w crc data = violation c ∧ ((∀ e ∈ w, wfw W D e = true) → c = .indexOutOfRange) := by
  cases hl : evalWord crc data w with
  | ok l =>
    have : l.length = w.length := evalWord_length hl
    exact ⟨.indexOutOfRange, by simp [crcstep, hl, this, hw], fun _ => rfl⟩
  | error x =>
    obtain ⟨c, rfl⟩ := onlyViolations_evalWord crc data w x hl
    refine ⟨c, by simp [crcstep, hl, violation], fun h => ?_⟩
    rw [evalWord_of_wfw crc data h] at hl
    simp at hl

theorem wordVal_getLsbD {W D : Nat} (crc : BitVec W) (data : BitVec D) (w : Word) (hw : w.length = W) (j : Nat) :
    (wordVal crc data w).getLsbD j = val crc data (w.getD j (.const false)) := by
  rw [wordVal, vecOfBits_getLsbD]
  by_cases hj : j < W
  · simp [hj, hw ▸ hj]
  · have : w.getD j (.const false) = .const false := List.getD_eq_default _ _ (by omega)
    simp only [this, hj, decide_false, Bool.false_and, val]

/-- A pass that keeps the value of every element keeps the values of the Word. -/
theorem wordVal_map {W D : Nat} (crc : BitVec W) (data : BitVec D) (w : Word) (f : BitExpr → BitExpr)
    (h : ∀ e, val crc data (f e) = val crc data e) : wordVal crc data (w.map f) = wordVal crc data w := by
  simp [wordVal, Function.comp_def, h]

/-- R90, R103: bit `j` of the register after an iteration. -/
theorem refStep_getLsbD {W : Nat} (P : BitVec W) (right : Bool) (r : BitVec W) (b : Bool) (j : Nat) (hj : j < W) :
    (refStep P right r b).getLsbD j =
      ((if right then r.getLsbD (j + 1) else decide (0 < j) && r.getLsbD (j - 1)) ^^
        (P.getLsbD j && ((if right then r.getLsbD 0 else r.getLsbD (W - 1)) ^^ b))) := by
  unfold refStep
  have h1 : (r >>> 1).getLsbD j = r.getLsbD (j + 1) := by
    simp [BitVec.getLsbD_ushiftRight, Nat.add_comm]
  have h2 : (r <<< 1).getLsbD j = (decide (0 < j) && r.getLsbD (j - 1)) := by
    rw [BitVec.getLsbD_shiftLeft]
    by_cases h0 : 0 < j
    · simp [hj, h0]; omega
    · simp [show j = 0 by omega]
  cases right
  · simp only [Bool.false_eq_true, if_false]
    split
    · next h => rw [BitVec.getLsbD_xor, h2, h, Bool.and_true]
    · next h => rw [h2, Bool.eq_false_iff.2 h, Bool.and_false, Bool.xor_false]
  · simp only [if_true]
    split
    · next h => rw [BitVec.getLsbD_xor, h1, h, Bool.and_true]
    · next h => rw [h1, Bool.eq_false_iff.2 h, Bool.and_false, Bool.xor_false]

/-- R90: a step does to the values of the Word what an iteration of the reference function does to the register. -/
theorem wordVal_newElement {W D : Nat} (crc : BitVec W) (data : BitVec D) {w : Word} (hw : w.length = W) (right : Bool)
    (d : BitExpr) (P : Nat) :
    wordVal crc data ((List.range w.length).map (newElement right w d P)) =
      refStep (BitVec.ofNat W P) right (wordVal crc data w) (val crc data d) := by
  apply BitVec.eq_of_getLsbD_eq
  intro j hj
  rw [wordVal_getLsbD crc data _ (by simp [hw]), refStep_getLsbD _ _ _ _ _ hj]
  have hjw : j < w.length := hw ▸ hj
  have hget : ((List.range w.length).map (newElement right w d P)).getD j (.const false) = newElement right w d P j := by
    simp [hjw]
  have hq (a : BitExpr) : val crc data (.xorOf [a, d]) = (val crc data a ^^ val crc data d) := by
    simp [sumVal]
  have hP : (BitVec.ofNat W P).getLsbD j = P.testBit j := by
    rw [BitVec.getLsbD_ofNat]; simp [hj]
  have hpred : val crc data (if right then predRight w j else predLeft w j) =
      (if right then (wordVal crc data w).getLsbD (j + 1)
        else decide (0 < j) && (wordVal crc data w).getLsbD (j - 1)) := by
    cases right
    · simp only [Bool.false_eq_true, if_false, predLeft, wordVal_getLsbD crc data w hw]
      split <;> simp [*, val]
    · simp only [if_true, predRight, wordVal_getLsbD crc data w hw]
      split
      · rfl
      · rw [List.getD_eq_default _ _ (by omega)]
  have htop : val crc data (w.getD (if right then 0 else w.length - 1) (.const false)) =
      (if right then (wordVal crc data w).getLsbD 0 else (wordVal crc data w).getLsbD (W - 1)) := by
    cases right <;> simp [wordVal_getLsbD crc data w hw, hw]
  rw [hget, hP, ← hpred, ← htop]
  unfold newElement stepElement
  cases P.testBit j
  · simp
  · simp only [if_true, val_xorOf, sumVal, Bool.true_and, Bool.xor_false]

/-! ### The loop -/

/-- What the working Word is after `k` data bits (R17, R90, R94). -/
structure Holds (c : Configuration) (k : Nat) (w : Word) : Prop where
  length_eq : w.length = c.W
  elements : ElementsOk c.W c.D w
  denotes : ∀ (crc : BitVec c.W) (data : BitVec c.D),
    wordVal crc data w = refAfter crc data (BitVec.ofNat c.W c.P) c.right k

theorem Holds.crcstep {c : Configuration} {k : Nat} {w : Word} (h : Holds c k w) (crc : BitVec c.W)
    (data : BitVec c.D) :
    crcstep w crc data = .ok (refAfter crc data (BitVec.ofNat c.W c.P) c.right k) := by
  rw [crcstep_of_wfw crc data h.length_eq fun e he => (h.elements e he).1, h.denotes]

theorem Holds.ne_nil {c : Configuration} {k : Nat} {w : Word} (h : Holds c k w) (hW : 1 ≤ c.W) : w ≠ [] := by
  intro hn
  have := h.length_eq
  simp [hn] at this
  omega

/-- R90: `F_0` is the CRC input. -/
theorem holds_inCrc (c : Configuration) : Holds c 0 (inwords c).2 where
  length_eq := by simp [inwords]
  elements := by
    intro e he
    simp only [inwords, List.mem_map, List.mem_range] at he
    obtain ⟨i, hi, rfl⟩ := he
    simp [wfw, hi, hasNoOne, leaves]
  denotes := by
    intro crc data
    apply BitVec.eq_of_getLsbD_eq
    intro j hj
    rw [wordVal_getLsbD crc data _ (by simp [inwords])]
    simp [inwords, hj, val, refAfter]

theorem dataIndex_lt {c : Configuration} {k : Nat} (hk : k < c.D) : dataIndex c k < c.D := by
  unfold dataIndex; split <;> omega

/-- R86: the data bit of the step at `k`. -/
theorem wget_inData {c : Configuration} {k : Nat} (hk : k < c.D) :
    wget (inwords c).1 (dataIndex c k) = .ok (.input .data (dataIndex c k)) := by
  rw [wget_eq_ok]
  simp [inwords, dataIndex_lt hk]

/-- R90: a step of the run takes the Word of `k` data bits to the Word of `k + 1`. -/
theorem Holds.step {c : Configuration} {k : Nat} {w : Word} (h : Holds c k w) (hW : 1 ≤ c.W) (hk : k < c.D) :
    ∃ x, stepWord c.right w (.input .data (dataIndex c k)) c.P = .ok x ∧ Holds c (k + 1) x := by
  have hi := dataIndex_lt hk
  refine ⟨_, stepWord_eq (h.ne_nil hW) _ (by simp [wf]) h.elements.wf _, by simp [h.length_eq], ?_, ?_⟩
  · intro e he
    simp only [List.mem_map, List.mem_range] at he
    obtain ⟨j, -, rfl⟩ := he
    exact elementOk_newElement h.elements (by simp [wfw, hi, hasNoOne, leaves]) _ _ _
  · intro crc data
    rw [wordVal_newElement crc data h.length_eq, h.denotes, refAfter]
    congr 1
    simp only [val, dataIndex]
    split <;> rfl

/-- R87, R88: a simplification pass keeps what the Word is. -/
theorem Holds.simp {c : Configuration} {k : Nat} {w : Word} (h : Holds c k w) (opt : OptFlags) (sortLex : Bool) :
    ∃ x, wsimp w opt sortLex = .ok x ∧ Holds c k x := by
  refine ⟨_, wsimp_of_wf h.elements.wf opt sortLex, by simp [h.length_eq], ?_, ?_⟩
  · intro e he
    simp only [List.mem_map] at he
    obtain ⟨y, hy, rfl⟩ := he
    exact ⟨wfw_simplified (h.elements y hy).1 _ _, hasNoOne_simplified (h.elements y hy).2 _ _⟩
  · intro crc data
    rw [wordVal_map _ _ _ _ fun e => val_simplified crc data e opt sortLex, h.denotes]

/-- R98: flattening the working Word keeps what the Word is. -/
theorem Holds.flat {c : Configuration} {k : Nat} {w : Word} (h : Holds c k w) :
    ∃ x, wflat w = .ok x ∧ Holds c k x := by
  refine ⟨_, wflat_of_wf h.elements.wf, by simp [h.length_eq], ?_, ?_⟩
  · intro e he
    simp only [List.mem_map] at he
    obtain ⟨y, hy, rfl⟩ := he
    exact ⟨wfw_flattened (h.elements y hy).1, by simpa [hasNoOne] using (h.elements y hy).2⟩
  · intro crc data
    rw [wordVal_map _ _ _ _ fun e => val_flattened crc data e, h.denotes]

/-- R89: one pass of the loop takes the Word of `k` data bits to the Word of `k + 1`. -/
theorem Holds.body {c : Configuration} {k : Nat} {w : Word} (h : Holds c k w) (hW : 1 ≤ c.W) (hk : k < c.D) :
    ∃ x, loopBody c (inwords c).1 k w = .ok x ∧ Holds c (k + 1) x := by
  obtain ⟨y, hy, h1⟩ := h.step hW hk
  obtain ⟨x, hx, h2⟩ := h1.simp c.opt false
  exact ⟨x, by rw [loopBody, wget_inData hk, bind_ok, hy, bind_ok, hx], h2⟩

/-- R89: the loop never raises, and its Word is as it should be after every pass. -/
theorem unrolled_holds {c : Configuration} (hW : 1 ≤ c.W) {k : Nat} (hk : k ≤ c.D) :
    ∃ w, unrolled c k = .ok w ∧ Holds c k w := by
  induction k with
  | zero => exact ⟨_, rfl, holds_inCrc c⟩
  | succ k ih =>
    obtain ⟨w, hw, h⟩ := ih (by omega)
    obtain ⟨x, hx, h1⟩ := h.body hW (by omega)
    exact ⟨x, by rw [unrolled, hw, bind_ok, hx], h1⟩

/-- R89: GEN on a valid Configuration answers a Word of all data bits. -/
theorem gen_holds {c : Configuration} (hc : validate c = .ok ()) : ∃ w, gen c = .ok w ∧ Holds c c.D w := by
  obtain ⟨w, hw, h⟩ := unrolled_holds (validate_eq_ok.1 hc).1 (le_refl c.D)
  obtain ⟨x, hx, h1⟩ := h.simp c.opt true
  exact ⟨x, by rw [gen, hc, bind_ok, hw, bind_ok, hx], h1⟩

theorem gen_of_invalid {c : Configuration} {x : Error} (hc : validate c = .error x) : gen c = .error x := by
  rw [gen, hc, bind_error]

/-- The invariant of a run, as the loop's own conditions. -/
theorem runInv_iff {r : Run} :
    RunInv r ↔ validate r.cfg = .ok () ∧ r.inCrc = (inwords r.cfg).2 ∧ r.inData = (inwords r.cfg).1 ∧
      r.k ≤ r.cfg.D ∧ (r.stepped = true → r.k < r.cfg.D) ∧ Holds r.cfg (if r.stepped then r.k + 1 else r.k) r.ww := by
  constructor
  · intro h
    refine ⟨h.valid, h.inCrc_eq, h.inData_eq, h.k_le, h.stepped_lt, h.length_eq, h.elements, fun crc data => ?_⟩
    have := h.denotes crc data
    rw [crcstep_of_wfw crc data h.length_eq fun e he => (h.elements e he).1] at this
    exact Except.ok.inj this
  · rintro ⟨h1, h2, h3, h4, h5, h6⟩
    exact ⟨h1, h2, h3, h4, h5, h6.length_eq, h6.elements, h6.crcstep⟩

/-- R89, R121: a run on the program of GEN: the Word GEN holds at this point, the Word in the middle of the pass where one is begun,
and the one the run holds. -/
theorem onProgram_cases {r : Run} (hr : RunInv r) (h : OnProgram r) : ∃ w v, unrolled r.cfg r.k = .ok w ∧
    (r.stepped = true → stepWord r.cfg.right w (.input .data (dataIndex r.cfg r.k)) r.cfg.P = .ok v) ∧
    (r.stepped = false → v = w) ∧ (r.stepped = false → r.k < r.cfg.D → r.ww = w) ∧
    wflat r.ww = wflat v ∧ ∀ sortLex, wsimp r.ww r.cfg.opt sortLex = wsimp v r.cfg.opt sortLex := by
  obtain ⟨w, v, hw, hv, hww⟩ := h
  obtain ⟨w', hw', hh⟩ := unrolled_holds (validate_eq_ok.1 hr.valid).1 hr.k_le
  obtain rfl := Except.ok.inj (hw.symm.trans hw')
  have hvf : ∀ e ∈ v, wf e = true := by
    split at hv
    next hs =>
      obtain ⟨x, hx, hx1⟩ := hh.step (validate_eq_ok.1 hr.valid).1 (hr.stepped_lt hs)
      obtain rfl := Except.ok.inj (hv.symm.trans hx)
      exact hx1.elements.wf
    next => exact hv ▸ hh.elements.wf
  refine ⟨w, v, hw, fun hs => by simpa [hs] using hv, fun hs => by simpa [hs] using hv, fun hs hk => ?_, ?_, fun sortLex => ?_⟩
  · rcases hww with h | ⟨-, h | h, -⟩
    · simpa [hs, h] using hv
    · simp [hs] at h
    · omega
  · rcases hww with h | ⟨-, -, h⟩
    · rw [h]
    · rw [h, (passes_after_wflat hvf h).1]
  · rcases hww with h | ⟨hf, -, h⟩
    · rw [h]
    · exact (passes_after_wflat hvf h).2 _ hf _

/-! ### BITREV -/

/-- R109: bit `i` of the reversed vector. -/
theorem bitrev_getLsbD {n : Nat} (v : BitVec n) (i : Nat) :
    (bitrev v).getLsbD i = (decide (i < n) && v.getLsbD (n - 1 - i)) := by
  rw [bitrev, vecOfBits_getLsbD]
  by_cases h : i < n <;> simp [h]

end Sys2Proof.Machine
end

