-- ==== Sys2Proof/Laws/Step.lean ====
section
/-! SUPPORT. What an operation and a transition can do when they end in a next state, said once: each lemma lists every case, with
its guards (spec/10_state.md R19, R27; spec/30_encoding.md R56). -/

namespace Sys2Proof.Machine

open Sys2Proof Sys2Proof.Safety

/-- GEN on a Configuration raises exactly what VALIDATE raises on it (R120). -/
theorem gen_eq_error {c : Configuration} {e : Error} : gen c = .error e ↔ validate c = .error e := by
  refine ⟨fun h => ?_, gen_of_invalid⟩
  cases hv : validate c with
  | ok _ =>
    obtain ⟨w, hw, -⟩ := gen_holds hv
    cases hw.symm.trans h
  | error x => exact Except.error.inj ((gen_of_invalid hv).symm.trans h) ▸ rfl

/-- A GEN that delivers has a valid Configuration. -/
theorem validate_of_gen {c : Configuration} {w : Word} (h : gen c = .ok w) : validate c = .ok () := by
  cases hv : validate c with
  | ok _ => rfl
  | error e => cases h.symm.trans (gen_of_invalid hv)

theorem surface_of_validate {c : Configuration} {e : Error} (h : validate c = .error e) (s : State) :
    surface e s = .next (s.deliver (.failure e)) := by
  obtain ⟨k, rfl⟩ := validate_error h
  rfl

/-- R82: VALIDATE delivers, or a run of its own fails. -/
theorem execValidate_eq (c : CfgSrc) (s : State) : execValidate c s = .next (match validate (readCfg s c) with
    | .ok _ => s.deliver .unit
    | .error e => (s.record (Run.failed (readCfg s c) e)).deliver (.failure e)) := by
  cases h : validate (readCfg s c) with
  | ok _ => simp only [execValidate, h]
  | error e => simp only [execValidate, h, surface_of_validate h]

/-- R89: GEN delivers its Word, or a run of its own fails. -/
theorem execGen_eq (c : CfgSrc) (s : State) : execGen c s = .next (match gen (readCfg s c) with
    | .ok w => (s.record (Run.finished (readCfg s c) w)).deliver (outputOf w)
    | .error e => (s.record (Run.failed (readCfg s c) e)).deliver (.failure e)) := by
  cases h : gen (readCfg s c) with
  | ok w => simp only [execGen, h]
  | error e => simp only [execGen, h, surface_of_validate (gen_eq_error.1 h)]

/-- R24, R37, R127: an operation that is no part of the run the machine holds delivers, or a run of its own fails or ends done. -/
theorem exec_next_of_isCall {i : Instr} {s t : State} (hi : isCall i = true) (h : exec i s = .next t) :
    (∃ v, (∀ e, v ≠ .failure e) ∧ t = s.deliver v) ∨
    (∃ c e, (i = .validate c ∨ i = .gen c) ∧ validate (readCfg s c) = .error e ∧
      t = (s.record (Run.failed (readCfg s c) e)).deliver (.failure e)) ∨
    (∃ c w, i = .gen c ∧ gen (readCfg s c) = .ok w ∧
      t = (s.record (Run.finished (readCfg s c) w)).deliver (outputOf w)) := by
  have key : ∀ {x : Except Stop Value}, Delivers x → conclude x s = .next t → ∃ v, (∀ e, v ≠ .failure e) ∧ t = s.deliver v :=
    fun hx h => hx.next h
  have W := onlyFaults_readWord s
  have E := onlyFaults_readExpr s
  cases i <;> simp only [exec] at h
  case validate c =>
    rw [execValidate_eq] at h
    split at h <;> cases h
    next => exact .inl ⟨.unit, nofun, rfl⟩
    next e he => exact .inr (.inl ⟨c, e, .inl rfl, he, rfl⟩)
  case gen c =>
    rw [execGen_eq] at h
    split at h <;> cases h
    next w hw => exact .inr (.inr ⟨c, w, rfl, hw, rfl⟩)
    next e he => exact .inr (.inl ⟨c, e, .inr rfl, gen_eq_error.1 he, rfl⟩)
  all_goals left
  case mkin => exact key (.ok (by nofun)) h
  case mkconst => exact key (.ok (by nofun)) h
  case mkxor a => exact key (.andThen (W a) fun l => .orRaise (onlyViolations_mkxor l) fun _ => .ok (by nofun)) h
  case bxeq a b =>
    exact key (.andThen (E a) fun x => .andThen (E b) fun y => .orRaise (onlyViolations_bxeqChecked x y) fun _ => .ok (by nofun)) h
  case bxkey a => exact key (.andThen (E a) fun x => .orRaise (onlyViolations_bxkey x) fun _ => .ok (by nofun)) h
  case bxeval a c d => exact key (.andThen (E a) fun x => .orRaise (onlyViolations_bxeval _ _ x) fun _ => .ok (by nofun)) h
  case flatten a => exact key (.andThen (E a) fun x => .orRaise (onlyViolations_flatten x) fun _ => .ok (by nofun)) h
  case elim a => exact key (.andThen (E a) fun x => .orRaise (onlyViolations_elim x) fun _ => .ok (by nofun)) h
  case lexsort a => exact key (.andThen (E a) fun x => .orRaise (onlyViolations_lexsort x) fun _ => .ok (by nofun)) h
  case simplify a o b => exact key (.andThen (E a) fun x => .orRaise (onlyViolations_simplify x _ _) fun _ => .ok (by nofun)) h
  case inwords c =>
    cases c with
    | cfg => simp [isCall] at hi
    | lit c =>
      simp only [execInwords] at h
      split at h
      · simp at h
      · exact ⟨.inputs _ _, nofun, by simpa using h.symm⟩
  case stepl a =>
    cases a with
    | run => simp [isCall] at hi
    | call w d p =>
      exact key (.andThen (W w) fun x => .andThen (E d) fun y => .orRaise (onlyViolations_stepl _ _ _) fun _ => .ok (by nofun)) h
  case stepr a =>
    cases a with
    | run => simp [isCall] at hi
    | call w d p =>
      exact key (.andThen (W w) fun x => .andThen (E d) fun y => .orRaise (onlyViolations_stepr _ _ _) fun _ => .ok (by nofun)) h
  case wnew a => exact key (.andThen (W a) fun l => .ok (by nofun)) h
  case wget a j => exact key (.andThen (W a) fun l => .orRaise (onlyViolations_wget l j) fun _ => .ok (by nofun)) h
  case wflat a =>
    cases a with
    | run => simp [isCall] at hi
    | call w => exact key (.andThen (W w) fun x => .orRaise (onlyViolations_wflat _) fun _ => .ok (by nofun)) h
  case wsimp a =>
    cases a with
    | run => simp [isCall] at hi
    | call w d p => exact key (.andThen (W w) fun x => .orRaise (onlyViolations_wsimp _ _ _) fun _ => .ok (by nofun)) h
  case crcstep w c d =>
    refine key (.andThen (W w) fun x => ?_) h
    split
    exacts [.orRaise (onlyViolations_crcstep _ _ _) fun _ => .ok (by nofun), .refused _]
  case crcref => exact key (.ok (by nofun)) h
  case walk a r => exact key (.andThen (E a) fun x => .orRaise (onlyViolations_walkWith _ _) fun _ => .ok (by nofun)) h
  case crcstream w a =>
    refine key (.andThen (W w) fun x => ?_) h
    split
    exacts [.orRaise (onlyViolations_crcstream _ _ _ _) fun _ => .ok (by nofun), .refused _]
  case bitrev => exact key (.ok (by nofun)) h

/-- R19, R27: what an operation of the run the machine holds does. -/
theorem exec_next_of_run {i : Instr} {s t : State} (hi : isCall i = false) (h : exec i s = .next t) :
    (i = .inwords .cfg ∧ validate s.cfg = .ok () ∧ (t = s.deliver (.inputs (inwords s.cfg).1 (inwords s.cfg).2) ∨
      s.status = .running ∧ t = { s with inData := (inwords s.cfg).1, inCrc := (inwords s.cfg).2,
                                         result := some (.inputs (inwords s.cfg).1 (inwords s.cfg).2) })) ∨
    ((i = .stepl .run ∨ i = .stepr .run) ∧ s.status = .running ∧ s.stepped = false ∧ s.k < s.cfg.D ∧
      ∃ d w, wget s.inData (dataIndex s.cfg s.k) = .ok d ∧ stepWord s.cfg.right s.ww d s.cfg.P = .ok w ∧ t = s.shift w) ∨
    (i = .wflat .run ∧ s.status = .running ∧ s.cfg.opt.flatten = true ∧ (s.stepped = true ∨ s.k = s.cfg.D) ∧
      ∃ w, wflat s.ww = .ok w ∧ t = s.rebind w) ∨
    (i = .wsimp (.run false) ∧ s.status = .running ∧ s.stepped = true ∧
      ∃ w, wsimp s.ww s.cfg.opt false = .ok w ∧ t = s.advance w) ∨
    (i = .wsimp (.run true) ∧ s.status = .running ∧ s.stepped = false ∧ s.k = s.cfg.D ∧
      ∃ w, wsimp s.ww s.cfg.opt true = .ok w ∧ t = s.complete w) := by
  cases i <;> simp only [exec] at h
  case inwords c =>
    cases c with
    | lit c => simp [isCall] at hi
    | cfg =>
      refine .inl ⟨rfl, ?_⟩
      simp only [execInwords, readCfg] at h
      split at h
      · simp at h
      · next hv =>
        refine ⟨hv, ?_⟩
        split at h
        · next hr => exact .inr ⟨isRunning_iff.1 hr, by simpa using h.symm⟩
        · exact .inl (by simpa using h.symm)
  case stepl a =>
    cases a with
    | call w d p => simp [isCall] at hi
    | run =>
      simp only [execStepl] at h
      split at h
      · next hs =>
        simp [State.stepEnabled, isRunning_iff] at hs
        split at h
        · next w hw =>
          obtain ⟨d, hd, hw⟩ := bind_eq_ok.1 hw
          exact .inr (.inl ⟨.inl rfl, hs.1.1.1, hs.1.1.2, hs.1.2, d, w, hd, by simpa [stepWord, hs.2] using hw, by simpa using h.symm⟩)
        · next e hw => exact absurd h (raise_ne_next ((onlyViolations_wget _ _).bind fun _ => onlyViolations_stepl _ _ _) hw s t)
      · simp at h
  case stepr a =>
    cases a with
    | call w d p => simp [isCall] at hi
    | run =>
      simp only [execStepr] at h
      split at h
      · next hs =>
        simp [State.stepEnabled, isRunning_iff] at hs
        split at h
        · next w hw =>
          obtain ⟨d, hd, hw⟩ := bind_eq_ok.1 hw
          exact .inr (.inl ⟨.inr rfl, hs.1.1.1, hs.1.1.2, hs.1.2, d, w, hd, by simpa [stepWord, hs.2] using hw, by simpa using h.symm⟩)
        · next e hw => exact absurd h (raise_ne_next ((onlyViolations_wget _ _).bind fun _ => onlyViolations_stepr _ _ _) hw s t)
      · simp at h
  case wflat a =>
    cases a with
    | call w => simp [isCall] at hi
    | run =>
      simp only [execWflat] at h
      split at h
      · next hs =>
        simp [State.passDue, isRunning_iff, runsFlatten] at hs
        split at h
        · next w hw => exact .inr (.inr (.inl ⟨rfl, hs.1.1, hs.2, hs.1.2, w, hw, by simpa using h.symm⟩))
        · next e hw => exact absurd h (raise_ne_next (onlyViolations_wflat _) hw s t)
      · simp at h
  case wsimp a =>
    match a with
    | .call w d p => simp [isCall] at hi
    | .run false =>
      simp only [execWsimp] at h
      split at h
      · next hs =>
        simp [isRunning_iff] at hs
        split at h
        · next w hw => exact .inr (.inr (.inr (.inl ⟨rfl, hs.1, hs.2, w, hw, by simpa using h.symm⟩)))
        · next e hw => exact absurd h (raise_ne_next (onlyViolations_wsimp _ _ _) hw s t)
      · simp at h
    | .run true =>
      simp only [execWsimp] at h
      split at h
      · next hs =>
        simp [isRunning_iff] at hs
        split at h
        · next w hw => exact .inr (.inr (.inr (.inr ⟨rfl, hs.1.1, hs.1.2, hs.2, w, hw, by simpa using h.symm⟩)))
        · next e hw => exact absurd h (raise_ne_next (onlyViolations_wsimp _ _ _) hw s t)
      · simp at h
  all_goals simp [isCall] at hi

/-- R27: what the start of the next run does. -/
theorem startNext_next {s t : State} (h : startNext s = .next t) : ∃ c cs, s.supply = c :: cs ∧
    ((validate c = .ok () ∧ t = { s with toRun := Run.start c, supply := cs }) ∨
      ∃ e, validate c = .error e ∧ t = (({ s with cfg := c, supply := cs } : State).fail e).deliver (.failure e)) := by
  unfold startNext at h
  split at h
  · simp at h
  · next c cs hs =>
    refine ⟨c, cs, hs, ?_⟩
    simp only [startRun] at h
    split at h
    · next hv => exact .inl ⟨hv, by simpa using h.symm⟩
    · next e hv =>
      rw [raise, surface_of_validate hv] at h
      exact .inr ⟨e, hv, by simpa using h.symm⟩

/-- R27: what a transition does. -/
theorem runTransition_next {s t : State} (h : runTransition s = .next t) :
    (s.status = .running ∧
      ((s.stepped = true ∧ ∃ w, wsimp s.ww s.cfg.opt false = .ok w ∧ t = { s with ww := w, stepped := false, k := s.k + 1 }) ∨
       (s.stepped = false ∧ s.k < s.cfg.D ∧
         ∃ w, loopBody s.cfg s.inData s.k s.ww = .ok w ∧ t = { s with ww := w, k := s.k + 1 }) ∨
       (s.stepped = false ∧ s.k = s.cfg.D ∧ ∃ w, wsimp s.ww s.cfg.opt true = .ok w ∧ t = s.complete w))) ∨
    (s.status ≠ .running ∧ ∃ c cs, s.supply = c :: cs ∧
      ((validate c = .ok () ∧ t = { s with toRun := Run.start c, supply := cs }) ∨
        ∃ e, validate c = .error e ∧ t = (({ s with cfg := c, supply := cs } : State).fail e).deliver (.failure e))) := by
  unfold runTransition at h
  split at h
  · next hs =>
    refine .inl ⟨hs, ?_⟩
    split at h
    · next hp =>
      split at h
      · next w hw => exact .inl ⟨hp, w, hw, by simpa using h.symm⟩
      · next e hw => exact absurd h (raise_ne_next (onlyViolations_wsimp _ _ _) hw s t)
    · next hp =>
      have hp : s.stepped = false := by simpa using hp
      split at h
      · next hk =>
        split at h
        · next w hw => exact .inr (.inl ⟨hp, hk, w, hw, by simpa using h.symm⟩)
        · next e hw => exact absurd h (raise_ne_next (onlyViolations_loopBody _ _ _ _) hw s t)
      · split at h
        · next hk =>
          split at h
          · next w hw => exact .inr (.inr ⟨hp, hk, w, hw, by simpa using h.symm⟩)
          · next e hw => exact absurd h (raise_ne_next (onlyViolations_wsimp _ _ _) hw s t)
        · simp at h
  · next hs => exact .inr ⟨by simp [hs], startNext_next h⟩
  · next hs => exact .inr ⟨by simp [hs], startNext_next h⟩

/-- A step is a transition when no call is pending, and the next call otherwise. -/
theorem step_next {s t : State} (h : step s = .next t) :
    (s.calls = [] ∧ runTransition s = .next t) ∨
    ∃ i rest, decode s.calls = .ok (i, rest) ∧ exec i { s with calls := rest } = .next t := by
  simp only [step, stepOnce] at h
  split at h
  · next hc => exact .inl ⟨by simpa using hc, h⟩
  · right
    simp only [runCall] at h
    split at h
    · next i rest hd => exact ⟨i, rest, hd, h⟩
    · next e he => cases e <;> simp [decodeStop, stop] at h

/-- A run of `n + 1` steps is a step and a run of `n`. -/
theorem run_succ_eq_next (M : Host.Core) (n : Nat) (s t : M.State) :
    M.run (n + 1) s = .next t ↔ ∃ u, M.step s = .next u ∧ M.run n u = .next t := by
  rw [Host.Core.run]
  cases M.step s <;> simp

end Sys2Proof.Machine
end

