-- ==== Sys2Proof/Tests/Slice0.lean ====
section
/-! SUPPORT. The model's own tests. The expected values are those of spec/95_test_vectors.md (the vector is named at each
test) and of the encodings of spec/30_encoding.md; the packed form around the ordinals, tags and flag numbers is the model's
own (notes/assumptions/1.md). Then, for every statement with hypotheses, a witness that meets them. -/

namespace Sys2Proof.Tests

open Sys2Proof Sys2Proof.Machine Sys2Proof.Safety

set_option Elab.async false

/-! ### Helpers -/

/-- `In(crc, i)`. -/
abbrev c (i : Nat) : BitExpr := .input .crc i

/-- `In(data, i)`. -/
abbrev d (i : Nat) : BitExpr := .input .data i

/-- `Const(0)`. -/
abbrev zero : BitExpr := .const false

/-- `Const(1)`. -/
abbrev one : BitExpr := .const true

/-- `Xor[...]`. -/
abbrev X (l : List BitExpr) : BitExpr := .xorOf l

/-- The run of program 1 as it starts. -/
abbrev run1 : State := State.start ⟨3, 3, 2, false, optAll⟩

/-- The run of program 2 as it starts. -/
abbrev run2 : State := State.start ⟨12, 4, 3, true, optNone⟩

/-- The least run with a feedback, as it starts. -/
abbrev least : State := State.start ⟨1, 1, 1, false, optNone⟩

/-- The run of program 6 after it failed. -/
abbrev failedRun : State := (State.start ⟨0x107, 8, 8, false, optAll⟩).fail (.invalidConfiguration .polynomial)

/-- The run of program 1 with its first step taken and the pass after it due. -/
abbrev steppedRun : State := run1.shift [X [zero, X [c 2, d 1]], X [c 0, X [c 2, d 1]], c 1]

/-- A run that has ended on the Configuration of program 1, its input Word handed over. -/
abbrev doneRun : State := ({ run1 with k := 2 } : State).complete [c 0, c 1, c 2]

/-- ASCII "123456789" as data words. -/
abbrev digitWords : List (BitVec 8) := [0x31, 0x32, 0x33, 0x34, 0x35, 0x36, 0x37, 0x38, 0x39]

/-- The state of an outcome, if it is one. -/
def stateOf : Result → Option State
  | .next t => some t
  | .fault _ => none
  | .refused _ => none

/-- The fault of an outcome, if it is one. -/
def faultOf : Result → Option Fault
  | .next _ => none
  | .fault f => some f
  | .refused _ => none

/-- The refusal of an outcome, if it is one. -/
def refusalOf : Result → Option Refusal
  | .next _ => none
  | .fault _ => none
  | .refused r => some r

/-- What the operation delivers. -/
def delivered (i : Instr) (s : State) : Option Value := (stateOf (exec i s)).bind State.result

/-- What the operation delivers, if it leaves the run the machine holds as it is. -/
def deliveredBeside (i : Instr) (s : State) : Option Value :=
  (stateOf (exec i s)).bind fun t => if t.toRun = s.toRun then t.result else none

theorem eq_next {r : Result} {t : State} (h : stateOf r = some t) : r = .next t := by
  cases r <;> simp_all [stateOf]

theorem eq_fault {r : Result} {f : Fault} (h : faultOf r = some f) : r = .fault f := by
  cases r <;> simp_all [faultOf]

/-! ### Ill-formed terms: one for each check of WellFormed, and the decoder refuses its packed call -/

theorem test_bxeval_crc_width : (Instr.bxeval (.lit (c 0)) ⟨0, 0⟩ ⟨1, 0⟩).wellFormed = false := by decide

theorem test_bxeval_data_width : (Instr.bxeval (.lit (c 0)) ⟨1, 0⟩ ⟨0, 0⟩).wellFormed = false := by decide

theorem test_inwords_width : (Instr.inwords (.lit ⟨0, 0, 1, false, optNone⟩)).wellFormed = false := by decide

theorem test_inwords_data_width : (Instr.inwords (.lit ⟨0, 1, 0, false, optNone⟩)).wellFormed = false := by decide

theorem test_inwords_polynomial : (Instr.inwords (.lit ⟨2, 1, 1, false, optNone⟩)).wellFormed = false := by decide

theorem test_inwords_refused :
    decode (encode (.inwords (.lit ⟨2, 1, 1, false, optNone⟩))) = .error .illegalOperand := by decide +kernel

theorem test_stepl_empty_word : (Instr.stepl (.call (.lit []) (.lit (d 0)) .cfg)).wellFormed = false := by decide

theorem test_stepl_empty_refused :
    decode (encode (.stepl (.call (.lit []) (.lit (d 0)) .cfg))) = .error .illegalOperand := by decide +kernel

theorem test_stepr_empty_word : (Instr.stepr (.call (.lit []) (.lit (d 0)) .cfg)).wellFormed = false := by decide

theorem test_crcstep_width : (Instr.crcstep (.lit [c 0, c 0]) ⟨1, 0⟩ ⟨1, 0⟩).wellFormed = false := by decide

theorem test_crcstep_data_width : (Instr.crcstep (.lit [c 0]) ⟨1, 0⟩ ⟨0, 0⟩).wellFormed = false := by decide

theorem test_crcstep_refused :
    decode (encode (.crcstep (.lit [c 0, c 0]) ⟨1, 0⟩ ⟨1, 0⟩)) = .error .illegalOperand := by decide +kernel

theorem test_crcref_width : (Instr.crcref ⟨0, 1, 0, 0, 0, false⟩).wellFormed = false := by decide

theorem test_crcref_data_width : (Instr.crcref ⟨1, 0, 0, 0, 0, false⟩).wellFormed = false := by decide

theorem test_walk_width : (Instr.walk (.lit (c 0)) (.value ⟨0, 0⟩ ⟨1, 0⟩)).wellFormed = false := by decide

theorem test_crcstream_width : (Instr.crcstream (.lit [c 0, c 0]) ⟨1, 1, 0, [], 0⟩).wellFormed = false := by decide

theorem test_crcstream_data_width : (Instr.crcstream (.lit [c 0]) ⟨1, 0, 0, [], 0⟩).wellFormed = false := by decide

/-! ### Words written out: the ordinal of R56 first, then the packed operands -/

theorem test_decode_mkin : decode [0x00, 0x00, 0x03] = .ok (.mkin .crc 3, []) := by decide +kernel

theorem test_decode_mkconst : decode [0x01, 0x01] = .ok (.mkconst true, []) := by decide +kernel

/-- R50: tag 0 with payload `2 * 7 + 0`, tag 0 with payload `2 * 0 + 1`. -/
theorem test_decode_mkxor : decode [0x02, 0x03, 0x02, 0x38, 0x04] = .ok (.mkxor (.lit [c 7, d 0]), []) := by
  decide +kernel

theorem test_decode_bxeq : decode [0x03, 0x03, 0x18, 0x01, 0x02] = .ok (.bxeq (.lit (c 3)) (.elem .inCrc 2), []) := by
  decide +kernel

theorem test_decode_bxkey : decode [0x04, 0x03, 0x01] = .ok (.bxkey (.lit zero), []) := by decide +kernel

theorem test_decode_bxeval : decode [0x05, 0x03, 0x05, 0x02, 0x05, 0x01, 0x02] =
    .ok (.bxeval (.lit one) ⟨3, 5⟩ ⟨2, 2⟩, []) := by decide +kernel

theorem test_decode_flatten : decode [0x10, 0x03, 0x0A, 0x00, 0x06, 0x05] =
    .ok (.flatten (.lit (X [c 0, X [one]])), []) := by decide +kernel

theorem test_decode_elim : decode [0x11, 0x03, 0x02] = .ok (.elim (.lit (X [])), []) := by decide +kernel

theorem test_decode_lexsort : decode [0x12, 0x02, 0x00] = .ok (.lexsort (.elem .inData 0), []) := by decide +kernel

/-- R47: the flag set 5 is `flatten` and `lexicographic-sort`. -/
theorem test_decode_simp : decode [0x13, 0x03, 0x04, 0x06, 0x01] =
    .ok (.simplify (.lit (d 0)) (.lit ⟨true, false, true⟩) true, []) := by decide +kernel

theorem test_decode_validate : decode [0x20, 0x01, 0x87, 0x02, 0x08, 0x08, 0x00, 0x07] =
    .ok (.validate (.lit ⟨0x107, 8, 8, false, optAll⟩), []) := by decide +kernel

theorem test_decode_inwords : decode [0x21, 0x01, 0x03, 0x03, 0x02, 0x00, 0x00] =
    .ok (.inwords (.lit ⟨3, 3, 2, false, optNone⟩), []) := by decide +kernel

theorem test_decode_stepl : decode [0x22, 0x01] = .ok (.stepl .run, []) := by decide +kernel

theorem test_decode_stepr : decode [0x23, 0x00, 0x00, 0x02, 0x01, 0x0D] =
    .ok (.stepr (.call (.reg .ww) (.elem .inData 1) (.lit 12)), []) := by decide +kernel

theorem test_decode_gen : decode [0x24, 0x01, 0x0C, 0x04, 0x03, 0x01, 0x02] =
    .ok (.gen (.lit ⟨12, 4, 3, true, ⟨false, true, false⟩⟩), []) := by decide +kernel

theorem test_decode_wnew : decode [0x30, 0x03, 0x02, 0x00, 0x08] = .ok (.wnew (.lit [c 0, c 1]), []) := by
  decide +kernel

theorem test_decode_wget : decode [0x31, 0x00, 0x02] = .ok (.wget (.reg .ww) 2, []) ∧
    decode [0x31, 0x04, 0x02] = .ok (.wget (.reg .out) 2, []) := by decide +kernel

theorem test_decode_wflat : decode [0x32, 0x00, 0x00] = .ok (.wflat (.call (.reg .ww)), []) := by decide +kernel

theorem test_decode_wsimp : decode [0x33, 0x01, 0x01, 0x33, 0x00, 0x01, 0x00, 0x00] =
    .ok (.wsimp (.run true), [0x33, 0x00, 0x01, 0x00, 0x00]) := by decide +kernel

theorem test_decode_crcstep : decode [0x40, 0x00, 0x07, 0xFF, 0x01, 0x07, 0x00] =
    .ok (.crcstep (.reg .ww) ⟨8, 0xFF⟩ ⟨8, 0⟩, []) := by decide +kernel

theorem test_decode_crcref : decode [0x41, 0x03, 0x02, 0x0A, 0x05, 0x0C, 0x01] =
    .ok (.crcref ⟨4, 3, 0xA, 5, 0xC, true⟩, []) := by decide +kernel

theorem test_decode_walk : decode [0x42, 0x00, 0x01, 0x00, 0x01, 0x01, 0x00] =
    .ok (.walk (.elem .ww 1) (.text .call .xorWord false), []) := by decide +kernel

theorem test_decode_crcstream : decode [0x43, 0x00, 0x07, 0x07, 0x5A, 0x01, 0x31, 0xFF, 0x01] =
    .ok (.crcstream (.reg .ww) ⟨8, 8, 0x5A, [0x31], 0xFF⟩, []) := by decide +kernel

theorem test_decode_bitrev : decode [0x44, 0x08, 0x07] = .ok (.bitrev ⟨8, 0x07⟩, []) := by decide +kernel

/-- V-E10: ordinals that R56 does not list. -/
theorem test_decode_unlisted : decode [0x06] = .error (.unknownOrdinal 0x06) ∧
    decode [0x50] = .error (.unknownOrdinal 0x50) ∧ decode [0x14] = .error (.unknownOrdinal 0x14) := by decide +kernel

/-- V-E9: node tag 3. -/
theorem test_decode_tag3 : decode [0x04, 0x03, 0x03] = .error .reservedTag := by decide +kernel

/-- Every row of the opcode table, its operands zero, is decoded and runs as the first call after reset, to a next state. -/
theorem test_table_rows : ∀ o ∈ [0x00, 0x01, 0x02, 0x03, 0x04, 0x05, 0x10, 0x11, 0x12, 0x13, 0x20, 0x21, 0x22, 0x23, 0x24,
      0x30, 0x31, 0x32, 0x33, 0x40, 0x41, 0x42, 0x43, 0x44],
    (decodeTableWord 8 o).map Instr.ordinal = some o ∧
    (stateOf (step (State.reset.withFetchWord 8 o))).isSome = true := by decide +kernel

/-! ### The Bit Expression Model -/

/-- V-B2. -/
theorem test_mkin : delivered (.mkin .data 12) .reset = some (.expr (d 12)) := by decide +kernel

/-- V-B3. -/
theorem test_mkconst : delivered (.mkconst true) .reset = some (.expr one) := by decide +kernel

/-- V-B6. -/
theorem test_mkxor : delivered (.mkxor (.lit [c 0, X [c 0, d 0], c 0])) .reset =
    some (.expr (X [c 0, X [c 0, d 0], c 0])) := by decide +kernel

/-- V-B7. -/
theorem test_mkxor_empty : exec (.mkxor (.lit [])) .reset = .fault (.contractViolation .emptyXor) :=
  eq_fault (by decide +kernel)

/-- spec/92_eei_decisions.md D13: an operand that holds an empty `Xor`, where the result would not need its value. -/
theorem test_empty_operand : ∀ i ∈ [Instr.mkxor (.lit [c 0, X []]), .bxeq (.lit (X [])) (.lit (X [])),
      .stepl (.call (.reg .ww) (.lit (X [])) .cfg), .stepr (.call (.reg .ww) (.lit (X [])) .cfg)],
    exec i run1 = .fault (.contractViolation .emptyXor) := fun i hi => eq_fault (by revert i; decide +kernel)

/-- V-B11. -/
theorem test_bxeq_order : delivered (.bxeq (.lit (X [c 0, d 0])) (.lit (X [d 0, c 0]))) .reset = some (.bool false) := by
  decide +kernel

/-- V-B14. -/
theorem test_bxeq_nested : delivered (.bxeq (.lit (X [c 0, X [d 0]])) (.lit (X [c 0, X [d 0]]))) .reset =
    some (.bool true) := by decide +kernel

/-- V-B16. -/
theorem test_bxkey_leaf : delivered (.bxkey (.lit (d 12))) .reset =
    some (.key ['d', 'a', 't', 'a', '0', '0', '0', '0', '0', '1', '2']) := by decide +kernel

/-- V-B19. -/
theorem test_bxkey_nested : delivered (.bxkey (.lit (X [c 1, X [d 0, one]]))) .reset =
    some (.key "crc0000001data00000001".toList) := by decide +kernel

/-- V-B26. -/
theorem test_bxeval : delivered (.bxeval (.lit (X [c 0, X [c 2, d 1]])) ⟨3, 0b101⟩ ⟨2, 0b10⟩) .reset =
    some (.bit true) := by decide +kernel

/-- V-B30. -/
theorem test_bxeval_out_of_range : exec (.bxeval (.lit (c 3)) ⟨3, 0⟩ ⟨2, 0⟩) .reset =
    .fault (.contractViolation .indexOutOfRange) := eq_fault (by decide +kernel)

/-! ### The XOR Simplifier -/

/-- V-S4. -/
theorem test_flatten : delivered (.flatten (.lit (X [X [c 0, X [c 1, X [c 2]]], d 0]))) .reset =
    some (.expr (X [c 0, c 1, c 2, d 0])) := by decide +kernel

/-- V-S4b. -/
theorem test_flatten_empty : exec (.flatten (.lit (X [c 0, X []]))) .reset = .fault (.contractViolation .emptyXor) :=
  eq_fault (by decide +kernel)

/-- V-S9. -/
theorem test_elim_ones : delivered (.elim (.lit (X [one, c 0, zero, one, one]))) .reset =
    some (.expr (X [c 0, one])) := by decide +kernel

/-- V-S7. -/
theorem test_elim_mixed : delivered (.elim (.lit (X [d 1, c 0, d 1, c 2, c 0, c 0]))) .reset =
    some (.expr (X [c 0, c 2])) := by decide +kernel

/-- V-S20. -/
theorem test_lexsort : delivered (.lexsort (.lit (X [d 0, c 2, one, c 10, c 9]))) .reset =
    some (.expr (X [one, c 2, c 9, c 10, d 0])) := by decide +kernel

/-- V-S23. -/
theorem test_lexsort_stable : delivered (.lexsort (.lit (X [d 0, X [c 5], c 5]))) .reset =
    some (.expr (X [X [c 5], c 5, d 0])) := by decide +kernel

/-- V-S31. -/
theorem test_simp_no_elim : delivered
    (.simplify (.lit (X [zero, X [c 2, d 1], X [c 1, X [c 2, d 0]]])) (.lit ⟨true, false, true⟩) true) .reset =
    some (.expr (X [zero, c 2, d 1, c 1, c 2, d 0])) := by decide +kernel

/-- V-S35. -/
theorem test_simp_all : delivered
    (.simplify (.lit (X [zero, X [c 2, d 1], X [c 1, X [c 2, d 0]]])) (.lit optAll) true) .reset =
    some (.expr (X [c 1, d 0, d 1])) := by decide +kernel

/-! ### The Register Unroll Algorithm -/

/-- V-U3a: the first failing check. -/
theorem test_validate_first_check : delivered (.validate (.lit ⟨1, 0, 0, false, optNone⟩)) .reset =
    some (.failure (.invalidConfiguration .crcWidth)) := by decide +kernel

/-- V-U4a and program 6, beside a running run, which goes on (R127). -/
theorem test_validate_polynomial : deliveredBeside (.validate (.lit ⟨0x107, 8, 8, false, optAll⟩)) steppedRun =
    some (.failure (.invalidConfiguration .polynomial)) := by decide +kernel

/-- V-U6a. -/
theorem test_inwords : delivered (.inwords (.lit ⟨3, 3, 2, false, optNone⟩)) .reset =
    some (.inputs [d 0, d 1] [c 0, c 1, c 2]) := by decide +kernel

/-- V-U8a. -/
theorem test_stepl : delivered (.stepl (.call (.lit [c 0, c 1, c 2]) (.lit (d 1)) (.lit 0b011))) .reset =
    some (.word [X [zero, X [c 2, d 1]], X [c 0, X [c 2, d 1]], c 1]) := by decide +kernel

/-- Program 1, step 0: the run's own step reads `data[1]` and builds the working Word; the pass is then due. -/
theorem test_stepl_run : (stateOf (exec (.stepl .run) run1)).map (fun t => (t.ww, t.k, t.stepped)) =
    some ([X [zero, X [c 2, d 1]], X [c 0, X [c 2, d 1]], c 1], 0, true) := by decide +kernel

/-- V-U8e. -/
theorem test_stepr : delivered (.stepr (.call (.lit [c 0, c 1, c 2]) (.lit (d 0)) (.lit 0b101))) .reset =
    some (.word [X [c 1, X [c 0, d 0]], c 2, X [zero, X [c 0, d 0]]]) := by decide +kernel

/-- Program 2, step 0. -/
theorem test_stepr_run : (stateOf (exec (.stepr .run) run2)).map (fun t => (t.ww, t.k, t.stepped)) =
    some ([c 1, c 2, X [c 3, X [c 0, d 0]], X [zero, X [c 0, d 0]]], 0, true) := by decide +kernel

/-- Program 1, what it delivers, called beside a running run on another Configuration, which goes on (R127). -/
theorem test_gen : deliveredBeside (.gen (.lit ⟨3, 3, 2, false, optAll⟩)) run2 =
    some (.output [X [c 1, d 0], X [c 1, c 2, d 0, d 1], X [c 0, c 2, d 1]] ['c', 'r', 'c'] ['d', 'a', 't', 'a']) := by
  decide +kernel

/-- V-U12, flag set 6. -/
theorem test_gen_no_flatten : delivered (.gen (.lit ⟨3, 3, 2, false, ⟨false, true, true⟩⟩)) .reset =
    some (.output [X [X [c 1, d 0]], X [X [c 1, d 0], X [X [c 2, d 1]]], X [c 0, X [c 2, d 1]]]
      ['c', 'r', 'c'] ['d', 'a', 't', 'a']) := by decide +kernel

/-- Program 1, one transition of the run: the step and the pass that does not sort. -/
theorem test_transition : (stateOf (step run1)).map (fun t => (t.ww, t.k, t.status)) =
    some ([X [c 2, d 1], X [c 0, c 2, d 1], c 1], 1, .running) := by decide +kernel

/-- R27: the transition `start` on the Configuration of program 1: the state program 1 starts in, what was delivered and how the run before ended kept. -/
theorem test_start : step (failedRun.supplyRun ⟨3, 3, 2, false, optAll⟩) =
    .next { run1 with result := failedRun.result, ended := failedRun.ended } := eq_next (by decide +kernel)

/-- R27, R123: `start` on the Configuration of program 6, after a run that is done: the run is failed. -/
theorem test_start_invalid :
    (stateOf (step (doneRun.supplyRun ⟨0x107, 8, 8, false, optAll⟩))).map (fun t => (t.status, t.supply)) =
      some (.failed (.invalidConfiguration .polynomial), []) := by decide +kernel

/-! ### The Word Container -/

/-- V-W1. -/
theorem test_wnew : delivered (.wnew (.lit [c 0, c 1])) .reset = some (.word [c 0, c 1]) := by decide +kernel

/-- V-W2. -/
theorem test_wget : delivered (.wget (.lit [c 0, c 1, c 2]) 2) .reset = some (.expr (c 2)) := by decide +kernel

/-- V-W3. -/
theorem test_wget_out_of_range : exec (.wget (.lit [c 0, c 1, c 2]) 3) .reset =
    .fault (.contractViolation .indexOutOfRange) := eq_fault (by decide +kernel)

/-- V-W4. -/
theorem test_wflat : delivered (.wflat (.call (.lit [X [zero, X [c 1, d 0]],
      X [X [zero, X [c 2, d 1]], X [c 1, d 0]], X [c 0, X [c 2, d 1]]]))) .reset =
    some (.word [X [zero, c 1, d 0], X [zero, c 2, d 1, c 1, d 0], X [c 0, c 2, d 1]]) := by decide +kernel

/-- R19, R27: the run's own WFLAT after program 1's first step; with no pass due it is refused. -/
theorem test_wflat_run :
    (stateOf (exec (.wflat .run) steppedRun)).map (fun t => t.ww) = some [X [zero, c 2, d 1], X [c 0, c 2, d 1], c 1] ∧
    refusalOf (exec (.wflat .run) run1) = some .noTransition := by decide +kernel

/-- V-W11. -/
theorem test_wflat_empty : exec (.wflat (.call (.lit [c 0, X [c 1, X []]]))) .reset =
    .fault (.contractViolation .emptyXor) := eq_fault (by decide +kernel)

/-- V-W5. -/
theorem test_wsimp : delivered (.wsimp (.call (.lit [X [zero, X [c 1, d 0]],
      X [X [zero, X [c 2, d 1]], X [c 1, d 0]], X [c 0, X [c 2, d 1]]]) (.lit optAll) true)) .reset =
    some (.word [X [c 1, d 0], X [c 1, c 2, d 0, d 1], X [c 0, c 2, d 1]]) := by decide +kernel

/-- V-W7. -/
theorem test_wsimp_elim_only : delivered (.wsimp (.call (.lit [X [zero, X [c 1, d 0]],
      X [X [zero, X [c 2, d 1]], X [c 1, d 0]], X [c 0, X [c 2, d 1]]]) (.lit ⟨false, true, false⟩) true)) .reset =
    some (.word [X [X [c 1, d 0]], X [X [zero, X [c 2, d 1]], X [c 1, d 0]], X [c 0, X [c 2, d 1]]]) := by
  decide +kernel

/-! ### The datapath -/

/-- Program 1's truth table, `crc` 5 and `data` 2. -/
theorem test_crcstep : delivered (.crcstep (.lit [X [c 1, d 0], X [c 1, c 2, d 0, d 1], X [c 0, c 2, d 1]]) ⟨3, 5⟩ ⟨2, 2⟩)
    .reset = some (.bits ⟨3, 4⟩) := by decide +kernel

/-- V-E8; and D26: the run of program 1 has `D = 2`, so `data` of three bits is no argument beside its Word. -/
theorem test_crcstep_widths :
    faultOf (exec (.crcstep (.lit [c 8]) ⟨8, 0⟩ ⟨8, 0⟩) .reset) = some (.contractViolation .indexOutOfRange) ∧
    refusalOf (exec (.crcstep (.reg .ww) ⟨3, 5⟩ ⟨3, 2⟩) run1) = some .widthDisagreement := by decide +kernel

/-- V-D3, left. -/
theorem test_crcref_left : delivered (.crcref ⟨8, 8, 0xFF, 0, 0x07, false⟩) .reset = some (.bits ⟨8, 0xF3⟩) := by
  decide +kernel

/-- V-D3, right. -/
theorem test_crcref_right : delivered (.crcref ⟨4, 3, 0xA, 5, 0xC, true⟩) .reset = some (.bits ⟨4, 8⟩) := by
  decide +kernel

/-- V-D8, the second renderer. -/
theorem test_walk_text : delivered (.walk (.lit (X [c 1, d 10])) (.text .call .xorWord true)) .reset =
    some (.rendered (.text "crc_in(1) xor data_in(10)".toList)) := by decide +kernel

/-- V-D8, the leaf counter on a tree with a repeated leaf and the nesting depth on V-D8's tree and on one level more. -/
theorem test_walk_counts :
    delivered (.walk (.lit (X [c 1, X [c 1, zero]])) .leafCount) .reset = some (.rendered (.number 3)) ∧
    delivered (.walk (.lit (X [c 1, c 2, d 0, d 1])) .depth) .reset = some (.rendered (.number 1)) ∧
    delivered (.walk (.lit (X [c 1, X [c 2]])) .depth) .reset = some (.rendered (.number 2)) := by decide +kernel

/-- S3, program 4: the source's check value of CRC-32, on the Word GEN builds. -/
theorem test_crcstream_check :
    ((stateOf (exec (.gen (.lit ⟨0xEDB88320, 32, 8, true, optAll⟩)) .reset)).bind fun t =>
      delivered (.crcstream (.reg .out) ⟨32, 8, 0xFFFFFFFF, digitWords, 0xFFFFFFFF⟩) t) =
    some (.bits ⟨32, 0xCBF43926⟩) := by decide +kernel

/-- V-D15, the empty list. -/
theorem test_crcstream_empty : delivered (.crcstream (.lit (List.replicate 8 zero)) ⟨8, 8, 0x5A, [], 0xFF⟩) .reset =
    some (.bits ⟨8, 0xA5⟩) := by decide +kernel

/-- V-D11. -/
theorem test_bitrev : delivered (.bitrev ⟨32, 0x04C11DB7⟩) .reset = some (.bits ⟨32, 0xEDB88320⟩) := by decide +kernel

/-- V-D12. -/
theorem test_bitrev_width : delivered (.bitrev ⟨16, 0x07⟩) .reset = some (.bits ⟨16, 0xE000⟩) := by decide +kernel

/-! ### Witnesses: for every statement with hypotheses, states and operands that meet them, clause by clause -/

theorem witness_ResetIsTheStartOfARun :
    0 < State.resetCfg.W ∧ 0 < State.resetCfg.D ∧ State.resetCfg.W - 1 < State.resetCfg.W := by decide

theorem witness_StepRunsTheNextCall :
    decode ({ run1 with calls := [0x22, 0x01, 0x06] } : State).calls = .ok (.stepl .run, [0x06]) ∧
    (Instr.mkin .data 300).wellFormed = true ∧
    ({ run1 with calls := encode (.mkin .data 300) ++ [0xFF] } : State).calls = encode (.mkin .data 300) ++ [0xFF] ∧
    decode (tableBytes 8 0x44) = .ok (.bitrev ⟨0, 0⟩, List.replicate 14 0) := by decide +kernel

/-- The first and the last unlisted ordinal and one between two families; the least node header of tag 3 and one of two
groups; a place before a node of each kind, and one two levels deep, with operands before it on both levels. -/
theorem witness_ReservedEncodingsStop :
    (∀ op ∈ [(0x06 : Byte), 0x14, 0xFF], ({ run1 with calls := op :: [0x00] } : State).calls = op :: [0x00] ∧
      op.toNat ∉ [0x00, 0x01, 0x02, 0x03, 0x04, 0x05, 0x10, 0x11, 0x12, 0x13, 0x20, 0x21, 0x22, 0x23, 0x24, 0x30, 0x31,
        0x32, 0x33, 0x40, 0x41, 0x42, 0x43, 0x44]) ∧
    (∀ h ∈ [3, 131], h % 4 = 3) ∧
    BeforeNode (0x04 :: encodeNat 3) ∧ BeforeNode (0x03 :: (encodeExprSrc (.elem .ww 0) ++ encodeNat 3)) ∧
    BeforeNode (0x30 :: (encodeNat 3 ++ (encodeNat 2 ++ encodeMany encodeExpr [c 0]))) ∧
    BeforeNode (0x33 :: (encodeBool false ++ (encodeNat 3 ++ (encodeNat 1 ++ encodeMany encodeExpr [])))) ∧
    BeforeNode (0x23 :: (encodeBool false ++ (encodeWordSrc (.reg .ww) ++ encodeNat 3))) ∧
    BeforeNode (((0x10 :: encodeNat 3) ++ (encodeNat (4 * 2 + 2) ++ encodeMany encodeExpr [c 0])) ++
      (encodeNat (4 * 3 + 2) ++ encodeMany encodeExpr [one, X [d 0]])) :=
  ⟨by decide +kernel, by decide, .operand 0x04 (by decide), .second (.elem .ww 0), .element 0x30 2 [c 0] (by decide) (by decide),
    .elementOfCall 0x33 1 [] (by decide) (by decide), .dataBit 0x23 (.reg .ww) (by decide),
    .nested _ 3 [one, X [d 0]] (.nested _ 2 [c 0] (.operand 0x10 (by decide)) (by decide)) (by decide)⟩

/-- The first step of program 1, the first and the last of program 2's run, a pass the caller has begun, the finish, the two states
with no transition while nothing is supplied, and the start of a run on a valid and on an invalid Configuration. -/
theorem witness_StepWithNoCallTakesTheTransition :
    (run1.calls = [] ∧ run1.status = .running ∧ run1.stepped = false ∧ run1.k < run1.cfg.D ∧
      exec (.stepl (.call (.reg .ww) (.elem .inData (run1.cfg.D - 1 - run1.k)) .cfg)) run1 =
        .next { run1 with result := some (.word [X [zero, X [c 2, d 1]], X [c 0, X [c 2, d 1]], c 1]) } ∧
      exec (.wsimp (.call (.lit [X [zero, X [c 2, d 1]], X [c 0, X [c 2, d 1]], c 1]) .cfg false)) run1 =
        .next { run1 with result := some (.word [X [c 2, d 1], X [c 0, c 2, d 1], c 1]) }) ∧
    (let last : State := { run2 with k := 2 }
     last.status = .running ∧ last.stepped = false ∧ last.k < last.cfg.D ∧ last.k + 1 = last.cfg.D ∧
      exec (.stepr (.call (.reg .ww) (.elem .inData last.k) .cfg)) last =
        .next { last with result := some (.word [c 1, c 2, X [c 3, X [c 0, d 2]], X [zero, X [c 0, d 2]]]) } ∧
      exec (.wsimp (.call (.lit [c 1, c 2, X [c 3, X [c 0, d 2]], X [zero, X [c 0, d 2]]]) .cfg false)) last =
        .next { last with result := some (.word [c 1, c 2, X [c 3, X [c 0, d 2]], X [zero, X [c 0, d 2]]]) }) ∧
    (steppedRun.calls = [] ∧ steppedRun.status = .running ∧ steppedRun.stepped = true ∧
      exec (.wsimp (.call (.reg .ww) .cfg false)) steppedRun =
        .next { steppedRun with result := some (.word [X [c 2, d 1], X [c 0, c 2, d 1], c 1]) }) ∧
    (let finish : State := { run1 with k := 2 }
     finish.status = .running ∧ finish.stepped = false ∧ finish.k = finish.cfg.D ∧
      exec (.wsimp (.call (.reg .ww) .cfg true)) finish = .next { finish with result := some (.word [c 0, c 1, c 2]) }) ∧
    (doneRun.status ≠ .running ∧ failedRun.status ≠ .running ∧ failedRun.calls = [] ∧ failedRun.supply = [] ∧
      doneRun.supply = []) ∧
    (doneRun.supplyRun ⟨1, 1, 1, false, optNone⟩).supply = ⟨1, 1, 1, false, optNone⟩ :: [] ∧
    validate ⟨1, 1, 1, false, optNone⟩ = .ok () ∧
    (failedRun.supplyRun ⟨2, 1, 1, false, optNone⟩).supply = ⟨2, 1, 1, false, optNone⟩ :: [] ∧
    validate ⟨2, 1, 1, false, optNone⟩ = .error (.invalidConfiguration .polynomial) :=
  ⟨⟨by decide, by decide, by decide, by decide, eq_next (by decide +kernel), eq_next (by decide +kernel)⟩,
   ⟨by decide, by decide, by decide, by decide, eq_next (by decide +kernel), eq_next (by decide +kernel)⟩,
   ⟨by decide, by decide, by decide, eq_next (by decide +kernel)⟩,
   ⟨by decide, by decide, by decide, eq_next (by decide +kernel)⟩, by decide, by decide, by decide, by decide, by decide⟩

/-- The least valid Configuration and one with `P = 2^W - 1`; a state that starts a run on each. -/
theorem witness_TransitionsOfARunAreGen : ∀ x ∈ [(⟨0, 1, 1, false, optNone⟩ : Configuration), ⟨0xFF, 8, 8, true, optAll⟩],
    validate x = .ok () ∧ (doneRun.supplyRun x).calls = [] ∧ (doneRun.supplyRun x).status ≠ .running ∧
    (doneRun.supplyRun x).supply = x :: [] := by decide +kernel

theorem witness_GenIsItsSequenceOfOperations :
    validate ⟨1, 1, 1, true, optAll⟩ = .ok () ∧
    validate (readCfg run1 (.lit ⟨0x100, 8, 8, false, optNone⟩)) = .error (.invalidConfiguration .polynomial) := by
  decide +kernel

theorem witness_GenCompletesOnEveryValidConfiguration :
    validate (readCfg failedRun (.lit ⟨1, 1, 1, false, optNone⟩)) = .ok () ∧ validate (readCfg run1 .cfg) = .ok () := by
  decide +kernel

theorem witness_GenIgnoresThePast :
    failedRun.calls = run1.calls ∧ failedRun.supply = run1.supply ∧ failedRun ≠ run1 := by decide

/-- Each check at its boundary. -/
theorem witness_ValidateChecksInOrder :
    (readCfg run1 (.lit ⟨1, 0, 0, false, optNone⟩)).W < 1 ∧
    (1 ≤ (readCfg run1 (.lit ⟨2, 1, 0, false, optNone⟩)).W ∧ (readCfg run1 (.lit ⟨2, 1, 0, false, optNone⟩)).D < 1) ∧
    (1 ≤ (readCfg run1 (.lit ⟨0x100, 8, 1, false, optNone⟩)).W ∧ 1 ≤ (readCfg run1 (.lit ⟨0x100, 8, 1, false, optNone⟩)).D ∧
      2 ^ (readCfg run1 (.lit ⟨0x100, 8, 1, false, optNone⟩)).W - 1 < (readCfg run1 (.lit ⟨0x100, 8, 1, false, optNone⟩)).P) ∧
    (1 ≤ (readCfg run1 (.lit ⟨0xFF, 8, 1, false, optNone⟩)).W ∧ 1 ≤ (readCfg run1 (.lit ⟨0xFF, 8, 1, false, optNone⟩)).D ∧
      (readCfg run1 (.lit ⟨0xFF, 8, 1, false, optNone⟩)).P ≤ 2 ^ (readCfg run1 (.lit ⟨0xFF, 8, 1, false, optNone⟩)).W - 1) := by
  decide +kernel

/-- A VALIDATE that raises beside a running run, which goes on; a GEN that raises; a call that leaves a failed run failed; the pass
that ends a run; a start that makes a run fail and one that leaves the failed status. -/
theorem witness_OnlyConfigurationsFail :
    (∃ t, exec (.validate (.lit ⟨0, 0, 1, false, optNone⟩)) run1 = .next t ∧ t.status = .running ∧
      t.result = some (.failure (.invalidConfiguration .crcWidth)) ∧
      ∃ r, t.ended = r :: run1.ended ∧ r.status = .failed (.invalidConfiguration .crcWidth)) ∧
    (∃ t, exec (.gen (.lit ⟨0, 1, 0, false, optNone⟩)) failedRun = .next t ∧
      t.result = some (.failure (.invalidConfiguration .dataWidth))) ∧
    (∃ t, exec (.mkin .crc 0) failedRun = .next t ∧ failedRun.status = .failed (.invalidConfiguration .polynomial) ∧
      t.status = .failed (.invalidConfiguration .polynomial)) ∧
    (∃ t, exec (.wsimp (.run true)) { run1 with k := 2 } = .next t ∧ t.status = .done) ∧
    (∃ t, (doneRun.supplyRun ⟨2, 1, 1, false, optNone⟩).calls = [] ∧ step (doneRun.supplyRun ⟨2, 1, 1, false, optNone⟩) = .next t ∧
      t.status = .failed (.invalidConfiguration .polynomial)) ∧
    ∃ t, step (failedRun.supplyRun ⟨1, 1, 1, false, optNone⟩) = .next t ∧
      (failedRun.supplyRun ⟨1, 1, 1, false, optNone⟩).status = .failed (.invalidConfiguration .polynomial) :=
  ⟨⟨_, rfl, rfl, rfl, _, rfl, rfl⟩, ⟨_, rfl, rfl⟩, ⟨_, rfl, rfl, rfl⟩, ⟨_, rfl, rfl⟩, ⟨_, rfl, rfl, rfl⟩, ⟨_, rfl, rfl⟩⟩

theorem witness_OperationsThatNeverFault :
    readExpr run1 (.lit (X [c 0])) = .ok (X [c 0]) ∧ wf (X [c 0]) = true ∧ readExpr run1 (.elem .inData 1) = .ok (d 1) ∧
    wf (d 1) = true ∧ readWord run1 (.reg .ww) = .ok [c 0, c 1, c 2] ∧ (∀ e ∈ [c 0, c 1, c 2], wf e = true) ∧
    [c 0, c 1, c 2] ≠ ([] : Word) ∧ readWord run1 (.lit [X []]) = .ok [X []] := by decide +kernel

/-- A step called with operands, a VALIDATE that raises and a GEN, each beside a running run. -/
theorem witness_CallsLeaveTheRunAlone :
    ∀ i ∈ [Instr.stepl (.call (.reg .ww) (.elem .inData 1) .cfg), .validate (.lit ⟨2, 1, 1, false, optNone⟩),
        .gen (.lit ⟨1, 1, 1, false, optNone⟩)],
      isCall i = true ∧ (stateOf (exec i run1)).isSome = true := by decide +kernel

/-- The run's own step, an INWORDS of the run, a transition of a running run, and the start of another. -/
theorem witness_ConfigurationIsImmutable :
    (∃ t, exec (.inwords .cfg) run1 = .next t) ∧
    (∃ t, exec (.stepl .run) run1 = .next t ∧ Instr.stepl .run ≠ .inwords .cfg) ∧
    (∃ t, run1.calls = [] ∧ step run1 = .next t ∧ run1.status = .running) ∧
    ∃ t, (doneRun.supplyRun ⟨1, 1, 1, false, optNone⟩).calls = [] ∧ step (doneRun.supplyRun ⟨1, 1, 1, false, optNone⟩) = .next t ∧
      (doneRun.supplyRun ⟨1, 1, 1, false, optNone⟩).status ≠ .running :=
  ⟨⟨_, rfl⟩, ⟨_, rfl, nofun⟩, ⟨_, rfl, rfl, rfl⟩, ⟨_, rfl, rfl, nofun⟩⟩

/-- Running: the last element of each Word and the first position beyond the working Word; a failed run, with none done before it;
and a Word handed over before a run that failed. -/
theorem witness_OperandsRead :
    (∀ e, run1.status ≠ .failed e) ∧ run1.ww[2]? = some (c 2) ∧ run1.inCrc[2]? = some (c 2) ∧
    run1.inData[1]? = some (d 1) ∧ readWord run1 (.reg .ww) = .ok [c 0, c 1, c 2] ∧
    [c 0, c 1, c 2].length ≤ 3 ∧ failedRun.status = .failed (.invalidConfiguration .polynomial) ∧
    (∀ x ∈ failedRun.ended, x.status ≠ .done) ∧
    (let later := doneRun.record (Run.failed State.resetCfg (.invalidConfiguration .crcWidth))
     later.ended = [Run.failed State.resetCfg (.invalidConfiguration .crcWidth)] ++ doneRun.toRun :: [] ∧
     (∀ x ∈ [Run.failed State.resetCfg (.invalidConfiguration .crcWidth)], x.status ≠ .done) ∧
     doneRun.toRun.status = .done ∧ readWord later (.reg .out) = .ok [c 0, c 1, c 2]) :=
  ⟨nofun, by decide +kernel, by decide +kernel, by decide +kernel, by decide +kernel, by decide, rfl, by decide,
    by decide +kernel⟩

/-- The element that is not well formed as an operand of MKXOR, the first or the second of BXEQ, the data bit of a step or an element
of its Word; a step of no elements; a Word supplied with the call that is longer than the register by one element and one that is
shorter by one; the run's Word with a register of one bit less and of one more, and with `data` of one bit less and one more; and the
Word handed over by a run with `D = 2` beside `data` of three bits. -/
theorem witness_IllegalOperandsStop :
    validate (readCfg failedRun .cfg) = .error (.invalidConfiguration .polynomial) ∧
    (readWord run1 (.lit [c 0, X []]) = .ok [c 0, X []] ∧ ∃ e ∈ [c 0, X []], wf e = false) ∧
    (readExpr run1 (.lit (X [c 0, X []])) = .ok (X [c 0, X []]) ∧ wf (X [c 0, X []]) = false ∧
      readExpr run1 (.elem .ww 0) = .ok (c 0) ∧ wf (c 0) = true) ∧
    (∃ e ∈ X [] :: [c 0], wf e = false) ∧ (∃ e ∈ d 0 :: [c 0, X []], wf e = false) ∧
    readWord run1 (.lit []) = .ok [] ∧ readExpr run1 (.lit (d 0)) = .ok (d 0) ∧ wf (d 0) = true ∧
    (readWord run1 (.lit [c 0, c 1]) = .ok [c 0, c 1] ∧ 1 < [c 0, c 1].length ∧ [c 0, c 1].length < 3 ∧
      ∀ e ∈ [c 0, c 1], wfw 3 2 e = true) ∧
    readWord run1 (.reg .ww) = .ok [c 0, c 1, c 2] ∧ run1.runOf .ww = some run1.toRun ∧
    ([c 0, c 1, c 2].length ≠ 2 ∧ [c 0, c 1, c 2].length ≠ 4 ∧ 1 ≠ run1.toRun.cfg.D ∧ 3 ≠ run1.toRun.cfg.D) ∧
    doneRun.runOf .out = some doneRun.toRun ∧ 3 ≠ doneRun.toRun.cfg.D := by decide +kernel

theorem witness_ConstructorsBuildTheirNodes :
    readWord run1 (.lit []) = .ok [] ∧ readWord run1 (.reg .inData) = .ok [d 0, d 1] ∧ [d 0, d 1] ≠ ([] : Word) ∧
    (∀ e ∈ [d 0, d 1], wf e = true) := by decide +kernel

theorem witness_EqualityIsStructural :
    readExpr run1 (.elem .ww 0) = .ok (c 0) ∧ readExpr run1 (.lit (X [c 0])) = .ok (X [c 0]) ∧ wf (c 0) = true ∧
    wf (X [c 0]) = true := by decide +kernel

/-- Indices of one digit, of seven and of eight; both constants; an `Xor` of two with its operands' keys; a tree that is not
well formed. -/
theorem witness_SortKeysHaveTheirFormat :
    (∀ i ∈ [0, 9999999, 10000000], readExpr run1 (.lit (c i)) = .ok (c i) ∧ readExpr run1 (.lit (d i)) = .ok (d i)) ∧
    readExpr run1 (.lit zero) = .ok zero ∧ readExpr run1 (.lit one) = .ok one ∧
    (readExpr run1 (.lit (X [zero, one])) = .ok (X [zero, one]) ∧ [zero, one] ≠ [] ∧
      List.Forall₂ (fun e k => exec (.bxkey (.lit e)) run1 = .next { run1 with result := some (.key k) })
        [zero, one] [['0'], ['1']]) ∧
    wf (X [zero, one]) = true ∧ readExpr run1 (.lit (X [c 0, X []])) = .ok (X [c 0, X []]) ∧ wf (X [c 0, X []]) = false :=
  ⟨by decide +kernel, by decide, by decide, ⟨by decide, by decide, .cons rfl (.cons rfl .nil)⟩, by decide, by decide,
    by decide⟩

theorem witness_KeyOrderIsLexicographic : 0 < 10 ^ 7 ∧ 10 ^ 7 - 1 < 10 ^ 7 ∧ '0'.isDigit = true ∧ '9'.isDigit = true ∧
    'c' ∈ ['c', 'd'] ∧ 'd' ∈ ['c', 'd'] := by decide +kernel

/-- The last index of each width, the first beyond, and an empty `Xor`. -/
theorem witness_EvaluationIsParityOfLeaves :
    readExpr run1 (.lit (X [c 2, d 1])) = .ok (X [c 2, d 1]) ∧ wfw 3 2 (X [c 2, d 1]) = true ∧
    wfw 3 2 (c 3) = false ∧ wf (c 3) = true ∧ wfw 3 2 (d 2) = false ∧ wf (d 2) = true ∧
    wfw 3 2 (X [c 0, X []]) = false := by decide +kernel

theorem witness_FlattenListsTheLeaves :
    readExpr run1 (.lit (X [c 0, X [c 1]])) = .ok (X [c 0, X [c 1]]) ∧ wf (X [c 0, X [c 1]]) = true ∧
    wf (c 0) = true ∧ wf (X []) = false := by decide +kernel

/-- A leaf; V-S5, which leaves nothing; V-S9, which leaves an input bit and `Const(1)`; an empty `Xor`. -/
theorem witness_ElimKeepsOddOperands :
    readExpr run1 (.lit one) = .ok one ∧ isXor one = false ∧
    wf (X [c 0, c 0]) = true ∧ survivorsOf [c 0, c 0] ++ onesOf [c 0, c 0] = [] ∧
    wf (X [one, c 0, zero, one, one]) = true ∧
    survivorsOf [one, c 0, zero, one, one] ++ onesOf [one, c 0, zero, one, one] ≠ [] ∧ wf (X []) = false := by
  decide +kernel

theorem witness_LexsortIsAStableSort :
    readExpr run1 (.lit (X [d 0, X [c 5], c 5])) = .ok (X [d 0, X [c 5], c 5]) ∧ wf (X [d 0, X [c 5], c 5]) = true ∧
    isXor (c 5) = false ∧ wf (X [X []]) = false := by decide +kernel

theorem witness_SimpIsTheComposition :
    readExpr run1 (.elem .ww 2) = .ok (c 2) ∧ wf (X [c 0, X [c 0]]) = true ∧ wf (X [c 0, X []]) = false := by
  decide +kernel

theorem witness_PassesPreserveMeaning : wf (X [c 2, X [zero, d 1], one]) = true ∧
    wfw 3 2 (X [c 2, X [zero, d 1], one]) = true := by decide

/-- An even count among others, an even count of nothing else, and an odd count with the kept copy first or not. -/
theorem witness_CancellationLaw :
    isInput (c 0) = true ∧
    ([c 0, d 0, c 0].count (c 0) % 2 = 0 ∧ [c 0, d 0, c 0].filter (· ≠ c 0) ≠ []) ∧
    ([c 0, c 0].count (c 0) % 2 = 0 ∧ [c 0, c 0] ≠ [] ∧ [c 0, c 0].filter (· ≠ c 0) = []) ∧
    ([c 0, d 0, c 0, c 0].count (c 0) % 2 = 1 ∧ [c 0, d 0, c 0, c 0] = [] ++ c 0 :: [d 0, c 0, c 0] ∧ c 0 ∉ ([] : Word) ∧
      [c 0, d 0, c 0, c 0] = [c 0, d 0] ++ c 0 :: [c 0] ∧ wfw 1 1 (X [c 0, d 0, c 0, c 0]) = true) := by decide +kernel

theorem witness_SimplificationIsIdempotent :
    exec (.simplify (.lit (X [d 0, c 0, d 0, X [c 1]])) (.lit optAll) true) run1 =
      .next { run1 with result := some (.expr (X [c 0, c 1])) } ∧
    exec (.wsimp (.call (.lit [X [d 0, c 0, d 0, X [c 1]]]) (.lit optAll) true)) run1 =
      .next { run1 with result := some (.word [X [c 0, c 1]]) } :=
  ⟨eq_next (by decide +kernel), eq_next (by decide +kernel)⟩

/-- A tree of which nothing is left and one of which an input bit and `Const(1)` are. -/
theorem witness_ShapeAfterFlattenThenElim :
    wf (X [c 0, X [c 0]]) = true ∧ isXor (X [c 0, X [c 0]]) = true ∧
    wf (X [c 0, X [one]]) = true ∧ onesOf (leaves (X [c 0, X [one]])) = [one] := by decide +kernel

/-- `Xor[c0, Xor[d0, d0]]` and `Xor[c0]`: the same value under every pair of vectors of width 1. -/
theorem witness_SimplifiedFormIsCanonical :
    wfw 1 1 (X [c 0, X [d 0, d 0]]) = true ∧ wfw 1 1 (X [c 0]) = true ∧ isXor (X [c 0, X [d 0, d 0]]) = true ∧
    isXor (X [c 0]) = true ∧
    ∀ (crc : BitVec 1) (data : BitVec 1), bxeval crc data (X [c 0, X [d 0, d 0]]) = bxeval crc data (X [c 0]) := by
  decide +kernel

/-- A running run's own Configuration, a done run's, and one supplied with the call. -/
theorem witness_InwordsBuildsTheInputWords :
    validate (readCfg run1 .cfg) = .ok () ∧ run1.status = .running ∧ validate (readCfg doneRun .cfg) = .ok () ∧
    doneRun.status ≠ .running ∧ validate (readCfg run1 (.lit ⟨1, 1, 1, true, optAll⟩)) = .ok () ∧
    (CfgSrc.lit ⟨1, 1, 1, true, optAll⟩) ≠ .cfg := by decide +kernel

/-- The Word of one element, where the top element is the only one, and the run's; the first and the last position. -/
theorem witness_LeftStepBuildsTheNewWord :
    readWord run1 (.lit [c 0]) = .ok [c 0] ∧ readExpr run1 (.elem .inData 1) = .ok (d 1) ∧
    [c 0].getLast? = some (c 0) ∧ (zero :: [c 0].dropLast)[0]? = some zero ∧
    readWord run1 (.reg .ww) = .ok [c 0, c 1, c 2] ∧ [c 0, c 1, c 2].getLast? = some (c 2) ∧
    (zero :: [c 0, c 1, c 2].dropLast)[0]? = some zero ∧ (zero :: [c 0, c 1, c 2].dropLast)[2]? = some (c 1) ∧
    (∀ y ∈ d 1 :: [c 0, c 1, c 2], wf y = true) := by decide +kernel

theorem witness_RightStepBuildsTheNewWord :
    readWord run1 (.lit [c 0]) = .ok [c 0] ∧ readExpr run1 (.elem .inData 0) = .ok (d 0) ∧
    [c 0].head? = some (c 0) ∧ ([c 0].tail ++ [zero])[0]? = some zero ∧
    readWord run1 (.reg .ww) = .ok [c 0, c 1, c 2] ∧ [c 0, c 1, c 2].head? = some (c 0) ∧
    ([c 0, c 1, c 2].tail ++ [zero])[0]? = some (c 1) ∧ ([c 0, c 1, c 2].tail ++ [zero])[2]? = some zero ∧
    (∀ y ∈ d 0 :: [c 0, c 1, c 2], wf y = true) := by decide +kernel

/-- The first and the last step of both directions, and the reasons a step is refused. -/
theorem witness_StepOfTheRunAdvancesIt :
    (∀ k ∈ [0, 1], ({ run1 with k := k } : State).status = .running ∧ run1.stepped = false ∧ k < run1.cfg.D ∧
      run1.cfg.right = false ∧ run1.ww ≠ [] ∧ run1.inData.length = run1.cfg.D ∧ ∀ e ∈ run1.ww ++ run1.inData, wf e = true) ∧
    (∀ k ∈ [0, 2], ({ run2 with k := k } : State).status = .running ∧ run2.stepped = false ∧ k < run2.cfg.D ∧
      run2.cfg.right = true ∧ run2.ww ≠ [] ∧ run2.inData.length = run2.cfg.D ∧ ∀ e ∈ run2.ww ++ run2.inData, wf e = true) ∧
    doneRun.status ≠ .running ∧ failedRun.status ≠ .running ∧ steppedRun.stepped = true ∧
    run1.cfg.D ≤ ({ run1 with k := 2 } : State).k := by decide +kernel

theorem witness_LoopInvariant : validate ⟨1, 1, 1, false, optNone⟩ = .ok () ∧ validate ⟨12, 4, 3, true, optAll⟩ = .ok () ∧
    0 < 1 ∧ 2 < 3 := by decide +kernel

theorem witness_RunsBuildWellFormedWords : validate ⟨3, 3, 2, false, optAll⟩ = .ok () ∧ 2 + 1 ≤ 2 + 1 ∧ 2 - 1 < 2 := by
  decide +kernel

theorem witness_EliminationBoundsTheOperands :
    validate ⟨3, 3, 2, false, optAll⟩ = .ok () ∧ optAll.flatten = true ∧ optAll.eliminate = true ∧ 0 ≤ 2 ∧ 2 ≤ 2 := by
  decide +kernel

theorem witness_OutputShapeUnderAllFlags :
    validate ⟨0x07, 8, 8, false, optAll⟩ = .ok () ∧ optAll = ⟨true, true, true⟩ ∧ 8 ≤ 10 ^ 7 ∧
    validate ⟨0, 1, 10 ^ 7, false, optAll⟩ = .ok () := by decide +kernel

/-- The last position of the Word, the first beyond it, and a Word of no elements. -/
theorem witness_WordsAreBuiltAndRead :
    readWord run1 (.reg .ww) = .ok [c 0, c 1, c 2] ∧ [c 0, c 1, c 2][2]? = some (c 2) ∧ [c 0, c 1, c 2].length ≤ 3 ∧
    readWord run1 (.lit []) = .ok [] := by decide +kernel

theorem witness_WordPassesWorkElementByElement :
    readWord run1 (.lit [c 0, X [c 1, zero]]) = .ok [c 0, X [c 1, zero]] ∧ (∀ e ∈ [c 0, X [c 1, zero]], wf e = true) ∧
    (∃ e ∈ [c 0, X [c 1, X []]], wf e = false) := by decide +kernel

/-- A pass due after a step, and the last one; then no pass due, a run that asks for no flattening, and runs that are over. -/
theorem witness_WordPassesOfTheRunReplaceTheWorkingWord :
    (steppedRun.status = .running ∧ (∀ e ∈ steppedRun.ww, wf e = true) ∧ steppedRun.cfg.opt.flatten = true ∧
      steppedRun.stepped = true ∧ steppedRun.k ≠ steppedRun.cfg.D) ∧
    (let last : State := { run1 with k := 2 }
     last.status = .running ∧ (∀ e ∈ last.ww, wf e = true) ∧ last.cfg.opt.flatten = true ∧ last.stepped = false ∧
      last.k = last.cfg.D) ∧
    (run1.stepped = false ∧ run1.k ≠ run1.cfg.D) ∧ run2.cfg.opt.flatten = false ∧ doneRun.status ≠ .running ∧
    failedRun.status ≠ .running := by decide +kernel

/-- The run's Word and a Word supplied with the call, well formed; one with an input bit out of range; one with an empty `Xor`. -/
theorem witness_DatapathEvaluatesEachElement :
    readWord run1 (.reg .ww) = .ok [c 0, c 1, c 2] ∧ [c 0, c 1, c 2].length = 3 ∧
    (∀ r y, (WordSrc.reg .ww) = .reg r → run1.runOf r = some y → 2 = y.cfg.D) ∧
    (∀ e ∈ [c 0, c 1, c 2], wfw 3 2 e = true) ∧ [c 0, c 1, c 2][2]? = some (c 2) ∧
    readWord run1 (.lit [d 4]) = .ok [d 4] ∧ (∀ r y, (WordSrc.lit [d 4]) = .reg r → run1.runOf r = some y → 5 = y.cfg.D) ∧
    (∀ e ∈ [d 4], wfw 1 5 e = true) ∧
    (∃ e ∈ [c 0, c 1, c 3], wfw 3 2 e = false) ∧ (∃ e ∈ [c 0, c 1, X []], wfw 3 2 e = false) :=
  ⟨rfl, rfl, fun _ _ h h' => by cases h; cases h'; rfl, by decide, rfl, rfl, nofun, by decide, by decide, by decide⟩

theorem witness_ReferenceFunctionIsTheLoop :
    1 ≤ (⟨1, 1, 1, 0, 1, true⟩ : RefArgs).W ∧ 1 ≤ (⟨1, 1, 1, 0, 1, true⟩ : RefArgs).D := by decide

theorem witness_GenAgreesWithTheReference :
    validate ⟨1, 1, 1, true, optNone⟩ = .ok () ∧ validate ⟨0x07, 8, 8, false, optAll⟩ = .ok () := by decide +kernel

theorem witness_FlagsDoNotChangeTheFunction :
    validate ⟨0, 1, 1, true, optNone⟩ = .ok () ∧ validate ⟨0xEDB88320, 32, 8, true, optNone⟩ = .ok () := by decide +kernel

theorem witness_WalkIsTheFold :
    wf (X [c 0, one]) = true ∧ wf (X [c 0, X []]) = false ∧ [c 0, one] ≠ [] ∧
    List.Forall₂ (fun e t => walk (fun _ _ => 1) (fun _ => 0) List.sum e = .ok t) [c 0, one] [1, 0] :=
  ⟨by decide, by decide, by decide, .cons rfl (.cons rfl .nil)⟩

/-- A tree on which every renderer delivers; a value that is delivered and one that is raised; a tree not well formed, and the
empty `Xor`. -/
theorem witness_WalkDeliversWhatTheCallbacksBuild :
    readExpr run1 (.elem .ww 1) = .ok (c 1) ∧ wf (c 1) = true ∧
    exec (.bxeval (.elem .ww 1) ⟨3, 2⟩ ⟨2, 0⟩) run1 = .next { run1 with result := some (.bit true) } ∧
    exec (.bxeval (.elem .ww 1) ⟨1, 0⟩ ⟨2, 0⟩) run1 = .fault (.contractViolation .indexOutOfRange) ∧
    (∀ crc data, Renderer.sortKey ≠ .value crc data) ∧
    readExpr run1 (.lit (X [c 0, X []])) = .ok (X [c 0, X []]) ∧ wf (X [c 0, X []]) = false ∧
    readExpr run1 (.lit (X [])) = .ok (.xorOf []) :=
  ⟨by decide, by decide, eq_next (by decide +kernel), eq_fault (by decide +kernel), nofun, by decide, by decide, by decide⟩

/-- A tree on which both sides deliver, and one on which both raise. -/
theorem witness_EvaluationAndKeyAreWalks :
    readExpr run1 (.lit (X [c 0, d 0])) = .ok (X [c 0, d 0]) ∧
    exec (.bxeval (.lit (X [c 0, d 0])) ⟨1, 1⟩ ⟨1, 0⟩) run1 = .next { run1 with result := some (.bit true) } ∧
    exec (.bxkey (.lit (X [zero, one]))) run1 = .next { run1 with result := some (.key ['0', '1']) } ∧
    readExpr run1 (.lit (X [])) = .ok (X []) ∧
    exec (.bxeval (.lit (X [])) ⟨1, 1⟩ ⟨1, 0⟩) run1 = .fault (.contractViolation .emptyXor) ∧
    exec (.bxkey (.lit (X []))) run1 = .fault (.contractViolation .emptyXor) :=
  ⟨by decide, eq_next (by decide +kernel), eq_next (by decide +kernel), by decide, eq_fault (by decide +kernel),
    eq_fault (by decide +kernel)⟩

theorem witness_TextRenderersWriteTheNotation :
    [zero, one] ≠ [] ∧
    List.Forall₂ (fun e t => exec (.walk (.lit e) (.text .bracket .caret false)) run1 =
      .next { run1 with result := some (.rendered (.text t)) }) [zero, one] [['0'], ['1']] :=
  ⟨by decide, .cons rfl (.cons rfl .nil)⟩

theorem witness_StreamAppliesTheStepOncePerWord :
    readWord run1 (.reg .ww) = .ok [c 0, c 1, c 2] ∧ [c 0, c 1, c 2].length = 3 ∧
    (∀ r y, (WordSrc.reg .ww) = .reg r → run1.runOf r = some y → 2 = y.cfg.D) ∧
    exec (.crcstep (.reg .ww) ⟨3, 5⟩ ⟨2, 1⟩) run1 = .next { run1 with result := some (.bits ⟨3, 5⟩) } ∧
    (∀ e ∈ [c 0, c 1, c 2], wfw 3 2 e = true) ∧
    readWord run1 (.lit [c 1]) = .ok [c 1] ∧ (∀ r y, (WordSrc.lit [c 1]) = .reg r → run1.runOf r = some y → 1 = y.cfg.D) ∧
    exec (.crcstep (.lit [c 1]) ⟨1, 0⟩ ⟨1, 0⟩) run1 = .fault (.contractViolation .indexOutOfRange) :=
  ⟨by decide, by decide, fun _ _ h h' => by cases h; cases h'; rfl, eq_next (by decide +kernel), by decide, by decide, nofun, eq_fault (by decide +kernel)⟩

theorem witness_BitReversalReverses : 0 < 1 ∧ 7 < 8 := by decide

theorem witness_DirectionsAreMirrorImages : 1 ≤ 1 ∧ 1 ≤ 8 := by decide

/-- A Configuration with `W = D`, and one without. -/
theorem witness_DatapathIsLinear :
    validate ⟨0x07, 8, 8, false, optAll⟩ = .ok () ∧ validate ⟨3, 3, 2, true, optNone⟩ = .ok () := by decide +kernel

theorem witness_WideWordsAreSequencesOfNarrowOnes : 1 ≤ 16 ∧ 1 ≤ 8 ∧ 1 ≤ 1 := by decide

theorem witness_DecodeOfEncodeIsTheInstruction :
    (Instr.crcstream (.lit [c 0, X []]) ⟨2, 1, 3, [1, 0], 1⟩).wellFormed = true ∧
    (Instr.inwords (.lit ⟨1, 1, 1, true, optAll⟩)).wellFormed = true := by decide +kernel

theorem witness_EncodeOfDecodeIsTheBytes : decode [0x44, 0x80, 0x02, 0x00, 0x99] = .ok (.bitrev ⟨256, 0⟩, [0x99]) := by
  decide +kernel

theorem witness_NumbersOfFlagsAndErrors : 0 < 8 ∧ 7 < 8 := by decide

/-- The start of the least run with a feedback meets the invariant. -/
theorem least_invariant : RunInvariant least.toRun := by
  refine ⟨⟨by decide, by decide, by decide, by decide, nofun, by decide, ?_, ?_⟩, _, _, rfl, rfl, .inl rfl⟩
  · intro e he
    simp [State.start, Run.start, Run.inputWord] at he
    subst he
    exact ⟨by decide, by simp [hasNoOne, leaves]⟩
  · intro crc data
    have h : ∀ crc data : BitVec 1, crcstep least.ww crc data = .ok crc := by decide +kernel
    exact h crc data

/-- A running state and a failed one that meet the invariant, each with a step. -/
theorem witness_InvariantIsKept :
    (Invariant least ∧ ∃ t, step least = .next t) ∧
    (Invariant { failedRun with calls := [0x01, 0x01] } ∧
      ∃ t, step { failedRun with calls := [0x01, 0x01] } = .next t) :=
  ⟨⟨⟨least_invariant, nofun⟩, _, rfl⟩, ⟨⟨⟨by decide +kernel, rfl, rfl, rfl, rfl⟩, by
    intro r hr
    simp only [List.mem_singleton.1 hr]
    exact ⟨⟨by decide +kernel, rfl, rfl, rfl, rfl⟩, nofun⟩⟩, _, rfl⟩⟩

/-- A step; a step of a running run that meets the invariant, with a GEN pending and without; two steps of the one with a GEN pending
and nothing supplied. -/
theorem witness_RunsDoNotDisturbOneAnother :
    (let busy : State := { least with calls := encode (.gen (.lit ⟨2, 2, 1, true, optAll⟩)) }
     Invariant busy ∧ busy.status = .running ∧ busy.supply = [] ∧ (∃ t, step busy = .next t) ∧
      ∃ t, Sys2Proof.core.run 2 busy = .next t) ∧
    Invariant least ∧ least.status = .running ∧ least.calls = [] ∧ ∃ t, step least = .next t :=
  ⟨⟨⟨least_invariant, nofun⟩, rfl, rfl, ⟨_, rfl⟩, _, rfl⟩, ⟨least_invariant, nofun⟩, rfl, rfl, _, rfl⟩

end Sys2Proof.Tests
end

/-! ### The encodings: the order of sort keys, the numbers of flags and errors -/

namespace Sys2Proof.Machine

open Sys2Proof

/-! #### The decimal digits of a number -/

/-- With enough fuel the digits are those of the library's `Nat.toDigits`, whose facts the lemmas below use. -/
theorem digitsAux_eq_toDigits (fuel n : Nat) (acc : List Char) (h : n < 2 ^ (fuel + 1)) :
    digitsAux (fuel + 1) n acc = Nat.toDigits 10 n ++ acc := by
  induction fuel generalizing n acc with
  | zero =>
    have hn : n < 10 := by omega
    rw [digitsAux, if_pos hn, Nat.toDigits_of_lt_base hn, List.singleton_append]
  | succ fuel ih =>
    rw [digitsAux]
    split
    · next hn => rw [Nat.toDigits_of_lt_base hn, List.singleton_append]
    · next hn => rw [ih (n / 10) _ (by omega), Nat.toDigits_of_base_le (n := n) (by decide) (by omega),
        List.append_assoc, List.singleton_append]

theorem digits_eq_toDigits (n : Nat) : digits n = Nat.toDigits 10 n := by
  rw [digits, digitsAux_eq_toDigits _ _ _ Nat.lt_log2_self, List.append_nil]

theorem isDigit_of_mem_pad {i n : Nat} {c : Char} (h : c ∈ pad i n) : c.isDigit = true := by
  rw [pad, digits_eq_toDigits, List.mem_append] at h
  rcases h with h | h
  · rw [List.eq_of_mem_replicate h]; rfl
  · exact Nat.isDigit_of_mem_toDigits (by decide) (by decide) h

/-- R52: the padded text stands for the number. -/
theorem ofDigitChars_pad (i n : Nat) : Nat.ofDigitChars 10 (pad i n) 0 = i := by
  rw [pad, digits_eq_toDigits, Nat.ofDigitChars_append, Nat.ofDigitChars_replicate_zero, Nat.mul_zero,
    Nat.ofDigitChars_ten_toDigits]

/-- R52: a number that does not overflow the field fills it exactly. -/
theorem length_pad {i n : Nat} (hn : 0 < n) (h : i < 10 ^ n) : (pad i n).length = n := by
  have := (Nat.length_toDigits_le_iff (by decide) hn).2 h
  rw [pad, digits_eq_toDigits, List.length_append, List.length_replicate]
  omega

/-! #### The order of sort keys -/

theorem keyLe_cons_same (c : Char) (a b : List Char) : keyLe (c :: a) (c :: b) = keyLe a b := by simp [keyLe]

theorem keyLe_cons_of_lt {x y : Char} (h : x.toNat < y.toNat) (a b : List Char) :
    keyLe (x :: a) (y :: b) = true := by simp [keyLe, h]

theorem keyLe_cons_of_gt {x y : Char} (h : y.toNat < x.toNat) (a b : List Char) :
    keyLe (x :: a) (y :: b) = false := by simp [keyLe, h, h.le]

theorem keyLe_append_same (p a b : List Char) : keyLe (p ++ a) (p ++ b) = keyLe a b := by
  induction p with
  | nil => rfl
  | cons c p ih => rw [List.cons_append, List.cons_append, keyLe_cons_same, ih]

/-- R54: `keyLe` is the reflexive lexicographic order by character code. -/
theorem keyLe_iff_eq_or_lex (a b : List Char) :
    keyLe a b = true ↔ a = b ∨ List.Lex (fun x y => x.toNat < y.toNat) a b := by
  induction a generalizing b with
  | nil => cases b <;> simp [keyLe]
  | cons x a ih =>
    cases b with
    | nil => simp [keyLe]
    | cons y b =>
      rw [List.cons_lex_cons_iff, List.cons.injEq]
      rcases Nat.lt_trichotomy x.toNat y.toNat with h | h | h
      · simp [keyLe_cons_of_lt h, h]
      · obtain rfl := Char.toNat_inj.1 h
        simp [keyLe_cons_same, ih]
      · have hne : x ≠ y := by rintro rfl; exact h.false
        simp [keyLe_cons_of_gt h, hne, h.le]

/-! #### The order of the padded index -/

theorem toNat_bounds_of_isDigit {c : Char} (h : c.isDigit = true) : 48 ≤ c.toNat ∧ c.toNat ≤ 57 := by
  simpa [Char.isDigit, UInt32.le_iff_toNat_le] using h

/-- The leading digit counts in units of its place. -/
theorem ofDigitChars_cons_zero (c : Char) (l : List Char) :
    Nat.ofDigitChars 10 (c :: l) 0 = 10 ^ l.length * (c.toNat - 48) + Nat.ofDigitChars 10 l 0 := by
  rw [Nat.ofDigitChars_cons, Nat.ofDigitChars_eq_ofDigitChars_zero, Nat.mul_zero, Nat.zero_add]
  rfl

theorem ofDigitChars_lt_pow (l : List Char) (h : ∀ c ∈ l, c.isDigit = true) :
    Nat.ofDigitChars 10 l 0 < 10 ^ l.length := by
  induction l with
  | nil => simp
  | cons c l ih =>
    have hl := ih fun d hd => h d (List.mem_cons_of_mem _ hd)
    have hc : c.toNat - 48 ≤ 9 := by have := toNat_bounds_of_isDigit (h c List.mem_cons_self); omega
    have := Nat.mul_le_mul_left (10 ^ l.length) hc
    rw [ofDigitChars_cons_zero, List.length_cons, Nat.pow_succ]
    omega

/-- At the first difference the smaller digit decides: what follows it is less than one unit of its place. -/
theorem ofDigitChars_cons_lt {x y : Char} {a b : List Char} (hlen : a.length = b.length)
    (ha : ∀ c ∈ x :: a, c.isDigit = true) (h : x.toNat < y.toNat) :
    Nat.ofDigitChars 10 (x :: a) 0 < Nat.ofDigitChars 10 (y :: b) 0 := by
  have hx := toNat_bounds_of_isDigit (ha x List.mem_cons_self)
  have hrest := ofDigitChars_lt_pow a fun c hc => ha c (List.mem_cons_of_mem _ hc)
  have hlead : 10 ^ a.length * (x.toNat - 48 + 1) ≤ 10 ^ a.length * (y.toNat - 48) :=
    Nat.mul_le_mul_left _ (by omega)
  rw [ofDigitChars_cons_zero, ofDigitChars_cons_zero, ← hlen]
  rw [Nat.mul_succ] at hlead
  omega

/-- On digit texts of one length the order of keys is the numeric order. -/
theorem keyLe_eq_decide_ofDigitChars_le {a b : List Char} (hlen : a.length = b.length)
    (ha : ∀ c ∈ a, c.isDigit = true) (hb : ∀ c ∈ b, c.isDigit = true) :
    keyLe a b = decide (Nat.ofDigitChars 10 a 0 ≤ Nat.ofDigitChars 10 b 0) := by
  induction a generalizing b with
  | nil => simp [keyLe]
  | cons x a ih =>
    cases b with
    | nil => simp at hlen
    | cons y b =>
      have hl : a.length = b.length := by simpa using hlen
      rcases Nat.lt_trichotomy x.toNat y.toNat with h | h | h
      · rw [keyLe_cons_of_lt h, decide_eq_true (ofDigitChars_cons_lt hl ha h).le]
      · obtain rfl := Char.toNat_inj.1 h
        rw [keyLe_cons_same, ofDigitChars_cons_zero, ofDigitChars_cons_zero, ← hl,
          ih hl (fun c hc => ha c (List.mem_cons_of_mem _ hc)) fun c hc => hb c (List.mem_cons_of_mem _ hc)]
        simp
      · rw [keyLe_cons_of_gt h, decide_eq_false (ofDigitChars_cons_lt hl.symm hb h).not_ge]

/-- R54: within a source the keys of indices that do not overflow stand in the order of the indices. -/
theorem keyLe_keyText_input (s : SourceId) {i j : Nat} (hi : i < 10 ^ 7) (hj : j < 10 ^ 7) :
    keyLe (keyText (.input s i)) (keyText (.input s j)) = decide (i ≤ j) := by
  have hlen : (pad i 7).length = (pad j 7).length := by
    rw [length_pad (by decide) hi, length_pad (by decide) hj]
  rw [keyText, keyText, Config.keyDigits, keyLe_append_same,
    keyLe_eq_decide_ofDigitChars_le hlen (fun _ => isDigit_of_mem_pad) fun _ => isDigit_of_mem_pad,
    ofDigitChars_pad, ofDigitChars_pad]

/-- R54: every digit is smaller than the first letter of either source's keys. -/
theorem toNat_lt_of_isDigit_of_mem {x y : Char} (hx : x.isDigit = true) (hy : y ∈ ['c', 'd']) : x.toNat < y.toNat := by
  have hx := toNat_bounds_of_isDigit hx
  have hy : 99 ≤ y.toNat := by
    rcases List.mem_pair.1 hy with rfl | rfl <;> decide
  omega

/-- Settles O19: `keyLe` is compared with `List.Lex` by induction on the keys; the consequences follow from what it answers on the
first characters that differ, the numeric order from the equal length of padded indices. -/
theorem keyOrderIsLexicographic : Obligations.KeyOrderIsLexicographic := by
  have hcd : 'c'.toNat < 'd'.toNat := by decide
  refine ⟨keyLe_iff_eq_or_lex, fun s i j => keyLe_keyText_input s, ?between, ?digitLetter, ?zeroOne, ?oneZero, ?overflow⟩
  case between => exact fun a b => ⟨keyLe_cons_of_lt hcd _ _, keyLe_cons_of_gt hcd _ _⟩
  case digitLetter =>
    intro a x hx y hy b
    have hlt := toNat_lt_of_isDigit_of_mem hx hy
    exact ⟨keyLe_cons_of_lt hlt _ _, keyLe_cons_of_gt hlt _ _⟩
  case zeroOne => decide
  case oneZero => decide
  case overflow => decide

/-! #### The numbers of flag sets and errors -/

theorem natOfOpt_eq_sum (o : OptFlags) : natOfOpt o =
    (if o.flatten then 1 else 0) + (if o.eliminate then 2 else 0) + (if o.lexSort then 4 else 0) := by
  obtain ⟨flatten, eliminate, lexSort⟩ := o
  cases flatten <;> cases eliminate <;> cases lexSort <;> rfl

/-- R47: each number below 8 is the number of a flag set. -/
theorem natOfOpt_optOfNat : ∀ n < 8, natOfOpt (optOfNat n) = n := by decide

/-- Settles O57: the flag numbering is a sum of distinct powers of two; the codes of errors are read off their tables. -/
theorem numbersOfFlagsAndErrors : Obligations.NumbersOfFlagsAndErrors :=
  ⟨natOfOpt_eq_sum, fun o => ⟨natOfOpt_lt o, optOfNat_natOfOpt o⟩, natOfOpt_optOfNat, rfl, rfl, fun _ => rfl, rfl,
    fun _ => rfl, rfl, rfl, rfl, rfl, rfl, rfl⟩

end Sys2Proof.Machine

/-! ### The Bit Expression Model: constructors, equality, sort keys and evaluation -/

namespace Sys2Proof.Machine

open Sys2Proof Sys2Proof.Safety

/-! #### What each operation concludes of the operands read -/

theorem exec_mkxor {s : State} {ops : WordSrc} {l : List BitExpr} (h : readWord s ops = .ok l) :
    exec (.mkxor ops) s = conclude (orRaise (mkxor l) fun e => .ok (.expr e)) s := by
  simp [exec, execMkxor, h]

theorem exec_bxeq {s : State} {a b : ExprSrc} {x y : BitExpr} (ha : readExpr s a = .ok x) (hb : readExpr s b = .ok y) :
    exec (.bxeq a b) s = conclude (orRaise (bxeqChecked x y) fun r => .ok (.bool r)) s := by
  simp [exec, execBxeq, ha, hb]

theorem exec_bxkey {s : State} {a : ExprSrc} {x : BitExpr} (h : readExpr s a = .ok x) :
    exec (.bxkey a) s = conclude (orRaise (bxkey x) fun k => .ok (.key k)) s := by
  simp [exec, execBxkey, h]

theorem exec_bxeval {s : State} {a : ExprSrc} {x : BitExpr} (h : readExpr s a = .ok x) (crc data : Bits) :
    exec (.bxeval a crc data) s = conclude (orRaise (bxeval crc.val data.val x) fun b => .ok (.bit b)) s := by
  simp [exec, execBxeval, h]

/-- Settles O16: MKXOR is the guarded node of R68, whose guard an empty list does not pass and well-formed operands do. -/
theorem constructorsBuildTheirNodes : Obligations.ConstructorsBuildTheirNodes := by
  refine ⟨fun _ _ _ _ => ⟨rfl, rfl, rfl⟩, fun _ _ _ => rfl, fun _ _ => rfl, fun s ops l hl => ⟨?empty, ?operands⟩⟩
  case empty =>
    rintro rfl
    rw [exec_mkxor hl]
    rfl
  case operands =>
    intro hne hwf
    have hnode : wf (.xorOf l) = true := by simpa [wf_xor_iff] using ⟨hne, hwf⟩
    rw [exec_mkxor hl, mkxor_eq, guardWf_of_wf hnode]
    rfl

/-- Settles O17: the guard passes both operands, and the comparison by structural recursion is equality of trees. -/
theorem equalityIsStructural : Obligations.EqualityIsStructural := by
  refine ⟨fun _ _ => rfl, fun s a b x y ha hb hx hy => ?_⟩
  have hwf : ∀ e ∈ [x, y], wf e = true := by simp [hx, hy]
  rw [exec_bxeq ha hb, bxeqChecked, guardAll_of_wf hwf, bxeq_eq_decide]
  rfl

/-! #### Sort keys -/

/-- The digits of a number that is not 0 begin with no `0`. -/
theorem head?_toDigits_ne_zero (n : Nat) (h0 : n ≠ 0) : (Nat.toDigits 10 n).head? ≠ some '0' := by
  induction n using Nat.strongRecOn with
  | ind n ih =>
    by_cases hn : n < 10
    · rw [Nat.toDigits_of_lt_base hn]
      simpa using h0
    · rw [Nat.toDigits_of_base_le (by decide) (by omega),
        List.head?_append_of_ne_nil _ (List.ne_nil_of_length_pos Nat.length_toDigits_pos)]
      exact ih (n / 10) (by omega) (by omega)

theorem head?_digits_ne_zero {n : Nat} (h : 1 < (digits n).length) : (digits n).head? ≠ some '0' := by
  have h0 : n ≠ 0 := by
    rintro rfl
    exact absurd h (by decide)
  rw [digits_eq_toDigits]
  exact head?_toDigits_ne_zero n h0

theorem decimal_eq_ofDigitChars (l : List Char) : decimal l = Nat.ofDigitChars 10 l 0 := rfl

/-- spec/00_scope.md section 6: `pad` writes the padded text of its number. -/
theorem isPadded_pad (i : Nat) {n : Nat} (hn : 0 < n) : IsPadded i n (pad i n) := by
  refine ⟨fun _ => isDigit_of_mem_pad, ?value, ?width, ?noLeadingZero⟩
  case value => rw [decimal_eq_ofDigitChars, ofDigitChars_pad]
  case width =>
    rw [pad, List.length_append, List.length_replicate]
    omega
  case noLeadingZero =>
    rw [pad, List.length_append, List.length_replicate]
    intro hlong
    have hnone : n - (digits i).length = 0 := by omega
    rw [hnone, List.replicate_zero, List.nil_append]
    exact head?_digits_ne_zero (by omega)

theorem keyTexts_eq (l : ExprList) : keyTexts l = (l.toList.map keyText).flatten := by
  induction l using ExprList.rec (motive_1 := fun _ => True) with
  | input _ _ => trivial
  | const _ => trivial
  | xor _ _ => trivial
  | nil => rfl
  | cons e l _ ih => simp [keyTexts, ih]

/-- R66: BXKEY delivers the key of a well-formed tree. -/
theorem exec_bxkey_of_wf {s : State} {a : ExprSrc} {x : BitExpr} (h : readExpr s a = .ok x) (hx : wf x = true) :
    exec (.bxkey a) s = .next { s with result := some (.key (keyText x)) } := by
  rw [exec_bxkey h, bxkey, guardWf_of_wf hx]
  rfl

/-- R68: BXKEY raises on a tree that is not well formed. -/
theorem exec_bxkey_of_not_wf {s : State} {a : ExprSrc} {x : BitExpr} (h : readExpr s a = .ok x) (hx : wf x = false) :
    exec (.bxkey a) s = .fault (.contractViolation .emptyXor) := by
  rw [exec_bxkey h, bxkey, guardWf_of_not_wf hx]
  rfl

/-- A tree BXKEY delivers a key of is well formed, and the key is its own. -/
theorem wf_and_keyText_of_exec_bxkey {s : State} {e : BitExpr} {k : List Char}
    (h : exec (.bxkey (.lit e)) s = .next { s with result := some (.key k) }) : wf e = true ∧ keyText e = k := by
  cases hwf : wf e with
  | false => simp [exec_bxkey_of_not_wf (readExpr_lit s e) hwf] at h
  | true => simpa [exec_bxkey_of_wf (readExpr_lit s e) hwf] using h

/-- R53: the keys BXKEY delivers of the elements are those whose concatenation is the key of the `Xor`. -/
theorem wf_and_map_keyText_of_forall₂ {s : State} {l : List BitExpr} {ks : List (List Char)}
    (h : List.Forall₂ (fun e k => exec (.bxkey (.lit e)) s = .next { s with result := some (.key k) }) l ks) :
    (∀ e ∈ l, wf e = true) ∧ l.map keyText = ks := by
  induction h with
  | nil => simp
  | cons he _ ih =>
    obtain ⟨hwf, rfl⟩ := wf_and_keyText_of_exec_bxkey he
    obtain ⟨hwfs, rfl⟩ := ih
    simpa [hwf] using hwfs

/-- Settles O18: BXKEY answers `keyText` on well-formed trees; the field of an index is its padded text, and the key of an `Xor`
is the concatenation of its operands' keys. -/
theorem sortKeysHaveTheirFormat : Obligations.SortKeysHaveTheirFormat := by
  have hpad (i : Nat) : IsPadded i 7 (pad i 7) := isPadded_pad i (by decide)
  refine ⟨fun _ => rfl, fun s a => ⟨fun i h => ⟨_, hpad i, exec_bxkey_of_wf h rfl⟩,
    fun i h => ⟨_, hpad i, exec_bxkey_of_wf h rfl⟩, fun h => exec_bxkey_of_wf h rfl, fun h => exec_bxkey_of_wf h rfl,
    ?xor, fun x h hx => ⟨_, exec_bxkey_of_wf h hx⟩, fun x h hx => exec_bxkey_of_not_wf h hx⟩⟩
  case xor =>
    intro l ks h hne hks
    obtain ⟨hwf, rfl⟩ := wf_and_map_keyText_of_forall₂ hks
    have hnode : wf (.xorOf l) = true := by simpa [wf_xor_iff] using ⟨hne, hwf⟩
    rw [exec_bxkey_of_wf h hnode, keyText, keyTexts_eq, ExprList.toList_ofList]

/-! #### Evaluation -/

/-- R67: the sum modulo 2 is the parity of the number of nodes that evaluate to 1. -/
theorem sumVal_eq_decide_countP {W D : Nat} (crc : BitVec W) (data : BitVec D) (l : List BitExpr) :
    sumVal crc data l = decide (l.countP (val crc data) % 2 = 1) := by
  induction l with
  | nil => rfl
  | cons e l ih =>
    rw [sumVal, ih, List.countP_cons]
    cases val crc data e with
    | false => simp
    | true =>
      rw [Bool.true_xor, if_pos rfl, ← decide_not, decide_eq_decide]
      omega

theorem val_eq_leafBit {W D : Nat} (crc : BitVec W) (data : BitVec D) {e : BitExpr} (h : isXor e = false) :
    val crc data e = leafBit crc data e := by
  cases e with
  | input s i => cases s <;> rfl
  | const b => rfl
  | xor l => simp [isXor] at h

/-- R67: the value of a tree is the parity of the number of leaves that are 1. -/
theorem val_eq_decide_countP_leaves {W D : Nat} (crc : BitVec W) (data : BitVec D) (e : BitExpr) :
    val crc data e = decide ((leaves e).countP (leafBit crc data) % 2 = 1) := by
  have hleaf : (leaves e).countP (val crc data) = (leaves e).countP (leafBit crc data) :=
    List.countP_congr fun x hx => by rw [val_eq_leafBit crc data (not_isXor_of_mem_leaves hx)]
  rw [val_eq_sumVal_leaves, sumVal_eq_decide_countP, hleaf]

/-- R67, R68: on a tree not well formed for the widths BXEVAL raises, `EmptyXor` only where the tree is not well formed. -/
theorem bxeval_of_not_wfw {W D : Nat} (crc : BitVec W) (data : BitVec D) {e : BitExpr} (h : wfw W D e = false) :
    bxeval crc data e = violation .indexOutOfRange ∨ bxeval crc data e = violation .emptyXor ∧ wf e = false := by
  cases hx : bxeval crc data e with
  | ok b => simp [wfw_of_bxeval crc data e b hx] at h
  | error x =>
    rcases bxeval_error crc data e x hx with rfl | ⟨rfl, hwf⟩
    · exact .inl rfl
    · exact .inr ⟨rfl, hwf⟩

/-- R67, R117: what BXEVAL raises is a fault of the machine. -/
theorem exec_bxeval_of_not_wfw {s : State} {a : ExprSrc} {x : BitExpr} {W D : Nat} (crc : BitVec W) (data : BitVec D)
    (h : readExpr s a = .ok x) (hx : wfw W D x = false) :
    exec (.bxeval a ⟨W, crc⟩ ⟨D, data⟩) s = .fault (.contractViolation .indexOutOfRange) ∨
      exec (.bxeval a ⟨W, crc⟩ ⟨D, data⟩) s = .fault (.contractViolation .emptyXor) ∧ wf x = false := by
  rw [exec_bxeval h]
  rcases bxeval_of_not_wfw crc data hx with he | ⟨he, hwf⟩
  · exact .inl (by rw [he]; rfl)
  · exact .inr ⟨by rw [he]; rfl, hwf⟩

/-- Settles O20: on a tree well formed for the widths BXEVAL answers the value, which is the parity of the leaves; on any other it
raises, and not `EmptyXor` where no `Xor` is empty. -/
theorem evaluationIsParityOfLeaves : Obligations.EvaluationIsParityOfLeaves := by
  refine ⟨fun _ _ _ => rfl, fun s a x W D crc data h => ⟨fun hx => ?value, fun hx hwf => ?inRange, fun hx => ?raises⟩⟩
  case value =>
    rw [exec_bxeval h, bxeval_of_wfw crc data x hx, val_eq_decide_countP_leaves]
    rfl
  case inRange => exact (exec_bxeval_of_not_wfw crc data h hx).resolve_right fun ⟨_, hnot⟩ => by simp [hwf] at hnot
  case raises => exact (exec_bxeval_of_not_wfw crc data h hx).imp_right And.left

end Sys2Proof.Machine

/-! ### The XOR Simplifier: the passes, the cancellation law and idempotence -/

namespace Sys2Proof.Machine

open Sys2Proof Sys2Proof.Safety

/-! #### What a pass concludes of the operand read -/

/-- R68, R79: how a pass on `x` that answers `y` ends: it delivers `y`, or raises where `x` is not well formed. -/
def passOutcome (x y : BitExpr) (s : State) : Result :=
  if wf x then .next { s with result := some (.expr y) } else .fault (.contractViolation .emptyXor)

theorem passOutcome_of_wf {x : BitExpr} (h : wf x = true) (y : BitExpr) (s : State) :
    passOutcome x y s = .next { s with result := some (.expr y) } := if_pos h

theorem passOutcome_of_not_wf {x : BitExpr} (h : wf x = false) (y : BitExpr) (s : State) :
    passOutcome x y s = .fault (.contractViolation .emptyXor) := by simp [passOutcome, h]

theorem passOutcome_eq_next {x y z : BitExpr} {s : State} :
    passOutcome x y s = .next { s with result := some (.expr z) } ↔ wf x = true ∧ y = z := by
  cases h : wf x with
  | true => simp [passOutcome_of_wf h]
  | false => simp [passOutcome_of_not_wf h]

/-- A guarded answer, delivered, is the outcome of a pass. -/
theorem conclude_guardWf (x y : BitExpr) (s : State) :
    conclude (orRaise (guardWf x (.ok y)) fun e => .ok (.expr e)) s = passOutcome x y s := by
  cases h : wf x with
  | true => rw [guardWf_of_wf h, passOutcome_of_wf h]; rfl
  | false => rw [guardWf_of_not_wf h, passOutcome_of_not_wf h]; rfl

/-- R74, R79: SIMP answers the simplified node, guarded by the well-formedness of its operand. -/
theorem simplify_eq_guardWf (e : BitExpr) (opt : OptFlags) (sortLex : Bool) :
    simplify e opt sortLex = guardWf e (.ok (simplified e opt sortLex)) := by
  cases h : wf e with
  | true => rw [simplify_of_wf h, guardWf_of_wf h]
  | false => rw [simplify_of_not_wf h, guardWf_of_not_wf h]

section
variable {s : State} {a : ExprSrc} {x : BitExpr}

theorem exec_flatten (h : readExpr s a = .ok x) : exec (.flatten a) s = passOutcome x (flattened x) s := by
  simp only [exec, execFlatten, h, andThen_ok, flatten, conclude_guardWf]

theorem exec_elim (h : readExpr s a = .ok x) : exec (.elim a) s = passOutcome x (eliminated x) s := by
  simp only [exec, execElim, h, andThen_ok, elim, conclude_guardWf]

theorem exec_lexsort (h : readExpr s a = .ok x) : exec (.lexsort a) s = passOutcome x (lexsorted x) s := by
  simp only [exec, execLexsort, h, andThen_ok, lexsort, conclude_guardWf]

theorem exec_simplify (h : readExpr s a = .ok x) (o : OptSrc) (sortLex : Bool) :
    exec (.simplify a o sortLex) s = passOutcome x (simplified x (readOpt s o) sortLex) s := by
  simp only [exec, execSimplify, h, andThen_ok, simplify_eq_guardWf, conclude_guardWf]

end

/-! #### FLATTEN -/

theorem flattened_eq_ite (x : BitExpr) : flattened x = if isXor x then .xorOf (leaves x) else x := by
  cases x with
  | input s i => rfl
  | const b => rfl
  | xor l => exact flattened_xor l

/-- Settles O21: the spliced operands are the leaves, and the guard of R68 is passed by well-formed trees only. -/
theorem flattenListsTheLeaves : Obligations.FlattenListsTheLeaves := by
  refine ⟨fun _ => rfl, fun s a x h => ?_⟩
  rw [exec_flatten h, ← flattened_eq_ite]
  exact ⟨fun hx => passOutcome_of_wf hx _ _, fun hx => passOutcome_of_not_wf hx _ _⟩

/-! #### ELIM: the survivors by position -/

theorem survives_eq_keeps (ops : List BitExpr) (n : Nat) (x : BitExpr) :
    survives ops n x = keeps ops (ops.take n) x := by
  cases x with
  | input s i => simp [survives, keeps, isXor, isInput, Bool.and_comm]
  | const b => rfl
  | xor m => rfl

/-- R72: what ELIM keeps of the operands after `pre` is what survives at their positions. -/
theorem keptFrom_eq_map_filter_zipIdx {ops pre l : List BitExpr} (h : pre ++ l = ops) :
    keptFrom ops pre l = ((l.zipIdx pre.length).filter fun p => survives ops p.2 p.1).map Prod.fst := by
  induction l generalizing pre with
  | nil => rfl
  | cons x l ih =>
    have htake : ops.take pre.length = pre := by rw [← h, List.take_left]
    have hrest := ih (pre := pre ++ [x]) (by simpa using h)
    rw [List.length_append, List.length_singleton] at hrest
    rw [keptFrom, hrest, List.zipIdx_cons, List.filter_cons, survives_eq_keeps, htake]
    split <;> rfl

theorem survivorsOf_eq_keptFrom (l : List BitExpr) : survivorsOf l = keptFrom l [] l :=
  (keptFrom_eq_map_filter_zipIdx (List.nil_append l)).symm

/-- R72: the pass with accumulators keeps the survivors by position, then the one `Const(1)`. -/
theorem surviving_eq_survivorsOf_append_onesOf (l : List BitExpr) : surviving l = survivorsOf l ++ onesOf l := by
  rw [surviving_eq, survivorsOf_eq_keptFrom, onesOf]

theorem eliminated_xorOf (l : List BitExpr) :
    eliminated (.xorOf l) = if surviving l = [] then .const false else .xorOf (surviving l) := by
  rw [BitExpr.xorOf, eliminated_xor, ExprList.toList_ofList]

/-- Settles O22: the survivors of the pass with accumulators are those by position, by induction on the operands that
follow. -/
theorem elimKeepsOddOperands : Obligations.ElimKeepsOddOperands := by
  refine ⟨fun _ => rfl, fun s a x h => ⟨fun hx => ?leaf, ?xor, fun hx => ?raises⟩⟩
  case leaf => rw [exec_elim h, passOutcome_of_wf (wf_of_not_isXor hx), eliminated_of_not_isXor hx]
  case xor =>
    rintro l rfl hx
    rw [exec_elim h, passOutcome_of_wf hx, eliminated_xorOf, ← surviving_eq_survivorsOf_append_onesOf]
    exact ⟨fun hnone => by rw [if_pos hnone], fun hsome => by rw [if_neg hsome]⟩
  case raises => rw [exec_elim h, passOutcome_of_not_wf hx]

/-! #### LEXSORT -/

/-- Settles O23: insertion by key permutes the operands, sorts them and keeps the order of equal keys. -/
theorem lexsortIsAStableSort : Obligations.LexsortIsAStableSort := by
  refine ⟨fun _ => rfl, fun s a x h => ⟨fun hx => ?leaf, ?xor, fun hx => ?raises⟩⟩
  case leaf => rw [exec_lexsort h, passOutcome_of_wf (wf_of_not_isXor hx), lexsorted_of_not_isXor hx]
  case xor =>
    rintro l rfl hx
    refine ⟨sortedByKey l, ?_, sortedByKey_perm l, sortedByKey_sorted l, fun k => sortedByKey_stable k l⟩
    rw [exec_lexsort h, passOutcome_of_wf hx, lexsorted, ExprList.toList_ofList]
  case raises => rw [exec_lexsort h, passOutcome_of_not_wf hx]

/-! #### SIMP -/

/-- A pass that a condition asks for, or leaves out, hands on what the pass answers, or its operand. -/
theorem optional_pass {s : State} {i : Instr} {x y : BitExpr} {c : Bool} {p : Prop} [Decidable p]
    (hcp : c = true ↔ p) (h : exec i s = .next { s with result := some (.expr y) }) :
    if p then exec i s = .next { s with result := some (.expr (if c then y else x)) }
      else (if c then y else x) = x := by
  by_cases hp : p
  · simpa only [if_pos hp, if_pos (hcp.2 hp)] using h
  · simp only [if_neg hp, if_neg (mt hcp.1 hp)]

theorem wf_ite {c : Bool} {x y : BitExpr} (hy : wf y = true) (hx : wf x = true) :
    wf (if c then y else x) = true := by
  split
  exacts [hy, hx]

/-- R74: LEXSORT runs where the pass sorts and both flags are set. -/
theorem runsSort_iff {o : OptFlags} {sortLex : Bool} :
    runsSort o sortLex = true ↔ sortLex = true ∧ o.eliminate = true ∧ o.lexSort = true := by
  rw [runsSort, Bool.and_eq_true, Bool.and_eq_true, and_assoc]

/-- Settles O24: SIMP answers the composition of what the passes answer, and each pass hands on a well-formed node. -/
theorem simpIsTheComposition : Obligations.SimpIsTheComposition := by
  refine ⟨fun _ _ _ => rfl, fun s a o sortLex x h => ⟨fun hx => ?composition, fun hx => ?raises⟩⟩
  case composition =>
    have flat := (exec_flatten (readExpr_lit s x)).trans (passOutcome_of_wf hx _ s)
    have hx1 := wf_ite (c := runsFlatten (readOpt s o)) (wf_flattened hx) hx
    have elim := (exec_elim (readExpr_lit s _)).trans (passOutcome_of_wf hx1 _ s)
    have hx2 := wf_ite (c := runsElim (readOpt s o)) (wf_eliminated hx1) hx1
    have sort := (exec_lexsort (readExpr_lit s _)).trans (passOutcome_of_wf hx2 _ s)
    refine ⟨_, _, _, optional_pass Iff.rfl flat, optional_pass Iff.rfl elim, optional_pass runsSort_iff sort, ?_⟩
    rw [exec_simplify h, passOutcome_of_wf hx]
    rfl
  case raises => rw [exec_simplify h, passOutcome_of_not_wf hx]

/-- Settles O25: each pass answers a node that is well formed as its operand is and has the operand's value. -/
theorem passesPreserveMeaning : Obligations.PassesPreserveMeaning := by
  intro s x o sortLex hx
  have hread := readExpr_lit s x
  have meaning {y : BitExpr} (hwfw : ∀ {W D : Nat}, wfw W D x = true → wfw W D y = true)
      (hval : ∀ {W D : Nat} (crc : BitVec W) (data : BitVec D), val crc data y = val crc data x) (W D : Nat)
      (h : wfw W D x = true) :
      wfw W D y = true ∧ ∀ (crc : BitVec W) (data : BitVec D), bxeval crc data y = bxeval crc data x :=
    ⟨hwfw h, fun crc data => by rw [bxeval_of_wfw _ _ y (hwfw h), bxeval_of_wfw _ _ x h, hval]⟩
  simp only [List.forall_mem_cons, exec_flatten hread, exec_elim hread, exec_lexsort hread, exec_simplify hread,
    passOutcome_of_wf hx]
  exact ⟨⟨_, rfl, wf_flattened hx, meaning wfw_flattened fun _ _ => val_flattened _ _ x⟩,
    ⟨_, rfl, wf_eliminated hx, meaning wfw_eliminated fun _ _ => val_eliminated _ _ x⟩,
    ⟨_, rfl, wf_lexsorted hx, meaning wfw_lexsorted fun _ _ => val_lexsorted _ _ x⟩,
    ⟨_, rfl, wf_simplified hx _ _, meaning (wfw_simplified · _ _) fun _ _ => val_simplified _ _ x _ _⟩, by simp⟩

/-! #### The cancellation law -/

/-- R72: an operand other than the one just passed is kept as before; an equal one is kept only where it is an `Xor`. -/
theorem keeps_append_singleton (ops pre : List BitExpr) (y x : BitExpr) :
    keeps ops (pre ++ [y]) x = if x = y then isXor x else keeps ops pre x := by
  cases x with
  | input s i => by_cases h : BitExpr.input s i = y <;> simp [keeps, isXor, h]
  | const b => simp [keeps, isXor]
  | xor m => simp [keeps, isXor]

/-- R72: which operands are kept depends on the parities of the counts of the input bits only. -/
theorem keeps_congr {ops ops' : List BitExpr} (h : ∀ x, ops.count x % 2 = ops'.count x % 2) (pre : List BitExpr)
    (x : BitExpr) : keeps ops pre x = keeps ops' pre x := by
  cases x with
  | input s i => simp only [keeps, h]
  | const b => rfl
  | xor m => rfl

theorem keptFrom_append (ops pre l m : List BitExpr) :
    keptFrom ops pre (l ++ m) = keptFrom ops pre l ++ keptFrom ops (pre ++ l) m := by
  induction l generalizing pre with
  | nil => simp [keptFrom]
  | cons x l ih => simp [keptFrom, ih]

/-- R76: copies of an input bit that is not kept from here on can be taken out. -/
theorem keptFrom_filter_ne {b : BitExpr} (hb : isXor b = false) {ops ops' pre pre' : List BitExpr}
    (hother : ∀ x ≠ b, keeps ops pre x = keeps ops' pre' x) (hnot : keeps ops pre b = false) (l : List BitExpr) :
    keptFrom ops pre l = keptFrom ops' pre' (l.filter (· ≠ b)) := by
  induction l generalizing pre pre' with
  | nil => rfl
  | cons y l ih =>
    have hnot' : keeps ops (pre ++ [y]) b = false := by
      rw [keeps_append_singleton]
      split
      exacts [hb, hnot]
    by_cases hy : y = b
    · subst hy
      have hother' : ∀ x ≠ y, keeps ops (pre ++ [y]) x = keeps ops' pre' x := fun x hx => by
        rw [keeps_append_singleton, if_neg hx, hother x hx]
      simp [keptFrom, hnot, ih hother' hnot']
    · have hother' : ∀ x ≠ b, keeps ops (pre ++ [y]) x = keeps ops' (pre' ++ [y]) x := fun x hx => by
        rw [keeps_append_singleton, keeps_append_singleton, hother x hx]
      simp [keptFrom, hy, hother y hy, ih hother' hnot']

theorem keptFrom_congr {ops ops' : List BitExpr} (h : ∀ x, ops.count x % 2 = ops'.count x % 2)
    (pre l : List BitExpr) : keptFrom ops pre l = keptFrom ops' pre l := by
  induction l generalizing pre with
  | nil => rfl
  | cons x l ih => rw [keptFrom, keptFrom, ih, keeps_congr h]

theorem count_filter_ne (b x : BitExpr) (l : List BitExpr) :
    (l.filter (· ≠ b)).count x = if x = b then 0 else l.count x := by
  split
  · next h => simp [List.count_eq_zero, h]
  · next h => exact List.count_filter (by simpa using h)

theorem isXor_of_isInput {b : BitExpr} (h : isInput b = true) : isXor b = false := by
  cases b with
  | input s i => rfl
  | const c => rfl
  | xor m => simp [isInput] at h

/-- R76: with an even count all copies of an input bit can be taken out. -/
theorem surviving_filter_ne {b : BitExpr} (hb : isInput b = true) {l : List BitExpr} (heven : l.count b % 2 = 0) :
    surviving l = surviving (l.filter (· ≠ b)) := by
  have hcount : ∀ x, l.count x % 2 = (l.filter (· ≠ b)).count x % 2 := fun x => by
    rw [count_filter_ne]
    split
    · next h => rw [h, heven]
    · rfl
  have hnot : keeps l [] b = false := by
    cases b with
    | input s i => simp [keeps, heven]
    | const c => rfl
    | xor m => simp [isInput] at hb
  rw [surviving_eq, surviving_eq, hcount,
    keptFrom_filter_ne (isXor_of_isInput hb) (fun x _ => keeps_congr hcount [] x) hnot]

/-- R76: with an odd count the copies after the first one can be taken out. -/
theorem surviving_append_cons_filter_ne {b : BitExpr} (hb : isInput b = true) {p q : List BitExpr} (hp : b ∉ p)
    (hodd : (p ++ b :: q).count b % 2 = 1) : surviving (p ++ b :: q) = surviving (p ++ b :: q.filter (· ≠ b)) := by
  have hcount : ∀ x, (p ++ b :: q).count x % 2 = (p ++ b :: q.filter (· ≠ b)).count x % 2 := fun x => by
    by_cases h : x = b
    · rw [h, hodd, List.count_append, List.count_cons_self, count_filter_ne, if_pos rfl, List.count_eq_zero.2 hp]
    · rw [List.count_append, List.count_append, List.count_cons_of_ne (Ne.symm h), List.count_cons_of_ne (Ne.symm h),
        count_filter_ne, if_neg h]
  have hleaf := isXor_of_isInput hb
  have hnot : keeps (p ++ b :: q) (p ++ [b]) b = false := by rw [keeps_append_singleton, if_pos rfl, hleaf]
  rw [surviving_eq, surviving_eq, keptFrom_append, keptFrom_append, keptFrom, keptFrom, keptFrom_congr hcount [] p,
    keeps_congr hcount, hcount,
    keptFrom_filter_ne (ops' := p ++ b :: q.filter (· ≠ b)) (pre' := [] ++ p ++ [b]) hleaf
      (fun x _ => keeps_congr hcount _ x) hnot]

/-- ELIM ends in the same outcome on two operand lists of the same survivors that differ in copies of a well-formed
node. -/
theorem exec_elim_congr {l m : List BitExpr} {b : BitExpr} (hb : wf b = true) (hl : l ≠ []) (hm : m ≠ [])
    (hmem : ∀ e ≠ b, e ∈ l ↔ e ∈ m) (hsurv : surviving l = surviving m) (s : State) :
    exec (.elim (.lit (.xorOf l))) s = exec (.elim (.lit (.xorOf m))) s := by
  have hwf : wf (.xorOf l) = wf (.xorOf m) := by
    have helem (e : BitExpr) : (e ∈ l → wf e = true) ↔ (e ∈ m → wf e = true) := by
      by_cases he : e = b
      · simp [he, hb]
      · rw [hmem e he]
    rw [Bool.eq_iff_iff, wf_xor_iff, wf_xor_iff, ExprList.toList_ofList, ExprList.toList_ofList]
    simp only [ne_eq, hl, hm, not_false_eq_true, true_and, helem]
  rw [exec_elim (readExpr_lit s _), exec_elim (readExpr_lit s _), eliminated_xorOf, eliminated_xorOf, hsurv]
  simp only [passOutcome, hwf]

/-- R75, R67: what ELIM delivers of an operand list has the sum of the list as its value. -/
theorem exec_elim_value {W D : Nat} {l : List BitExpr} (h : wfw W D (.xorOf l) = true) (crc : BitVec W)
    (data : BitVec D) (s : State) : ∃ y,
      exec (.elim (.lit (.xorOf l))) s = .next { s with result := some (.expr y) } ∧
      bxeval crc data y = .ok (sumVal crc data l) := by
  refine ⟨eliminated (.xorOf l), ?_, ?_⟩
  · rw [exec_elim (readExpr_lit s _), passOutcome_of_wf (wf_of_wfw h)]
  · rw [bxeval_of_wfw _ _ _ (wfw_eliminated h), val_eliminated, val_xorOf]

/-- Settles O26: taking out copies of the input bit leaves the survivors as they are, by induction on the operands that
follow; for a copy that is not the first, the sums are equal since every node occurs with the same parity. -/
theorem cancellationLaw : Obligations.CancellationLaw := by
  intro s l b hb
  have hwf := wf_of_not_isXor (isXor_of_isInput hb)
  refine ⟨fun heven hne => ?even, fun heven hne hnone => ?none, fun hodd p q hl => ⟨fun hp => ?first, ?any⟩⟩
  case even =>
    have hl : l ≠ [] := by rintro rfl; exact hne rfl
    exact exec_elim_congr hwf hl hne (fun e he => by simp [he]) (surviving_filter_ne hb heven) s
  case none =>
    have hall : ∀ e ∈ l, e = b := by simpa [List.filter_eq_nil_iff] using hnone
    have hx : wf (.xorOf l) = true := by
      rw [wf_xor_iff, ExprList.toList_ofList]
      exact ⟨hne, fun e he => by rw [hall e he, hwf]⟩
    rw [exec_elim (readExpr_lit s _), passOutcome_of_wf hx, eliminated_xorOf, surviving_filter_ne hb heven, hnone]
    rfl
  case first =>
    subst hl
    exact exec_elim_congr hwf (by simp) (by simp) (fun e he => by simp [he])
      (surviving_append_cons_filter_ne hb hp hodd) s
  case any =>
    subst hl
    intro W D crc data h
    have h' : wfw W D (.xorOf (p.filter (· ≠ b) ++ b :: q.filter (· ≠ b))) = true := by
      rw [wfw_xor_iff, ExprList.toList_ofList] at h ⊢
      refine ⟨by simp, fun e he => h.2 e ?_⟩
      simp only [List.mem_append, List.mem_cons, List.mem_filter] at he ⊢
      tauto
    obtain ⟨y, hy, hyval⟩ := exec_elim_value h crc data s
    obtain ⟨z, hz, hzval⟩ := exec_elim_value h' crc data s
    refine ⟨y, z, hy, hz, ?_⟩
    rw [hyval, hzval]
    refine congrArg _ (sumVal_congr crc data _ _ fun x _ => ?_)
    by_cases hx : x = b
    · rw [hx, hodd]
      simp only [List.count_append, List.count_cons_self, count_filter_ne, if_true]
    · simp only [List.count_append, List.count_cons_of_ne (Ne.symm hx), count_filter_ne, if_neg hx]

/-! #### Idempotence -/

/-- R72: what ELIM leaves: each input bit at most once, `Const(1)` at most once and no `Const(0)`. -/
structure IsReduced (l : List BitExpr) : Prop where
  inputs : ∀ s i, l.count (.input s i) ≤ 1
  ones : l.count (.const true) ≤ 1
  zeros : l.count (.const false) = 0

theorem isReduced_surviving (ops : List BitExpr) : IsReduced (surviving ops) where
  inputs s i := by rw [count_input_surviving]; omega
  ones := by rw [count_one_surviving]; omega
  zeros := count_zero_surviving ops

theorem IsReduced.perm {l m : List BitExpr} (h : IsReduced l) (hp : m.Perm l) : IsReduced m where
  inputs s i := hp.count_eq _ ▸ h.inputs s i
  ones := hp.count_eq _ ▸ h.ones
  zeros := hp.count_eq _ ▸ h.zeros

/-- R72: where no input bit is repeated every operand but the constants is kept in place. -/
theorem keptFrom_of_count_le_one {r pre l : List BitExpr} (hr : pre ++ l = r)
    (h : ∀ s i, r.count (.input s i) ≤ 1) : keptFrom r pre l = l.filter fun e => isXor e || isInput e := by
  induction l generalizing pre with
  | nil => rfl
  | cons x l ih =>
    have hkeeps : keeps r pre x = (isXor x || isInput x) := by
      cases x with
      | input s i =>
        have hcount := h s i
        rw [← hr, List.count_append, List.count_cons_self] at hcount
        have hpre : BitExpr.input s i ∉ pre := List.count_eq_zero.1 (by omega)
        have hone : r.count (.input s i) = 1 := by
          rw [← hr, List.count_append, List.count_cons_self]
          omega
        simp [keeps, hpre, hone, isInput]
      | const b => rfl
      | xor m => rfl
    rw [keptFrom, ih (by simpa using hr), hkeeps, List.filter_cons]
    split <;> rfl

/-- R72: on a reduced list ELIM only moves `Const(1)` to the end. -/
theorem IsReduced.surviving_eq {l : List BitExpr} (h : IsReduced l) :
    surviving l = l.filter (· ≠ .const true) ++ l.filter (· = .const true) := by
  have hfilter : l.filter (fun e => isXor e || isInput e) = l.filter (· ≠ .const true) := by
    refine List.filter_congr fun e he => ?_
    match e, he with
    | .input s i, _ => simp [isInput]
    | .const true, _ => simp [isXor, isInput]
    | .const false, he => exact absurd he (List.count_eq_zero.1 h.zeros)
    | .xor m, _ => simp [isXor]
  have hones : (if l.count (.const true) % 2 = 1 then [BitExpr.const true] else []) = l.filter (· = .const true) := by
    rw [List.filter_eq]
    rcases Nat.le_one_iff_eq_zero_or_eq_one.1 h.ones with h0 | h1
    · simp [h0]
    · simp [h1]
  rw [Machine.surviving_eq, keptFrom_of_count_le_one (List.nil_append l) h.inputs, hfilter, hones]

/-- R77: ELIM keeps what it has left as it is: its one `Const(1)` stands at the end already. -/
theorem surviving_surviving (ops : List BitExpr) : surviving (surviving ops) = surviving ops := by
  have hnone := const_not_mem_keptFrom ops [] ops true
  have hkept : (keptFrom ops [] ops).filter (· ≠ .const true) = keptFrom ops [] ops :=
    List.filter_eq_self.2 fun e he => decide_eq_true fun h => hnone (h ▸ he)
  have hnoOne : (keptFrom ops [] ops).filter (· = .const true) = [] :=
    List.filter_eq_nil_iff.2 fun e he h => hnone (of_decide_eq_true h ▸ he)
  rw [(isReduced_surviving ops).surviving_eq, surviving_eq ops, List.filter_append, List.filter_append, hkept, hnoOne]
  split <;> simp

theorem keyLe_head_of_sorted {x y : BitExpr} {l : List BitExpr}
    (h : (x :: l).Pairwise fun a b => keyLe (keyText a) (keyText b) = true) (hy : y ∈ x :: l) :
    keyLe (keyText x) (keyText y) = true := by
  rcases List.mem_cons.1 hy with rfl | hy
  · exact keyLe_refl _
  · exact List.rel_of_pairwise_cons h hy

theorem mem_of_filter_key_eq {l m : List BitExpr}
    (h : ∀ k, l.filter (fun e => keyText e = k) = m.filter fun e => keyText e = k) {x : BitExpr} (hx : x ∈ l) :
    x ∈ m := by
  have hxm : x ∈ m.filter fun e => keyText e = keyText x := h (keyText x) ▸ List.mem_filter.2 ⟨hx, by simp⟩
  exact List.mem_of_mem_filter hxm

/-- R73: a list in ascending key order is determined by the order of its operands of each key. -/
theorem eq_of_sorted_of_filter_key_eq {l m : List BitExpr}
    (hl : l.Pairwise fun a b => keyLe (keyText a) (keyText b) = true)
    (hm : m.Pairwise fun a b => keyLe (keyText a) (keyText b) = true)
    (h : ∀ k, l.filter (fun e => keyText e = k) = m.filter fun e => keyText e = k) : l = m := by
  have hsymm k := (h k).symm
  induction l generalizing m with
  | nil => exact (List.eq_nil_iff_forall_not_mem.2 fun y hy => List.not_mem_nil (mem_of_filter_key_eq hsymm hy)).symm
  | cons x l ih =>
    cases m with
    | nil => exact absurd (mem_of_filter_key_eq h List.mem_cons_self) List.not_mem_nil
    | cons y m =>
      have hkey : keyText x = keyText y :=
        keyLe_antisymm (keyLe_head_of_sorted hl (mem_of_filter_key_eq hsymm List.mem_cons_self))
          (keyLe_head_of_sorted hm (mem_of_filter_key_eq h List.mem_cons_self))
      have hxy : x = y := by
        have hheads := h (keyText y)
        rw [List.filter_cons_of_pos (by simpa using hkey), List.filter_cons_of_pos (by simp)] at hheads
        exact (List.cons.inj hheads).1
      subst hxy
      have htail k : l.filter (fun e => keyText e = k) = m.filter fun e => keyText e = k := by
        have hk := h k
        rw [List.filter_cons, List.filter_cons] at hk
        split at hk
        exacts [(List.cons.inj hk).2, hk]
      rw [ih hl.of_cons hm.of_cons htail fun k => (htail k).symm]

/-- ELIM of a reduced list keeps the order within the operands chosen by any condition, but for `Const(1)`. -/
theorem IsReduced.filter_surviving {l : List BitExpr} (h : IsReduced l) (p : BitExpr → Bool) :
    (surviving l).filter p =
      (l.filter p).filter (· ≠ .const true) ++ (l.filter p).filter (· = .const true) := by
  rw [h.surviving_eq, List.filter_append]
  exact congrArg₂ _ (List.filter_comm _ _ _) (List.filter_comm _ _ _)

/-- R77: ELIM of the sorted operands moves `Const(1)` behind the operands of larger key, and sorting again moves it
back. -/
theorem sortedByKey_surviving_sortedByKey {m : List BitExpr} (hr : IsReduced m) (hm : surviving m = m) :
    sortedByKey (surviving (sortedByKey m)) = sortedByKey m := by
  refine eq_of_sorted_of_filter_key_eq (sortedByKey_sorted _) (sortedByKey_sorted _) fun k => ?_
  calc (sortedByKey (surviving (sortedByKey m))).filter (fun e => keyText e = k)
      = (surviving (sortedByKey m)).filter fun e => keyText e = k := sortedByKey_stable k _
    _ = (surviving m).filter fun e => keyText e = k := by
      rw [(hr.perm (sortedByKey_perm m)).filter_surviving, sortedByKey_stable, hr.filter_surviving]
    _ = m.filter fun e => keyText e = k := by rw [hm]
    _ = (sortedByKey m).filter fun e => keyText e = k := (sortedByKey_stable k m).symm

theorem lexsorted_xorOf (l : List BitExpr) : lexsorted (.xorOf l) = .xorOf (sortedByKey l) := by
  rw [BitExpr.xorOf, lexsorted, ExprList.toList_ofList]

/-- R77: ELIM of its own result changes nothing. -/
theorem eliminated_eliminated (e : BitExpr) : eliminated (eliminated e) = eliminated e := by
  cases e with
  | input s i => rfl
  | const b => rfl
  | xor l =>
    rw [eliminated_xor]
    split
    · rfl
    · next h => rw [eliminated_xorOf, surviving_surviving, if_neg h]

/-- R77: ELIM then LEXSORT of their own result changes nothing. -/
theorem lexsorted_eliminated_lexsorted_eliminated (e : BitExpr) :
    lexsorted (eliminated (lexsorted (eliminated e))) = lexsorted (eliminated e) := by
  cases e with
  | input s i => rfl
  | const b => rfl
  | xor l =>
    rw [eliminated_xor]
    split
    · rfl
    · next h =>
      have hsort := sortedByKey_surviving_sortedByKey (isReduced_surviving l.toList) (surviving_surviving l.toList)
      have hne : surviving (sortedByKey (surviving l.toList)) ≠ [] := by
        intro hnil
        rw [hnil] at hsort
        exact h (hsort ▸ sortedByKey_perm (surviving l.toList)).nil_eq.symm
      rw [lexsorted_xorOf, eliminated_xorOf, if_neg hne, lexsorted_xorOf, hsort]

/-- R71: FLATTEN leaves an `Xor` unchanged exactly where no operand is an `Xor`. -/
theorem flattened_xor_eq_self_iff {l : ExprList} :
    flattened (.xor l) = .xor l ↔ ∀ e ∈ l.toList, isXor e = false := by
  rw [flattened_xor, leavesAll_eq]
  constructor
  · intro h e he
    have hlist : l.toList.flatMap leaves = l.toList := by simpa using congrArg ExprList.toList (BitExpr.xor.inj h)
    obtain ⟨x, -, hx⟩ := List.mem_flatMap.1 (hlist ▸ he)
    exact not_isXor_of_mem_leaves hx
  · intro h
    rw [flatMap_leaves_of_no_xor h, BitExpr.xorOf, ExprList.ofList_toList]

/-- R77: ELIM of a flat node answers a flat node. -/
theorem flattened_eliminated {e : BitExpr} (h : flattened e = e) : flattened (eliminated e) = eliminated e := by
  cases e with
  | input s i => rfl
  | const b => rfl
  | xor l =>
    rw [flattened_xor_eq_self_iff] at h
    rw [eliminated_xor]
    split
    · rfl
    · rw [BitExpr.xorOf, flattened_xor_eq_self_iff, ExprList.toList_ofList]
      exact fun e he => h e (mem_of_mem_surviving he)

/-- R77: LEXSORT of a flat node answers a flat node. -/
theorem flattened_lexsorted {e : BitExpr} (h : flattened e = e) : flattened (lexsorted e) = lexsorted e := by
  cases e with
  | input s i => rfl
  | const b => rfl
  | xor l =>
    rw [flattened_xor_eq_self_iff] at h
    rw [lexsorted, BitExpr.xorOf, flattened_xor_eq_self_iff, ExprList.toList_ofList]
    exact fun e he => h e ((sortedByKey_perm _).mem_iff.1 he)

/-- R74: what SIMP does after FLATTEN. -/
def elimThenSort (opt : OptFlags) (sortLex : Bool) (e : BitExpr) : BitExpr :=
  if runsSort opt sortLex then lexsorted (if runsElim opt then eliminated e else e)
  else if runsElim opt then eliminated e else e

theorem simplified_eq_elimThenSort (e : BitExpr) (opt : OptFlags) (sortLex : Bool) :
    simplified e opt sortLex = elimThenSort opt sortLex (if runsFlatten opt then flattened e else e) := rfl

/-- R74: sorting takes effect only where ELIM runs. -/
theorem runsElim_of_runsSort {opt : OptFlags} {sortLex : Bool} (h : runsSort opt sortLex = true) :
    runsElim opt = true := (runsSort_iff.1 h).2.1

theorem elimThenSort_elimThenSort (opt : OptFlags) (sortLex : Bool) (e : BitExpr) :
    elimThenSort opt sortLex (elimThenSort opt sortLex e) = elimThenSort opt sortLex e := by
  by_cases hsort : runsSort opt sortLex = true
  · simp only [elimThenSort, if_pos hsort, if_pos (runsElim_of_runsSort hsort),
      lexsorted_eliminated_lexsorted_eliminated]
  · simp only [elimThenSort, if_neg hsort]
    split
    · exact eliminated_eliminated e
    · rfl

theorem flattened_elimThenSort (opt : OptFlags) (sortLex : Bool) {e : BitExpr} (h : flattened e = e) :
    flattened (elimThenSort opt sortLex e) = elimThenSort opt sortLex e := by
  have helim : flattened (if runsElim opt then eliminated e else e) = if runsElim opt then eliminated e else e := by
    split
    exacts [flattened_eliminated h, h]
  rw [elimThenSort]
  split
  exacts [flattened_lexsorted helim, helim]

/-- R77: SIMP of its own result, with the same flags, changes nothing. -/
theorem simplified_simplified (e : BitExpr) (opt : OptFlags) (sortLex : Bool) :
    simplified (simplified e opt sortLex) opt sortLex = simplified e opt sortLex := by
  simp only [simplified_eq_elimThenSort]
  split
  · rw [flattened_elimThenSort opt sortLex (flattened_flattened e), elimThenSort_elimThenSort]
  · rw [elimThenSort_elimThenSort]

/-- R77, R79: what SIMP answers it answers again. -/
theorem simplify_of_simplify_eq_ok {e y : BitExpr} {opt : OptFlags} {sortLex : Bool}
    (h : simplify e opt sortLex = .ok y) : simplify y opt sortLex = .ok y := by
  obtain ⟨hwf, hy⟩ := guardWf_eq_ok.1 (simplify_eq_guardWf e opt sortLex ▸ h)
  obtain rfl := Except.ok.inj hy
  rw [simplify_of_wf (wf_simplified hwf opt sortLex), simplified_simplified]

/-- R77, R99: what WSIMP answers it answers again, element by element. -/
theorem wsimp_of_wsimp_eq_ok {v w : Word} {opt : OptFlags} {sortLex : Bool} (h : wsimp v opt sortLex = .ok w) :
    wsimp w opt sortLex = .ok w := by
  rw [wsimp, mapWord_eq_ok] at h ⊢
  induction h with
  | nil => exact .nil
  | cons hx _ ih => exact .cons (simplify_of_simplify_eq_ok hx) ih

/-- R99: a call of WSIMP delivers a Word exactly where WSIMP answers it; what it raises is delivered as no Word. -/
theorem exec_wsimp_eq_next_word {s : State} {v w : Word} {o : OptSrc} {sortLex : Bool} :
    exec (.wsimp (.call (.lit v) o sortLex)) s = .next { s with result := some (.word w) } ↔
      wsimp v (readOpt s o) sortLex = .ok w := by
  simp only [exec, execWsimp, readWord_lit, andThen_ok]
  cases wsimp v (readOpt s o) sortLex with
  | ok u => simp [State.deliver]
  | error e =>
    rw [orRaise_error, conclude, stop]
    refine iff_of_false (fun h => ?_) nofun
    simpa [State.deliver] using (surface_cases h).1

/-- Settles O27: FLATTEN leaves what SIMP answers as it is, ELIM only moves `Const(1)` to the end of it, and LEXSORT, where it
runs, moves it back; a Word is simplified element by element. -/
theorem simplificationIsIdempotent : Obligations.SimplificationIsIdempotent := by
  refine ⟨fun s x y o sortLex h => ?node, fun s v w o sortLex h => ?word⟩
  case node =>
    rw [exec_simplify (readExpr_lit s x), passOutcome_eq_next] at h
    obtain ⟨hwf, rfl⟩ := h
    rw [exec_simplify (readExpr_lit s _), passOutcome_of_wf (wf_simplified hwf _ _), simplified_simplified]
  case word => exact exec_wsimp_eq_next_word.2 (wsimp_of_wsimp_eq_ok (exec_wsimp_eq_next_word.1 h))

end Sys2Proof.Machine

/-! ### The Register Unroll Algorithm: the steps, the loop of a run and its invariant -/

namespace Sys2Proof.Machine

open Sys2Proof Sys2Proof.Safety

/-! #### A run transition by transition -/

/-- A run that reached `t` in `n` steps goes on from there. -/
theorem run_add_of_run (M : Host.Core) {n : Nat} {s t : M.State} (h : M.run n s = .next t) (m : Nat) :
    M.run (n + m) s = M.run m t := by
  induction n generalizing s with
  | zero =>
    cases h
    rw [Nat.zero_add]
  | succ n ih =>
    obtain ⟨u, hu, h⟩ := (run_succ_eq_next M n s t).1 h
    rw [Nat.add_right_comm, Host.Core.run, hu]
    exact ih h

theorem run_succ_of_run (M : Host.Core) {n : Nat} {s t u : M.State} (h : M.run n s = .next t)
    (hstep : M.step t = .next u) : M.run (n + 1) s = .next u := by
  rw [run_add_of_run M h, run_succ_eq_next]
  exact ⟨u, hstep, rfl⟩

theorem step_of_calls_eq_nil {s : State} (h : s.calls = []) : step s = runTransition s := by
  simp [step, stepOnce, h]

/-- R27: a running run with data bits left takes one pass of the loop. -/
theorem runTransition_pass {s : State} {w : Word} (hrun : s.status = .running) (hstepped : s.stepped = false)
    (hk : s.k < s.cfg.D) (h : loopBody s.cfg s.inData s.k s.ww = .ok w) :
    runTransition s = .next { s with ww := w, k := s.k + 1 } := by
  simp only [runTransition, hrun, hstepped, hk, h, if_true, Bool.false_eq_true, if_false]

/-- R27, R88: a running run with every data bit consumed ends with the sorting pass. -/
theorem runTransition_finish {s : State} {w : Word} (hrun : s.status = .running) (hstepped : s.stepped = false)
    (hk : s.k = s.cfg.D) (h : wsimp s.ww s.cfg.opt true = .ok w) : runTransition s = .next (s.complete w) := by
  simp only [runTransition, hrun, hstepped, hk, lt_irrefl, h, if_true, Bool.false_eq_true, if_false]

/-- R20, R27: the state whose run, on `c`, is after `k` passes that have built the Word `w`. -/
def State.afterPasses (s : State) (c : Configuration) (k : Nat) (w : Word) : State :=
  { s with toRun := { Run.start c with k := k, ww := w } }

section
variable {s : State} {c : Configuration}

theorem step_afterPasses (hcalls : s.calls = []) {k : Nat} {w x : Word} (hk : k < c.D)
    (h : loopBody c (inwords c).1 k w = .ok x) :
    step (s.afterPasses c k w) = .next (s.afterPasses c (k + 1) x) := by
  rw [step_of_calls_eq_nil (s := s.afterPasses c k w) hcalls, runTransition_pass rfl rfl hk h]
  rfl

theorem step_afterPasses_last (hcalls : s.calls = []) {w x : Word} (h : wsimp w c.opt true = .ok x) :
    step (s.afterPasses c c.D w) = .next ((s.afterPasses c c.D w).complete x) := by
  rw [step_of_calls_eq_nil (s := s.afterPasses c c.D w) hcalls, runTransition_finish rfl rfl rfl h]

/-- R27, R89: the transitions of a run build the Words of the loop. -/
theorem run_afterPasses (hcalls : s.calls = []) {k n : Nat} {w v : Word} (hn : k + n ≤ c.D)
    (hw : unrolled c k = .ok w) (hv : unrolled c (k + n) = .ok v) :
    Sys2Proof.core.run n (s.afterPasses c k w) = .next (s.afterPasses c (k + n) v) := by
  induction n generalizing v with
  | zero =>
    cases hw.symm.trans hv
    rfl
  | succ n ih =>
    obtain ⟨u, hu, hbody⟩ := bind_eq_ok.1 hv
    exact run_succ_of_run Sys2Proof.core (ih (by omega) hu) (step_afterPasses hcalls hn hbody)

end

/-- R17, R27, R90: after `k` transitions a run that has started holds a Word of `k` data bits. -/
theorem run_start_holds {c : Configuration} (hc : validate c = .ok ()) {k : Nat} (hk : k ≤ c.D) : ∃ w,
    Sys2Proof.core.run k (State.start c) = .next ((State.start c).afterPasses c k w) ∧ Holds c k w := by
  obtain ⟨w, hw, h⟩ := unrolled_holds (validate_eq_ok.1 hc).1 hk
  have hrun := run_afterPasses (s := State.start c) (k := 0) rfl (by omega) rfl ((Nat.zero_add k).symm ▸ hw)
  rw [Nat.zero_add] at hrun
  exact ⟨w, hrun, h⟩

/-- R27, R88: the transition after the last pass ends the run with a Word of all data bits. -/
theorem run_start_finish_holds {c : Configuration} (hc : validate c = .ok ()) : ∃ w x,
    Sys2Proof.core.run (c.D + 1) (State.start c) = .next (((State.start c).afterPasses c c.D w).complete x) ∧
      Holds c c.D x := by
  obtain ⟨w, hrun, h⟩ := run_start_holds hc le_rfl
  obtain ⟨x, hx, hholds⟩ := h.simp c.opt true
  exact ⟨w, x, run_succ_of_run Sys2Proof.core hrun (step_afterPasses_last (s := State.start c) rfl hx), hholds⟩

/-! #### The recurrence -/

/-- R90: a step of the recurrence bit by bit, in the two directions. -/
theorem refStep_getLsbD_eq_ite {W : Nat} (P : Nat) (right : Bool) (r : BitVec W) (b : Bool) {j : Nat} (hj : j < W) :
    (refStep (BitVec.ofNat W P) right r b).getLsbD j =
      ((if right then (if j < W - 1 then r.getLsbD (j + 1) else false)
        else (if 0 < j then r.getLsbD (j - 1) else false)) ^^
        (P.testBit j && ((if right then r.getLsbD 0 else r.getLsbD (W - 1)) ^^ b))) := by
  have hright : r.getLsbD (j + 1) = if j < W - 1 then r.getLsbD (j + 1) else false := by
    split
    · rfl
    · exact BitVec.getLsbD_of_ge r _ (by omega)
  have hleft : (decide (0 < j) && r.getLsbD (j - 1)) = if 0 < j then r.getLsbD (j - 1) else false := by
    split <;> simp [*]
  rw [refStep_getLsbD _ _ _ _ _ hj, ← hright, ← hleft, BitVec.getLsbD_ofNat, decide_eq_true hj, Bool.true_and]

/-- R103: the feedback adds the polynomial to the shifted register. -/
theorem refStep_eq_xor {W : Nat} (P : BitVec W) (right : Bool) (r : BitVec W) (b : Bool) :
    refStep P right r b = (if right then r >>> 1 else r <<< 1) ^^^
      (if (if right then r.getLsbD 0 else r.getLsbD (W - 1)) ^^ b then P else 0#W) := by
  by_cases hfb : ((if right then r.getLsbD 0 else r.getLsbD (W - 1)) ^^ b) = true
  · simp only [refStep, if_pos hfb]
  · simp only [refStep, if_neg hfb, BitVec.xor_zero]

/-- R90: a step of the recurrence on whole numbers. -/
theorem refStep_toNat {W P : Nat} (hP : P < 2 ^ W) (right : Bool) (r : BitVec W) (b : Bool) :
    (refStep (BitVec.ofNat W P) right r b).toNat =
      (if right then r.toNat / 2 else r.toNat * 2 % 2 ^ W) ^^^
        (if (if right then r.getLsbD 0 else r.getLsbD (W - 1)) ^^ b then P else 0) := by
  have hshift : (if right then r >>> 1 else r <<< 1).toNat = if right then r.toNat / 2 else r.toNat * 2 % 2 ^ W := by
    cases right with
    | true => simp [Nat.shiftRight_eq_div_pow]
    | false => simp [Nat.shiftLeft_eq]
  rw [refStep_eq_xor, BitVec.toNat_xor, hshift, apply_ite BitVec.toNat, BitVec.toNat_ofNat, BitVec.toNat_zero,
    Nat.mod_eq_of_lt hP]

/-- Settles O34: `F k` is the register of the reference function after `k` iterations; by induction on `k` the working Word denotes
it, and an iteration is the recurrence bit by bit and on whole numbers. -/
theorem loopInvariant : Obligations.LoopInvariant := by
  intro c hc crc data
  refine ⟨refAfter crc data (BitVec.ofNat c.W c.P) c.right, fun k hk => ?denotes, rfl, rfl, fun k hk fb hfb => ?step⟩
  case denotes =>
    obtain ⟨w, hrun, h⟩ := run_start_holds hc hk
    exact ⟨_, hrun, h.crcstep crc data⟩
  case step =>
    rw [apply_ite data.getLsbD] at hfb
    rw [hfb]
    exact ⟨fun j hj => refStep_getLsbD_eq_ite _ _ _ _ hj, refStep_toNat (validate_eq_ok.1 hc).2.2 _ _ _⟩

/-! #### The steps, called with a Word -/

/-- R84: the predecessors of a left step are the old Word moved up by one position. -/
theorem map_predLeft {w : Word} (h : w ≠ []) :
    (List.range w.length).map (predLeft w) = .const false :: w.dropLast := by
  have hpos := List.length_pos_iff.2 h
  refine List.ext_getElem (by simp; omega) fun j hj _ => ?_
  rw [List.length_map, List.length_range] at hj
  cases j with
  | zero => simp [predLeft]
  | succ j => simp [predLeft, Nat.lt_of_succ_lt hj]

/-- R85: the predecessors of a right step are the old Word moved down by one position. -/
theorem map_predRight {w : Word} (h : w ≠ []) :
    (List.range w.length).map (predRight w) = w.tail ++ [.const false] := by
  have hpos := List.length_pos_iff.2 h
  refine List.ext_getElem (by simp; omega) fun j hj _ => ?_
  rw [List.length_map, List.length_range] at hj
  rw [List.getElem_append]
  split
  · next hlt =>
    rw [List.length_tail] at hlt
    simp [predRight, hlt, Nat.add_lt_of_lt_sub hlt]
  · next hge =>
    rw [List.length_tail] at hge
    simp [predRight, hge]

/-- R84, R85: the new element at a position, by its predecessor. -/
theorem getElem?_map_newElement {right : Bool} {w : Word} {j : Nat} {pred : BitExpr}
    (h : ((List.range w.length).map (if right then predRight w else predLeft w))[j]? = some pred) (d : BitExpr) (P : Nat) :
    ((List.range w.length).map (newElement right w d P))[j]? =
      some (stepElement pred (.xorOf [w.getD (if right then 0 else w.length - 1) (.const false), d]) (P.testBit j)) := by
  rw [List.getElem?_map, Option.map_eq_some_iff] at h ⊢
  obtain ⟨i, hi, rfl⟩ := h
  obtain rfl : j = i := by simpa using (List.getElem?_eq_some_iff.1 hi).2
  refine ⟨j, hi, ?_⟩
  cases right <;> rfl

section
variable {s : State} {w : WordSrc} {d : ExprSrc} {p : PolySrc} {x z : Word} {e : BitExpr}

/-- R84: a call of STEPL delivers the Word the step builds. -/
theorem exec_stepl_call (hw : readWord s w = .ok x) (hd : readExpr s d = .ok e)
    (h : stepWord false x e (readPoly s p) = .ok z) :
    exec (.stepl (.call w d p)) s = .next { s with result := some (.word z) } := by
  have hstep : stepl x e (readPoly s p) = .ok z := h
  simp only [exec, execStepl, hw, hd, hstep, andThen_ok, orRaise_ok]
  rfl

/-- R85: a call of STEPR delivers the Word the step builds. -/
theorem exec_stepr_call (hw : readWord s w = .ok x) (hd : readExpr s d = .ok e)
    (h : stepWord true x e (readPoly s p) = .ok z) :
    exec (.stepr (.call w d p)) s = .next { s with result := some (.word z) } := by
  have hstep : stepr x e (readPoly s p) = .ok z := h
  simp only [exec, execStepr, hw, hd, hstep, andThen_ok, orRaise_ok]
  rfl

end

/-- Settles O31: the step builds the Word position by position from the predecessors, which are the old Word moved up. -/
theorem leftStepBuildsTheNewWord : Obligations.LeftStepBuildsTheNewWord := by
  refine ⟨fun _ => rfl, fun s w d p x e top hw hd htop hwf => ?_⟩
  obtain ⟨he, hx⟩ := List.forall_mem_cons.1 hwf
  have hne : x ≠ [] := by rintro rfl; simp at htop
  have hquery : x.getD (x.length - 1) (.const false) = top := by
    rw [List.getD_eq_getElem?_getD, ← List.getLast?_eq_getElem?, htop, Option.getD_some]
  refine ⟨_, exec_stepl_call hw hd (stepWord_eq hne false he hx _), by simp, fun j pred hpred => ?_⟩
  rw [← map_predLeft hne] at hpred
  rw [getElem?_map_newElement (right := false) hpred, if_neg Bool.false_ne_true, hquery, stepElement]

/-- Settles O32: the step builds the Word position by position from the predecessors, which are the old Word moved down. -/
theorem rightStepBuildsTheNewWord : Obligations.RightStepBuildsTheNewWord := by
  refine ⟨fun _ => rfl, fun s w d p x e low hw hd hlow hwf => ?_⟩
  obtain ⟨he, hx⟩ := List.forall_mem_cons.1 hwf
  have hne : x ≠ [] := by rintro rfl; simp at hlow
  have hquery : x.getD 0 (.const false) = low := by
    rw [List.getD_eq_getElem?_getD, ← List.head?_eq_getElem?, hlow, Option.getD_some]
  refine ⟨_, exec_stepr_call hw hd (stepWord_eq hne true he hx _), by simp, fun j pred hpred => ?_⟩
  rw [← map_predRight hne] at hpred
  rw [getElem?_map_newElement (right := true) hpred, if_pos rfl, hquery, stepElement]

/-! #### The Words a run builds -/

/-- R19, R27, R86: where the run enables a step, its own step in its direction replaces the working Word. -/
theorem exec_step_run {s : State} {d : BitExpr} {x : Word} (hrun : s.status = .running) (hstepped : s.stepped = false)
    (hk : s.k < s.cfg.D) (hd : wget s.inData (dataIndex s.cfg s.k) = .ok d)
    (hx : stepWord s.cfg.right s.ww d s.cfg.P = .ok x) :
    exec (if s.cfg.right then .stepr .run else .stepl .run) s = .next (s.shift x) := by
  have henabled : s.stepEnabled s.cfg.right = true := by
    simp [State.stepEnabled, isRunning_iff, hrun, hstepped, hk]
  cases hright : s.cfg.right with
  | true =>
    rw [hright] at henabled hx
    have hstep : stepr s.ww d s.cfg.P = .ok x := hx
    simp [exec, execStepr, henabled, hd, hstep]
  | false =>
    rw [hright] at henabled hx
    have hstep : stepl s.ww d s.cfg.P = .ok x := hx
    simp [exec, execStepl, henabled, hd, hstep]

/-- R84, R85, R90: the run's own step after `k` passes builds a Word of `k + 1` data bits. -/
theorem exec_step_afterPasses_holds {c : Configuration} (hc : validate c = .ok ()) {k : Nat} (hk : k < c.D) {w : Word}
    (h : Holds c k w) (s : State) : ∃ x,
      exec (if c.right then .stepr .run else .stepl .run) (s.afterPasses c k w) = .next ((s.afterPasses c k w).shift x) ∧
        Holds c (k + 1) x := by
  obtain ⟨x, hx, hholds⟩ := h.step (validate_eq_ok.1 hc).1 hk
  exact ⟨x, exec_step_run (s := s.afterPasses c k w) rfl rfl hk (wget_inData hk) hx, hholds⟩

/-- R68, R94: the elements the loop keeps are well formed, also for the widths, and hold no `Const(1)`. -/
theorem ElementsOk.wellFormed {W D : Nat} {w : Word} (h : ElementsOk W D w) :
    ∀ e ∈ w, Machine.wf e = true ∧ wfw W D e = true ∧ hasNoOne e :=
  fun e he => ⟨h.wf e he, h e he⟩

/-- R89: GEN on a valid Configuration delivers the Word it answers. -/
theorem genOutputs_of_gen {c : Configuration} {w : Word} (h : gen c = .ok w) (s : State) :
    GenOutputs (.gen (.lit c)) s w := by
  refine ⟨(s.record (Run.finished c w)).deliver (outputOf w), ?_, rfl⟩
  rw [exec, execGen, readCfg, h]

/-- Settles O35: every Word of the run, in the middle of a pass, after it and at the end, is one of the loop, by induction on the
passes, and so is the one GEN answers. -/
theorem runsBuildWellFormedWords : Obligations.RunsBuildWellFormedWords := by
  refine fun c hc => ⟨fun k hk => ?run, fun s => ?gen⟩
  case run =>
    rcases Nat.lt_or_eq_of_le hk with hlt | rfl
    · obtain ⟨w, hrun, h⟩ := run_start_holds hc (Nat.le_of_lt_succ hlt)
      refine ⟨_, hrun, h.elements.wellFormed, fun hkD => ?_⟩
      obtain ⟨x, hexec, hx⟩ := exec_step_afterPasses_holds hc hkD h _
      exact ⟨_, hexec, hx.elements.wellFormed⟩
    · obtain ⟨w, x, hrun, h⟩ := run_start_finish_holds hc
      exact ⟨_, hrun, h.elements.wellFormed, fun hkD => by omega⟩
  case gen =>
    obtain ⟨w, hw, h⟩ := gen_holds hc
    exact ⟨w, genOutputs_of_gen hw s, h.elements.wellFormed⟩

end Sys2Proof.Machine

/-! ### The Word Container: building and reading a Word, and the passes on every element -/

namespace Sys2Proof.Machine

open Sys2Proof Sys2Proof.Safety

/-! #### What each operation concludes of the Word read -/

section
variable {s : State} {w : WordSrc} {x : Word}

theorem exec_wnew (h : readWord s w = .ok x) : exec (.wnew w) s = .next { s with result := some (.word x) } := by
  simp only [exec, execWnew, h, andThen_ok, conclude_ok, wnew, State.deliver]

theorem exec_wget (h : readWord s w = .ok x) (j : Nat) :
    exec (.wget w j) s = conclude (orRaise (wget x j) fun e => .ok (.expr e)) s := by
  simp only [exec, execWget, h, andThen_ok]

theorem exec_wflat_call (h : readWord s w = .ok x) :
    exec (.wflat (.call w)) s = conclude (orRaise (wflat x) fun y => .ok (.word y)) s := by
  simp only [exec, execWflat, h, andThen_ok]

theorem exec_wsimp_call (h : readWord s w = .ok x) (o : OptSrc) (sortLex : Bool) :
    exec (.wsimp (.call w o sortLex)) s =
      conclude (orRaise (wsimp x (readOpt s o) sortLex) fun y => .ok (.word y)) s := by
  simp only [exec, execWsimp, h, andThen_ok]

end

/-- Settles O38: WNEW delivers the Word read as it is; WGET answers the element at a position, and raises where there is none. -/
theorem wordsAreBuiltAndRead : Obligations.WordsAreBuiltAndRead := by
  refine ⟨fun _ _ => ⟨rfl, rfl⟩, fun s w x h => ⟨exec_wnew h, fun j => ⟨fun e he => ?element, fun hj => ?beyond⟩⟩⟩
  case element =>
    rw [exec_wget h, wget_eq_ok.2 he]
    rfl
  case beyond =>
    rw [exec_wget h, wget_of_le hj]
    rfl

/-! #### The passes on every element -/

/-- R98, R99: a guarded operation raises on a Word with an element that is not well formed, wherever it stands. -/
theorem mapWord_of_not_wf {f : BitExpr → Except Error BitExpr} {g : BitExpr → BitExpr}
    (hf : ∀ e, f e = guardWf e (.ok (g e))) {x : Word} (h : ∃ e ∈ x, wf e = false) :
    mapWord f x = violation .emptyXor := by
  induction x with
  | nil => simp at h
  | cons e x ih =>
    cases he : wf e with
    | false =>
      rw [mapWord, hf, guardWf_of_not_wf he]
      rfl
    | true =>
      have htail : ∃ a ∈ x, wf a = false := by simpa [he] using h
      rw [mapWord, hf, guardWf_of_wf he, bind_ok, ih htail]
      rfl

theorem wflat_of_not_wf {x : Word} (h : ∃ e ∈ x, wf e = false) : wflat x = violation .emptyXor :=
  mapWord_of_not_wf (fun _ => rfl) h

theorem wsimp_of_not_wf {x : Word} (h : ∃ e ∈ x, wf e = false) (opt : OptFlags) (sortLex : Bool) :
    wsimp x opt sortLex = violation .emptyXor :=
  mapWord_of_not_wf (fun e => simplify_eq_guardWf e opt sortLex) h

/-- A pass called on each element of a well-formed Word alone delivers, one by one, the elements it answers. -/
theorem forall₂_passOutcome {i : BitExpr → Instr} {g : BitExpr → BitExpr} {s : State} {x : Word}
    (hi : ∀ e, exec (i e) s = passOutcome e (g e) s) (hx : ∀ e ∈ x, wf e = true) :
    List.Forall₂ (fun e f => exec (i e) s = .next { s with result := some (.expr f) }) x (x.map g) := by
  rw [List.forall₂_map_right_iff, List.forall₂_same]
  exact fun e he => (hi e).trans (passOutcome_of_wf (hx e he) _ s)

/-- Settles O39: on a well-formed Word both passes answer element by element what FLATTEN and SIMP answer; an element that is not
well formed stops them. -/
theorem wordPassesWorkElementByElement : Obligations.WordPassesWorkElementByElement := by
  refine ⟨fun _ _ => ⟨rfl, rfl⟩, fun s w o sortLex x h => ?_⟩
  rw [exec_wflat_call h, exec_wsimp_call h]
  refine ⟨fun hx => ⟨?flat, ?simp⟩, fun hx => ?raises⟩
  case flat =>
    rw [wflat_of_wf hx]
    exact ⟨_, rfl, forall₂_passOutcome (fun e => exec_flatten (readExpr_lit s e)) hx⟩
  case simp =>
    rw [wsimp_of_wf hx]
    exact ⟨_, rfl, forall₂_passOutcome (fun e => exec_simplify (readExpr_lit s e) o sortLex) hx⟩
  case raises =>
    rw [wflat_of_not_wf hx, wsimp_of_not_wf hx]
    exact ⟨rfl, rfl⟩

end Sys2Proof.Machine

/-! ### The datapath: CRCSTEP, the reference function, CRCSTREAM and BITREV -/

namespace Sys2Proof.Machine

open Sys2Proof Sys2Proof.Safety

/-! #### What each operation concludes of the Word read -/

section
variable {s : State} {w : WordSrc} {x : Word} {W D : Nat}

/-- R36: vectors of the Word's length and of its run's `D` are legal arguments beside it. -/
theorem vectorsFit_of_readWord (h : readWord s w = .ok x) (hlen : x.length = W)
    (hD : ∀ r y, w = .reg r → s.runOf r = some y → D = y.cfg.D) : vectorsFit s w x W D = true := by
  cases w with
  | lit v => simp [vectorsFit, hlen]
  | reg r =>
    cases hr : s.runOf r with
    | none =>
      rw [readWord, readReg_of_none hr] at h
      cases h
    | some y => simp [vectorsFit, hlen, hr, hD r y rfl hr]

theorem exec_crcstep (h : readWord s w = .ok x) (hfit : vectorsFit s w x W D = true) (crc : BitVec W) (data : BitVec D) :
    exec (.crcstep w ⟨W, crc⟩ ⟨D, data⟩) s = conclude (orRaise (crcstep x crc data) fun v => .ok (.bits ⟨W, v⟩)) s := by
  simp only [exec, execCrcstep, h, andThen_ok, hfit, if_true]

theorem exec_crcstream (h : readWord s w = .ok x) (hfit : vectorsFit s w x W D = true) (init : BitVec W)
    (ws : List (BitVec D)) (xorout : BitVec W) : exec (.crcstream w ⟨W, D, init, ws, xorout⟩) s =
      conclude (orRaise (crcstream x init ws xorout) fun v => .ok (.bits ⟨W, v⟩)) s := by
  simp only [exec, execCrcstream, h, andThen_ok, hfit, if_true]

theorem exec_crcstep_of_ok (h : readWord s w = .ok x) (hfit : vectorsFit s w x W D = true) {crc v : BitVec W}
    {data : BitVec D} (hv : crcstep x crc data = .ok v) :
    exec (.crcstep w ⟨W, crc⟩ ⟨D, data⟩) s = .next { s with result := some (.bits ⟨W, v⟩) } := by
  rw [exec_crcstep h hfit, hv]
  rfl

theorem exec_crcstep_of_violation (h : readWord s w = .ok x) (hfit : vectorsFit s w x W D = true) {crc : BitVec W}
    {data : BitVec D} {c : ContractCause} (hc : crcstep x crc data = violation c) :
    exec (.crcstep w ⟨W, crc⟩ ⟨D, data⟩) s = .fault (.contractViolation c) := by
  rw [exec_crcstep h hfit, hc]
  rfl

end

/-- R117: CRCSTEP answers a vector or raises a contract violation. -/
theorem crcstep_cases {W D : Nat} (x : Word) (crc : BitVec W) (data : BitVec D) :
    (∃ v, crcstep x crc data = .ok v) ∨ ∃ c, crcstep x crc data = violation c := by
  cases h : crcstep x crc data with
  | ok v => exact .inl ⟨v, rfl⟩
  | error e =>
    obtain ⟨c, rfl⟩ := onlyViolations_crcstep x crc data e h
    exact .inr ⟨c, rfl⟩

/-! #### CRCSTEP -/

/-- R102, R122: the evaluation of a Word with an element that is not well formed for the widths stops at the first such element,
with the violation BXEVAL raises on it. -/
theorem evalWord_of_not_wfw {W D : Nat} (crc : BitVec W) (data : BitVec D) {x : Word} (h : ∃ e ∈ x, wfw W D e = false) :
    evalWord crc data x = violation .emptyXor ∨ evalWord crc data x = violation .indexOutOfRange := by
  induction x with
  | nil => simp at h
  | cons e x ih =>
    cases he : wfw W D e with
    | false =>
      rw [evalWord]
      rcases bxeval_of_not_wfw crc data he with hx | ⟨hx, -⟩
      · exact .inr (by rw [hx]; rfl)
      · exact .inl (by rw [hx]; rfl)
    | true =>
      have htail : ∃ a ∈ x, wfw W D a = false := by simpa [he] using h
      rw [evalWord, bxeval_of_wfw crc data e he, bind_ok]
      exact (ih htail).imp (fun hx => by rw [hx]; rfl) fun hx => by rw [hx]; rfl

theorem crcstep_of_not_wfw {W D : Nat} (crc : BitVec W) (data : BitVec D) {x : Word} (h : ∃ e ∈ x, wfw W D e = false) :
    ∃ c, crcstep x crc data = violation c ∧ (c = .emptyXor ∨ c = .indexOutOfRange) := by
  rcases evalWord_of_not_wfw crc data h with hx | hx
  · exact ⟨.emptyXor, by rw [crcstep, hx]; rfl, .inl rfl⟩
  · exact ⟨.indexOutOfRange, by rw [crcstep, hx]; rfl, .inr rfl⟩

/-- Settles O41: on a Word well formed for the widths CRCSTEP answers the vector of the values, which BXEVAL delivers one by one; an
element that is not stops it with the violation BXEVAL raises. -/
theorem datapathEvaluatesEachElement : Obligations.DatapathEvaluatesEachElement := by
  refine ⟨fun _ _ _ => rfl, fun s w x W D crc data h hlen hD => ?_⟩
  have hfit := vectorsFit_of_readWord h hlen hD
  refine ⟨fun hx => ?values, fun hx => ?raises⟩
  case values =>
    have hv := crcstep_of_wfw crc data hlen hx
    refine ⟨wordVal crc data x, exec_crcstep_of_ok h hfit hv, hv, fun j e he => ?_⟩
    have hbit : (wordVal crc data x).getLsbD j = val crc data e := by
      rw [wordVal_getLsbD crc data x hlen, List.getD_eq_getElem?_getD, he, Option.getD_some]
    rw [exec_bxeval (readExpr_lit s e), bxeval_of_wfw crc data e (hx e (List.mem_of_getElem? he)), hbit]
    rfl
  case raises =>
    obtain ⟨c, hc, hcause⟩ := crcstep_of_not_wfw crc data hx
    exact ⟨c, exec_crcstep_of_violation h hfit hc, hcause⟩

/-! #### The Word GEN delivers -/

/-- R104: the loop invariant at `k = D`: the Word GEN answers denotes the reference function. -/
theorem gen_denotes_crcref {c : Configuration} (hc : validate c = .ok ()) : ∃ w, gen c = .ok w ∧ w.length = c.W ∧
    ∀ (crc : BitVec c.W) (data : BitVec c.D),
      crcstep w crc data = .ok (crcref crc data (BitVec.ofNat c.W c.P) c.right) := by
  obtain ⟨w, hw, h⟩ := gen_holds hc
  exact ⟨w, hw, h.length_eq, h.crcstep⟩

/-- Settles O43: the Word GEN delivers has `W` elements and denotes the reference function, which CRCREF delivers. -/
theorem genAgreesWithTheReference : Obligations.GenAgreesWithTheReference := by
  intro s c hc
  obtain ⟨w, hw, hlen, href⟩ := gen_denotes_crcref hc
  have hfit (t : State) : vectorsFit t (.lit w) w c.W c.D = true := vectorsFit_of_readWord (readWord_lit t w) hlen nofun
  exact ⟨w, genOutputs_of_gen hw s, fun t crc data => ⟨_, exec_crcstep_of_ok (readWord_lit t w) (hfit t) (href crc data), rfl⟩⟩

/-- Settles O44: VALIDATE does not read the flags, nor does the reference function, which both Words denote. -/
theorem flagsDoNotChangeTheFunction : Obligations.FlagsDoNotChangeTheFunction := by
  intro s P W D right o o' hc
  have hc' : validate ⟨P, W, D, right, o'⟩ = .ok () := hc
  obtain ⟨w, hw, -, href⟩ := gen_denotes_crcref hc
  obtain ⟨w', hw', -, href'⟩ := gen_denotes_crcref hc'
  exact ⟨w, w', genOutputs_of_gen hw s, genOutputs_of_gen hw' s, fun crc data => ⟨_, href crc data, href' crc data⟩⟩

/-! #### The loop of the reference function -/

/-- R103: the data bit the iteration at `k` consumes. -/
def refBit {D : Nat} (data : BitVec D) (right : Bool) (k : Nat) : Bool :=
  data.getLsbD (if right then k else D - 1 - k)

theorem refAfter_succ {W D : Nat} (crc : BitVec W) (data : BitVec D) (P : BitVec W) (right : Bool) (k : Nat) :
    refAfter crc data P right (k + 1) = refStep P right (refAfter crc data P right k) (refBit data right k) := by
  cases right <;> rfl

/-- A loop over `0, ..., n - 1` computes every sequence that its body steps through. -/
theorem foldl_range_eq_of_step {α : Type} {f : α → Nat → α} {g : Nat → α} (h : ∀ k, f (g k) k = g (k + 1)) (n : Nat) :
    (List.range n).foldl f (g 0) = g n := by
  induction n with
  | zero => rfl
  | succ n ih => rw [List.range_succ, List.foldl_append, ih, List.foldl_cons, List.foldl_nil, h]

/-- R103: the loop on numbers computes the reference function. -/
theorem numericRef_eq_toNat_crcref {W D : Nat} (crc : BitVec W) (data : BitVec D) (P : BitVec W) (right : Bool) :
    numericRef W D right crc.toNat data.toNat P.toNat = (crcref crc data P right).toNat := by
  refine foldl_range_eq_of_step (g := fun k => (refAfter crc data P right k).toNat) (fun k => ?_) D
  have hstep := refStep_toNat P.isLt right (refAfter crc data P right k) (refBit data right k)
  rw [BitVec.ofNat_toNat, BitVec.setWidth_eq] at hstep
  rw [refAfter_succ, hstep, apply_ite (HXor.hXor _), Nat.xor_zero]
  simp only [BitVec.testBit_toNat, refBit, apply_ite (BitVec.getLsbD _)]

/-- Settles O42: the loop on numbers computes the register of CRCREF, iteration by iteration. -/
theorem referenceFunctionIsTheLoop : Obligations.ReferenceFunctionIsTheLoop :=
  ⟨fun _ => rfl, fun _ _ _ _ => ⟨_, rfl, (numericRef_eq_toNat_crcref _ _ _ _).symm, rfl⟩⟩

/-! #### Linearity -/

/-- R112: an iteration is linear in the register and the data bit. -/
theorem refStep_xor {W : Nat} (P : BitVec W) (right : Bool) (r₁ r₂ : BitVec W) (b₁ b₂ : Bool) :
    refStep P right (r₁ ^^^ r₂) (b₁ ^^ b₂) = refStep P right r₁ b₁ ^^^ refStep P right r₂ b₂ := by
  refine BitVec.eq_of_getLsbD_eq fun j hj => ?_
  simp only [BitVec.getLsbD_xor, refStep_getLsbD _ _ _ _ _ hj]
  cases right <;>
    simp only [Bool.and_xor_distrib_left, Bool.xor_assoc, Bool.xor_left_comm, if_true, Bool.false_eq_true, if_false]

theorem refAfter_xor {W D : Nat} (P : BitVec W) (right : Bool) (c₁ c₂ : BitVec W) (d₁ d₂ : BitVec D) (k : Nat) :
    refAfter (c₁ ^^^ c₂) (d₁ ^^^ d₂) P right k = refAfter c₁ d₁ P right k ^^^ refAfter c₂ d₂ P right k := by
  induction k with
  | zero => rfl
  | succ k ih =>
    have hbit : refBit (d₁ ^^^ d₂) right k = (refBit d₁ right k ^^ refBit d₂ right k) := BitVec.getLsbD_xor
    simp only [refAfter_succ, ih, hbit, refStep_xor]

/-- R112: CRCREF is linear in the register and the data word. -/
theorem crcref_xor {W D : Nat} (P : BitVec W) (right : Bool) (c₁ c₂ : BitVec W) (d₁ d₂ : BitVec D) :
    crcref (c₁ ^^^ c₂) (d₁ ^^^ d₂) P right = crcref c₁ d₁ P right ^^^ crcref c₂ d₂ P right :=
  refAfter_xor P right c₁ c₂ d₁ d₂ D

theorem crcref_zero {W D : Nat} (P : BitVec W) (right : Bool) : crcref 0#W 0#D P right = 0#W := by
  have h := crcref_xor P right 0#W 0#W 0#D 0#D
  rwa [BitVec.xor_self, BitVec.xor_self, BitVec.xor_self] at h

/-- R103: an iteration whose feedback bit is 0 is a pure shift. -/
theorem refStep_of_feedback_eq {W : Nat} (P : BitVec W) (right : Bool) (r : BitVec W) :
    refStep P right r (if right then r.getLsbD 0 else r.getLsbD (W - 1)) = if right then r >>> 1 else r <<< 1 := by
  rw [refStep_eq_xor, Bool.xor_self, if_neg Bool.false_ne_true, BitVec.xor_zero]

/-- A data word equal to the register meets its own bits at the end that is shifted out, so no iteration feeds back. -/
theorem refAfter_self {W : Nat} (d P : BitVec W) (right : Bool) {k : Nat} (hk : k ≤ W) :
    refAfter d d P right k = if right then d >>> k else d <<< k := by
  induction k with
  | zero => cases right <;> simp [refAfter]
  | succ k ih =>
    have hbit : refBit d right k = if right then (d >>> k).getLsbD 0 else (d <<< k).getLsbD (W - 1) := by
      cases right with
      | true => simp [refBit]
      | false =>
        have hlast : W - 1 < W := by omega
        have hshift : ¬ W - 1 < k := by omega
        simp only [refBit, BitVec.getLsbD_shiftLeft, hlast, hshift, decide_true, decide_false, Bool.not_false,
          Bool.true_and, Bool.false_eq_true, if_false]
    rw [refAfter_succ, ih (Nat.le_of_succ_le hk), hbit]
    cases right with
    | true => exact (refStep_of_feedback_eq P true (d >>> k)).trans (BitVec.shiftRight_add d k 1).symm
    | false => exact (refStep_of_feedback_eq P false (d <<< k)).trans (BitVec.shiftLeft_add d k 1).symm

/-- R112: where `W = D`, the register and an equal data word cancel. -/
theorem crcref_self {W : Nat} (d P : BitVec W) (right : Bool) : crcref d d P right = 0#W := by
  rw [crcref, refAfter_self d P right le_rfl, BitVec.ushiftRight_eq_zero le_rfl, BitVec.shiftLeft_eq_zero le_rfl, ite_self]

/-- R112: where `W = D`, CRCREF depends on `crc xor data` only. -/
theorem crcref_eq_crcref_xor {W D : Nat} (h : W = D) (crc : BitVec W) (data : BitVec D) (P : BitVec W) (right : Bool) :
    crcref crc data P right = crcref (crc ^^^ data.cast h.symm) 0#D P right := by
  subst h
  calc crcref crc data P right
      = crcref crc data P right ^^^ crcref data data P right := by rw [crcref_self, BitVec.xor_zero]
    _ = crcref (crc ^^^ data) 0#W P right := by rw [← crcref_xor, BitVec.xor_self]

/-- Settles O52: the Word GEN delivers denotes the reference function, which is linear, maps zeros to zero, and for `W = D` is 0 where
the register and the data word are equal. -/
theorem datapathIsLinear : Obligations.DatapathIsLinear := by
  intro s c hc
  obtain ⟨w, hw, -, href⟩ := gen_denotes_crcref hc
  exact ⟨w, genOutputs_of_gen hw s, fun crc data => crcref crc data (BitVec.ofNat c.W c.P) c.right, href,
    crcref_xor _ _, crcref_zero _ _, fun h crc data => crcref_eq_crcref_xor h crc data _ _⟩

/-! #### Wide data words -/

/-- R113: the iterations from `k` on, over the bits of another data word that is named in the first. -/
theorem refAfter_add {W D D' : Nat} (crc : BitVec W) {data : BitVec D} {data' : BitVec D'} (P : BitVec W) {right : Bool}
    {k n : Nat} (h : ∀ i < n, refBit data right (k + i) = refBit data' right i) :
    refAfter crc data P right (k + n) = refAfter (refAfter crc data P right k) data' P right n := by
  induction n with
  | zero => rfl
  | succ n ih =>
    rw [← Nat.add_assoc, refAfter_succ, refAfter_succ, h n (Nat.lt_succ_self n), ih fun i hi => h i (Nat.lt_succ_of_lt hi)]

/-- R113: a data word whose bits are consumed in the order of those of two others is a sequence of the two. -/
theorem crcref_eq_crcref_crcref {W D₁ D₂ : Nat} (crc P : BitVec W) {right : Bool} {data : BitVec (D₁ + D₂)}
    {d₁ : BitVec D₁} {d₂ : BitVec D₂} (h₁ : ∀ i < D₁, refBit data right i = refBit d₁ right i)
    (h₂ : ∀ i < D₂, refBit data right (D₁ + i) = refBit d₂ right i) :
    crcref crc data P right = crcref (crcref crc d₁ P right) d₂ P right := by
  have hfirst : refAfter crc data P right D₁ = crcref crc d₁ P right := by
    have h := refAfter_add crc P (k := 0) (n := D₁) (data := data) (by simpa only [Nat.zero_add] using h₁)
    rwa [Nat.zero_add] at h
  rw [crcref, refAfter_add crc P h₂, hfirst]
  rfl

/-- Settles O53: in each direction the first `D1` iterations consume the bits of one slice in order, and the others those of the
other. -/
theorem wideWordsAreSequencesOfNarrowOnes : Obligations.WideWordsAreSequencesOfNarrowOnes := by
  refine fun W D1 D2 crc P data _ _ _ => ⟨crcref_eq_crcref_crcref crc P ?leftFirst ?leftSecond,
    crcref_eq_crcref_crcref crc P ?rightFirst ?rightSecond⟩
  case leftFirst =>
    intro i hi
    have hpos : D1 + D2 - 1 - i = D2 + (D1 - 1 - i) := by omega
    have hlt : D1 - 1 - i < D1 := by omega
    simp [refBit, hpos, hlt]
  case leftSecond =>
    intro i hi
    have hpos : D1 + D2 - 1 - (D1 + i) = D2 - 1 - i := by omega
    have hlt : D2 - 1 - i < D2 := by omega
    simp [refBit, hpos, hlt]
  case rightFirst =>
    intro i hi
    simp [refBit, hi]
  case rightSecond =>
    intro i hi
    simp [refBit, hi]

/-! #### CRCSTREAM -/

/-- R108: the first data word makes the register value of its CRCSTEP, and the others go on from it. -/
theorem crcstream_cons {W D : Nat} (x : Word) (init : BitVec W) (d : BitVec D) (ws : List (BitVec D)) (xorout : BitVec W) :
    crcstream x init (d :: ws) xorout = (crcstep x init d).bind fun r => crcstream x r ws xorout := by
  rw [crcstream, streamRegister]
  cases crcstep x init d <;> rfl

/-- R108: CRCSTREAM completes where CRCSTEP does. -/
theorem crcstream_of_wfw {W D : Nat} {x : Word} (hlen : x.length = W) (hx : ∀ e ∈ x, wfw W D e = true) (init : BitVec W)
    (ws : List (BitVec D)) (xorout : BitVec W) : ∃ v, crcstream x init ws xorout = .ok v := by
  induction ws generalizing init with
  | nil => exact ⟨_, rfl⟩
  | cons d ws ih =>
    rw [crcstream_cons, crcstep_of_wfw init d hlen hx, bind_ok]
    exact ih _

/-- Settles O49: CRCSTREAM follows the list of data words; each CRCSTEP of it is the operation's, whose value or error decides how the
stream goes on. -/
theorem streamAppliesTheStepOncePerWord : Obligations.StreamAppliesTheStepOncePerWord := by
  refine ⟨fun _ _ => rfl, fun s w x W D xorout h hlen hD => ?_⟩
  have hfit := vectorsFit_of_readWord h hlen hD
  refine ⟨fun init => ?empty, fun init v d ws hstep => ?next, fun init d ws f hstep => ?raises,
    fun hx init ws => ?completes⟩
  case empty =>
    rw [exec_crcstream h hfit]
    rfl
  case next =>
    rcases crcstep_cases x init d with ⟨u, hu⟩ | ⟨c, hc⟩
    · obtain rfl : u = v := by simpa [exec_crcstep_of_ok h hfit hu] using hstep
      rw [exec_crcstream h hfit, exec_crcstream h hfit, crcstream_cons, hu, bind_ok]
    · simp [exec_crcstep_of_violation h hfit hc] at hstep
  case raises =>
    rcases crcstep_cases x init d with ⟨u, hu⟩ | ⟨c, hc⟩
    · simp [exec_crcstep_of_ok h hfit hu] at hstep
    · rw [← hstep, exec_crcstep_of_violation h hfit hc, exec_crcstream h hfit, crcstream_cons, hc]
      rfl
  case completes =>
    obtain ⟨v, hv⟩ := crcstream_of_wfw hlen hx init ws xorout
    rw [exec_crcstream h hfit, hv]
    exact ⟨v, rfl⟩

/-! #### Bit reversal and the two directions -/

theorem bitrev_bitrev {n : Nat} (v : BitVec n) : bitrev (bitrev v) = v := by
  refine BitVec.eq_of_getLsbD_eq fun i hi => ?_
  have hlt : n - 1 - i < n := by omega
  have hback : n - 1 - (n - 1 - i) = i := by omega
  simp only [bitrev_getLsbD, hi, hlt, hback, decide_true, Bool.true_and]

/-- Settles O50: the reversed vector bit by bit, and reversing is its own inverse. -/
theorem bitReversalReverses : Obligations.BitReversalReverses := by
  refine ⟨fun _ => rfl, fun s n v => ⟨bitrev v, rfl, rfl, fun i hi => ?bits, ?involution⟩⟩
  case bits => rw [bitrev_getLsbD, decide_eq_true hi, Bool.true_and]
  case involution =>
    rw [exec, execBitrev, bitrev_bitrev]
    rfl

/-- R110: reversing every vector turns a left iteration into the right one on the reversed register. -/
theorem refStep_bitrev {W : Nat} (P r : BitVec W) (b : Bool) :
    refStep (bitrev P) true (bitrev r) b = bitrev (refStep P false r b) := by
  refine BitVec.eq_of_getLsbD_eq fun j hj => ?_
  have hlt : W - 1 - j < W := by omega
  have hpos : 0 < W := by omega
  have hpred : decide (j + 1 < W) = decide (0 < W - 1 - j) := by rw [decide_eq_decide]; omega
  have hpred' : W - 1 - (j + 1) = W - 1 - j - 1 := by omega
  simp only [refStep_getLsbD _ _ _ _ _ hj, bitrev_getLsbD, refStep_getLsbD _ _ _ _ _ hlt, hj, hpos, hpred, hpred',
    decide_true, Bool.true_and, Nat.sub_zero, if_true, Bool.false_eq_true, if_false]

/-- R110: the right reference function consumes the reversed data word in the order in which the left one consumes the word. -/
theorem refBit_bitrev {D : Nat} (data : BitVec D) {k : Nat} (hk : k < D) :
    refBit (bitrev data) true k = refBit data false k := by
  simp only [refBit, bitrev_getLsbD, hk, decide_true, Bool.true_and, if_true, Bool.false_eq_true, if_false]

theorem refAfter_bitrev {W D : Nat} (crc P : BitVec W) (data : BitVec D) {k : Nat} (hk : k ≤ D) :
    refAfter (bitrev crc) (bitrev data) (bitrev P) true k = bitrev (refAfter crc data P false k) := by
  induction k with
  | zero => rfl
  | succ k ih => rw [refAfter_succ, refAfter_succ, ih (Nat.le_of_succ_le hk), refBit_bitrev data hk, refStep_bitrev]

/-- Settles O51: by induction on the iterations the right register on reversed operands is the left one reversed, and reversing is its
own inverse. -/
theorem directionsAreMirrorImages : Obligations.DirectionsAreMirrorImages := by
  intro W D crc P data _ _
  rw [crcref, crcref, refAfter_bitrev crc P data le_rfl, bitrev_bitrev]

end Sys2Proof.Machine

/-! ### The XOR Simplifier: the shape of what it answers, and canonicity -/

namespace Sys2Proof.Machine

open Sys2Proof Sys2Proof.Safety

/-! #### The survivors of a list of leaves -/

theorem isInput_of_not_isXor {e : BitExpr} (hx : isXor e = false) (hone : e ≠ .const true) (hzero : e ≠ .const false) :
    isInput e = true := by
  match e with
  | .input _ _ => rfl
  | .const true => exact absurd rfl hone
  | .const false => exact absurd rfl hzero
  | .xor _ => simp [isXor] at hx

/-- R72: of a list of leaves exactly the input bits of odd count are kept in place. -/
theorem mem_survivorsOf {l : List BitExpr} (h : ∀ e ∈ l, isXor e = false) (e : BitExpr) :
    e ∈ survivorsOf l ↔ isInput e = true ∧ l.count e % 2 = 1 := by
  rw [survivorsOf_eq_keptFrom]
  cases e with
  | input s i =>
    have hmem : l.count (.input s i) % 2 = 1 → BitExpr.input s i ∈ l := fun ho => List.count_pos_iff.1 (by omega)
    rw [← List.count_pos_iff, count_input_keptFrom]
    by_cases ho : l.count (.input s i) % 2 = 1
    · simp [ho, hmem ho, isInput]
    · simp [ho]
  | const b => simp [const_not_mem_keptFrom, isInput]
  | xor m =>
    have hnot : BitExpr.xor m ∉ keptFrom l [] l := fun hm => by simpa [isXor] using h _ (mem_keptFrom hm)
    simp [hnot, isInput]

/-- R72: no input bit is kept in place twice. -/
theorem nodup_survivorsOf {l : List BitExpr} (h : ∀ e ∈ l, isXor e = false) : (survivorsOf l).Nodup := by
  rw [List.nodup_iff_count_le_one]
  intro e
  by_cases he : e ∈ survivorsOf l
  · cases e with
    | input s i =>
      rw [survivorsOf_eq_keptFrom, count_input_keptFrom]
      split <;> omega
    | const b => simpa [isInput] using (mem_survivorsOf h _).1 he
    | xor m => simpa [isInput] using (mem_survivorsOf h _).1 he
  · rw [List.count_eq_zero.2 he]
    omega

/-- R74, R80: what FLATTEN then ELIM answer on an `Xor`, from its leaves. -/
theorem eliminated_flattened_of_isXor {x : BitExpr} (h : isXor x = true) : eliminated (flattened x) =
    if surviving (leaves x) = [] then .const false else .xorOf (surviving (leaves x)) := by
  rw [flattened_eq_ite, if_pos h, eliminated_xorOf]

/-- Settles O28: the leaves that FLATTEN lists hold no `Xor`, so that ELIM keeps the input bits of odd count, and then the one
`Const(1)`. -/
theorem shapeAfterFlattenThenElim : Obligations.ShapeAfterFlattenThenElim := by
  intro s x hwf hx
  have hleaf : ∀ e ∈ leaves x, isXor e = false := fun _ => not_isXor_of_mem_leaves
  refine ⟨flattened x, eliminated (flattened x), ?flatten, ?elim, survivorsOf (leaves x), nodup_survivorsOf hleaf,
    mem_survivorsOf hleaf, ?shape⟩
  case flatten => rw [exec_flatten (readExpr_lit s x), passOutcome_of_wf hwf]
  case elim => rw [exec_elim (readExpr_lit s _), passOutcome_of_wf (wf_flattened hwf)]
  case shape =>
    rw [eliminated_flattened_of_isXor hx, surviving_eq_survivorsOf_append_onesOf]
    exact ⟨fun hnone => if_pos hnone, fun hsome => if_neg hsome⟩

/-! #### The value of a tree determines the parities of its leaves -/

/-- R51: the CRC vector under which, of the input bits, only the named one is 1. -/
def unitCrc (W : Nat) (s : SourceId) (i : Nat) : BitVec W :=
  match s with
  | .crc => BitVec.twoPow W i
  | .data => 0#W

/-- R51: the data vector under which, of the input bits, only the named one is 1. -/
def unitData (D : Nat) (s : SourceId) (i : Nat) : BitVec D :=
  match s with
  | .crc => 0#D
  | .data => BitVec.twoPow D i

/-- Setting one input bit changes the value of that leaf and of no other. -/
theorem val_unit_of_leaf {W D : Nat} {e : BitExpr} (hleaf : isXor e = false) (h : wfw W D e = true) (s : SourceId) (i : Nat) :
    val (unitCrc W s i) (unitData D s i) e = (val 0#W 0#D e ^^ decide (e = .input s i)) := by
  match e, s with
  | .input .crc j, .crc =>
    have hj : j < W := by simpa [wfw] using h
    by_cases hij : i = j
    · simp [val, unitCrc, hij, hj]
    · simp [val, unitCrc, hij, Ne.symm hij]
  | .input .data j, .data =>
    have hj : j < D := by simpa [wfw] using h
    by_cases hij : i = j
    · simp [val, unitData, hij, hj]
    · simp [val, unitData, hij, Ne.symm hij]
  | .input .crc j, .data => simp [val, unitCrc]
  | .input .data j, .crc => simp [val, unitData]
  | .const b, _ => simp [val]
  | .xor m, _ => simp [isXor] at hleaf

/-- Setting one input bit changes the sum of a list of leaves where the bit occurs an odd number of times. -/
theorem sumVal_unit {W D : Nat} {l : List BitExpr} (hleaf : ∀ e ∈ l, isXor e = false) (h : ∀ e ∈ l, wfw W D e = true)
    (s : SourceId) (i : Nat) : sumVal (unitCrc W s i) (unitData D s i) l =
      (sumVal 0#W 0#D l ^^ decide (l.count (.input s i) % 2 = 1)) := by
  induction l with
  | nil => rfl
  | cons e l ih =>
    rw [List.forall_mem_cons] at hleaf h
    rw [sumVal, sumVal, ih hleaf.2 h.2, val_unit_of_leaf hleaf.1 h.1]
    by_cases he : e = .input s i
    · have hodd : decide ((l.count (.input s i) + 1) % 2 = 1) = !decide (l.count (.input s i) % 2 = 1) := by
        rw [← decide_not, decide_eq_decide]
        omega
      simp [he, hodd]
    · simp [he]

/-- Under vectors of zeros the sum of a list of leaves is the parity of its `Const(1)`. -/
theorem sumVal_zero (W D : Nat) {l : List BitExpr} (hleaf : ∀ e ∈ l, isXor e = false) :
    sumVal 0#W 0#D l = decide (l.count (.const true) % 2 = 1) := by
  have hval : ∀ e ∈ l, val 0#W 0#D e = true ↔ (e == .const true) = true := fun e he => by
    match e, hleaf e he with
    | .input .crc i, _ => simp [val]
    | .input .data i, _ => simp [val]
    | .const b, _ => simp [val]
  rw [sumVal_eq_decide_countP, List.countP_congr hval, List.count]

/-- R80: trees of the same value have each leaf other than `Const(0)` with the same parity. -/
theorem count_leaves_mod_eq_of_val_eq {W D : Nat} {x y : BitExpr} (hx : wfw W D x = true) (hy : wfw W D y = true)
    (h : ∀ (crc : BitVec W) (data : BitVec D), val crc data x = val crc data y) {e : BitExpr}
    (he : isInput e = true ∨ e = .const true) : (leaves x).count e % 2 = (leaves y).count e % 2 := by
  have hsum (crc : BitVec W) (data : BitVec D) : sumVal crc data (leaves x) = sumVal crc data (leaves y) := by
    rw [← val_eq_sumVal_leaves, h, val_eq_sumVal_leaves]
  have hparity {m n : Nat} (hmn : decide (m % 2 = 1) = decide (n % 2 = 1)) : m % 2 = n % 2 := by
    rw [decide_eq_decide] at hmn
    omega
  have hleaf (z : BitExpr) : ∀ e ∈ leaves z, isXor e = false := fun _ => not_isXor_of_mem_leaves
  refine hparity ?_
  rcases he with he | rfl
  · cases e with
    | input s i =>
      have hunit := hsum (unitCrc W s i) (unitData D s i)
      rw [sumVal_unit (hleaf x) ((wfw_iff_leaves (wf_of_wfw hx)).1 hx),
        sumVal_unit (hleaf y) ((wfw_iff_leaves (wf_of_wfw hy)).1 hy), hsum] at hunit
      exact Bool.xor_right_inj.1 hunit
    | const b => simp [isInput] at he
    | xor m => simp [isInput] at he
  · rw [← sumVal_zero W D (hleaf x), hsum, sumVal_zero W D (hleaf y)]

/-- R80: lists of leaves with the same parities have the same survivors, up to their order. -/
theorem surviving_perm_of_count_mod_eq {l m : List BitExpr} (hl : ∀ e ∈ l, isXor e = false)
    (hm : ∀ e ∈ m, isXor e = false) (h : ∀ e, isInput e = true ∨ e = .const true → l.count e % 2 = m.count e % 2) :
    (surviving l).Perm (surviving m) := by
  have hinputs : (survivorsOf l).Perm (survivorsOf m) := by
    rw [List.perm_ext_iff_of_nodup (nodup_survivorsOf hl) (nodup_survivorsOf hm)]
    intro e
    rw [mem_survivorsOf hl, mem_survivorsOf hm]
    exact and_congr_right fun he => by rw [h e (.inl he)]
  have hones : onesOf l = onesOf m := by rw [onesOf, onesOf, h _ (.inr rfl)]
  rw [surviving_eq_survivorsOf_append_onesOf, surviving_eq_survivorsOf_append_onesOf, hones]
  exact hinputs.append_right _

/-! #### The keys of leaves tell them apart -/

theorem pad_injective {i j n : Nat} (h : pad i n = pad j n) : i = j := by
  rw [← ofDigitChars_pad i n, h, ofDigitChars_pad]

/-- R52: different leaves have different keys. -/
theorem keyText_injective_of_leaf {a b : BitExpr} (ha : isXor a = false) (hb : isXor b = false)
    (h : keyText a = keyText b) : a = b := by
  match a, b with
  | .input s i, .input s' j =>
    cases s <;> cases s' <;> simp [keyText, sourceName] at h ⊢
    all_goals exact pad_injective h
  | .input s i, .const c => cases s <;> cases c <;> simp [keyText, sourceName] at h
  | .const c, .input s i => cases s <;> cases c <;> simp [keyText, sourceName] at h
  | .const c, .const c' => cases c <;> cases c' <;> simp [keyText] at h ⊢
  | .xor m, _ => simp [isXor] at ha
  | _, .xor m => simp [isXor] at hb

/-- R73: LEXSORT puts the same leaves in the same order, whatever their order before. -/
theorem sortedByKey_eq_of_perm {l m : List BitExpr} (hl : ∀ e ∈ l, isXor e = false) (h : l.Perm m) :
    sortedByKey l = sortedByKey m := by
  have hperm : (sortedByKey l).Perm (sortedByKey m) :=
    (sortedByKey_perm l).trans (h.trans (sortedByKey_perm m).symm)
  refine hperm.eq_of_pairwise (fun a b ha hb hab hba => ?_) (sortedByKey_sorted l) (sortedByKey_sorted m)
  have hleaf {e : BitExpr} (he : e ∈ sortedByKey l) : isXor e = false := hl e ((sortedByKey_perm l).mem_iff.1 he)
  exact keyText_injective_of_leaf (hleaf ha) (hleaf (hperm.mem_iff.2 hb)) (keyLe_antisymm hab hba)

theorem isXor_of_mem_surviving_leaves {x e : BitExpr} (h : e ∈ surviving (leaves x)) : isXor e = false :=
  not_isXor_of_mem_leaves (mem_of_mem_surviving h)

/-- R74: what SIMP answers on an `Xor` under OPT_ALL where it sorts, from its leaves. -/
theorem simplified_optAll_of_isXor {x : BitExpr} (h : isXor x = true) : simplified x optAll true =
    if surviving (leaves x) = [] then .const false else .xorOf (sortedByKey (surviving (leaves x))) := by
  have hpasses : simplified x optAll true = lexsorted (eliminated (flattened x)) := rfl
  rw [hpasses, eliminated_flattened_of_isXor h]
  split
  · rfl
  · exact lexsorted_xorOf _

/-- R80: under OPT_ALL two `Xor` trees of the same value are simplified to the same node. -/
theorem simplified_optAll_eq_of_val_eq {W D : Nat} {x y : BitExpr} (hx : wfw W D x = true) (hy : wfw W D y = true)
    (hxx : isXor x = true) (hxy : isXor y = true)
    (h : ∀ (crc : BitVec W) (data : BitVec D), val crc data x = val crc data y) :
    simplified x optAll true = simplified y optAll true := by
  have hperm : (surviving (leaves x)).Perm (surviving (leaves y)) :=
    surviving_perm_of_count_mod_eq (fun _ => not_isXor_of_mem_leaves) (fun _ => not_isXor_of_mem_leaves) fun _ =>
      count_leaves_mod_eq_of_val_eq hx hy h
  have hnil : surviving (leaves x) = [] ↔ surviving (leaves y) = [] := by
    rw [← List.length_eq_zero_iff, hperm.length_eq, List.length_eq_zero_iff]
  simp only [simplified_optAll_of_isXor hxx, simplified_optAll_of_isXor hxy, hnil,
    sortedByKey_eq_of_perm (fun _ => isXor_of_mem_surviving_leaves) hperm]

/-- Settles O29: vectors with one bit set tell the parity of each input bit from the value, so that the survivors are the same up to
their order, which LEXSORT fixes since the keys of leaves are different. -/
theorem simplifiedFormIsCanonical : Obligations.SimplifiedFormIsCanonical := by
  intro s W D x y hx hy hxx hxy h
  have hval (crc : BitVec W) (data : BitVec D) : val crc data x = val crc data y := by
    simpa [bxeval_of_wfw crc data x hx, bxeval_of_wfw crc data y hy] using h crc data
  refine ⟨simplified x optAll true, ?_, ?_⟩
  · rw [exec_simplify (readExpr_lit s x), passOutcome_of_wf (wf_of_wfw hx)]
    rfl
  · rw [exec_simplify (readExpr_lit s y), passOutcome_of_wf (wf_of_wfw hy),
      simplified_optAll_eq_of_val_eq hx hy hxx hxy hval]
    rfl

end Sys2Proof.Machine

/-! ### The Register Unroll Algorithm: the shape of the elements a run builds -/

namespace Sys2Proof.Machine

open Sys2Proof Sys2Proof.Safety

/-! #### The Words of the loop, and the runs that hold them -/

/-- R27, R89: after `k` transitions a run that has started holds the Word of `k` passes of the loop. -/
theorem run_start_unrolled {c : Configuration} {k : Nat} (hk : k ≤ c.D) {w : Word} (hw : unrolled c k = .ok w) :
    Sys2Proof.core.run k (State.start c) = .next ((State.start c).afterPasses c k w) := by
  have hrun := run_afterPasses (s := State.start c) (k := 0) rfl (by omega) rfl ((Nat.zero_add k).symm ▸ hw)
  rwa [Nat.zero_add] at hrun

/-- R87, R89: every Word of the loop but the first is what a pass that does not sort answers on a Word of as many data bits. -/
theorem exists_wsimp_of_unrolled_succ {c : Configuration} (hW : 1 ≤ c.W) {k : Nat} (hk : k < c.D) {w : Word}
    (h : unrolled c (k + 1) = .ok w) :
    ∃ v x, unrolled c k = .ok v ∧ Holds c k v ∧ stepWord c.right v (.input .data (dataIndex c k)) c.P = .ok x ∧
      Holds c (k + 1) x ∧ w = x.map fun e => simplified e c.opt false := by
  obtain ⟨v, hv, hholds⟩ := unrolled_holds hW hk.le
  obtain ⟨x, hx, hxholds⟩ := hholds.step hW hk
  rw [unrolled, hv, bind_ok, loopBody, wget_inData hk, bind_ok, hx, bind_ok, wsimp_of_wf hxholds.elements.wf] at h
  exact ⟨v, x, hv, hholds, hx, hxholds, (Except.ok.inj h).symm⟩

/-! #### The bound on the operands -/

theorem isInput_of_mem_surviving_leaves {x e : BitExpr} (hone : hasNoOne x) (h : e ∈ surviving (leaves x)) :
    isInput e = true :=
  isInput_of_not_isXor (isXor_of_mem_surviving_leaves h) (fun he => hone (he ▸ mem_of_mem_surviving h))
    fun he => List.count_eq_zero.1 (count_zero_surviving (leaves x)) (he ▸ h)

/-- R80, R94: no operand stands twice in what FLATTEN then ELIM leave of a tree without `Const(1)`. -/
theorem nodup_surviving_leaves {x : BitExpr} (hone : hasNoOne x) : (surviving (leaves x)).Nodup := by
  have hnone : onesOf (leaves x) = [] := by simp [onesOf, List.count_eq_zero.2 hone]
  rw [surviving_eq_survivorsOf_append_onesOf, hnone, List.append_nil]
  exact nodup_survivorsOf fun _ => not_isXor_of_mem_leaves

theorem mem_inputWords_of_isInput {W D : Nat} {e : BitExpr} (he : isInput e = true) (h : wfw W D e = true) :
    e ∈ Run.inputWord .crc W ++ Run.inputWord .data D := by
  match e with
  | .input .crc i => simpa [Run.inputWord, wfw] using h
  | .input .data i => simpa [Run.inputWord, wfw] using h
  | .const b => simp [isInput] at he
  | .xor m => simp [isInput] at he

/-- R92: there are `W + D` input bits. -/
theorem length_le_of_nodup_inputs {W D : Nat} {l : List BitExpr} (hnodup : l.Nodup) (hin : ∀ e ∈ l, isInput e = true)
    (h : ∀ e ∈ l, wfw W D e = true) : l.length ≤ W + D := by
  have hsub : l ⊆ Run.inputWord .crc W ++ Run.inputWord .data D := fun e he => mem_inputWords_of_isInput (hin e he) (h e he)
  simpa using (hnodup.subperm hsub).length_le

/-- R92: the elements the bound speaks of. -/
def IsBounded (W D : Nat) (e : BitExpr) : Prop :=
  e = .const false ∨ isInput e = true ∨
    ∃ l : List BitExpr, e = .xorOf l ∧ l.Nodup ∧ (∀ x ∈ l, isInput x = true) ∧ l.length ≤ W + D

theorem leaf_cases_of_hasNoOne {e : BitExpr} (hx : isXor e = false) (hone : hasNoOne e) :
    e = .const false ∨ isInput e = true := by
  refine or_iff_not_imp_left.2 (isInput_of_not_isXor hx fun he => hone ?_)
  simp [he, leaves]

/-- R92: FLATTEN then ELIM leave an element within the bound. -/
theorem isBounded_eliminated_flattened {W D : Nat} {x : BitExpr} (h : wfw W D x = true) (hone : hasNoOne x) :
    IsBounded W D (eliminated (flattened x)) := by
  cases hx : isXor x with
  | false =>
    rw [flattened_of_not_isXor hx, eliminated_of_not_isXor hx]
    exact (leaf_cases_of_hasNoOne hx hone).imp_right .inl
  | true =>
    rw [eliminated_flattened_of_isXor hx]
    split
    · exact .inl rfl
    · have hwfw : ∀ e ∈ surviving (leaves x), wfw W D e = true := fun e he =>
        (wfw_iff_leaves (wf_of_wfw h)).1 h e (mem_of_mem_surviving he)
      have hin : ∀ e ∈ surviving (leaves x), isInput e = true := fun _ => isInput_of_mem_surviving_leaves hone
      exact .inr (.inr ⟨_, rfl, nodup_surviving_leaves hone, hin,
        length_le_of_nodup_inputs (nodup_surviving_leaves hone) hin hwfw⟩)

/-- R74: a pass that flattens and eliminates but does not sort is FLATTEN then ELIM. -/
theorem simplified_of_flatten_of_eliminate {opt : OptFlags} (hf : opt.flatten = true) (he : opt.eliminate = true)
    (e : BitExpr) : simplified e opt false = eliminated (flattened e) := by
  simp [simplified, runsFlatten, runsElim, runsSort, hf, he]

/-- Settles O36: at the start the elements are input bits; after a step each is what FLATTEN then ELIM leave of a tree without
`Const(1)`, and there are only `W + D` different input bits. -/
theorem eliminationBoundsTheOperands : Obligations.EliminationBoundsTheOperands := by
  intro c hc hf he k hk
  have hW := (validate_eq_ok.1 hc).1
  obtain ⟨w, hw, -⟩ := unrolled_holds hW hk
  refine ⟨_, run_start_unrolled hk hw, fun e hew => ?_⟩
  replace hew : e ∈ w := hew
  change IsBounded c.W c.D e
  cases k with
  | zero =>
    obtain rfl := Except.ok.inj hw
    obtain ⟨i, -, rfl⟩ := List.mem_map.1 hew
    exact .inr (.inl rfl)
  | succ k =>
    obtain ⟨-, x, -, -, -, hx, rfl⟩ := exists_wsimp_of_unrolled_succ hW hk hw
    obtain ⟨y, hy, rfl⟩ := List.mem_map.1 hew
    rw [simplified_of_flatten_of_eliminate hf he]
    exact isBounded_eliminated_flattened (hx.elements y hy).1 (hx.elements y hy).2

/-! #### The shape of the output -/

/-- R95: a leaf that stands alone in the Word is `Const(0)` or a bit of the CRC input: data bits come in below an `Xor` only. -/
def LeafIsCrc (e : BitExpr) : Prop := isXor e = true ∨ e = .const false ∨ ∃ i, e = .input .crc i

theorem leafIsCrc_getD {w : Word} (h : ∀ e ∈ w, LeafIsCrc e) (j : Nat) : LeafIsCrc (w.getD j (.const false)) := by
  rw [List.getD_eq_getElem?_getD]
  cases hj : w[j]? with
  | none => exact .inr (.inl rfl)
  | some e => exact h e (List.mem_of_getElem? hj)

theorem leafIsCrc_newElement {w : Word} (h : ∀ e ∈ w, LeafIsCrc e) (right : Bool) (d : BitExpr) (P j : Nat) :
    LeafIsCrc (newElement right w d P j) := by
  have hpred : LeafIsCrc (if right then predRight w j else predLeft w j) := by
    split
    · rw [predRight]; split; exacts [leafIsCrc_getD h _, .inr (.inl rfl)]
    · rw [predLeft]; split; exacts [leafIsCrc_getD h _, .inr (.inl rfl)]
  rw [newElement, stepElement]
  split
  exacts [.inl rfl, hpred]

theorem leafIsCrc_flattened {e : BitExpr} (h : LeafIsCrc e) : LeafIsCrc (flattened e) := by
  rw [flattened_eq_ite]
  split
  exacts [.inl rfl, h]

theorem leafIsCrc_eliminated {e : BitExpr} (h : LeafIsCrc e) : LeafIsCrc (eliminated e) := by
  cases e with
  | input s i => exact h
  | const b => exact h
  | xor l =>
    rw [eliminated_xor]
    split
    exacts [.inr (.inl rfl), .inl rfl]

/-- R95: a pass that does not sort makes no leaf but `Const(0)`. -/
theorem leafIsCrc_simplified {e : BitExpr} (h : LeafIsCrc e) (opt : OptFlags) : LeafIsCrc (simplified e opt false) := by
  have hflat : LeafIsCrc (if runsFlatten opt then flattened e else e) := by
    split
    exacts [leafIsCrc_flattened h, h]
  rw [simplified_eq_elimThenSort, elimThenSort, if_neg (by simp [runsSort])]
  split
  exacts [leafIsCrc_eliminated hflat, hflat]

/-- R95: the leaves that stand alone in the Words of the loop are `Const(0)` or bits of the CRC input. -/
theorem leafIsCrc_of_unrolled {c : Configuration} (hW : 1 ≤ c.W) {k : Nat} (hk : k ≤ c.D) {w : Word}
    (hw : unrolled c k = .ok w) : ∀ e ∈ w, LeafIsCrc e := by
  induction k generalizing w with
  | zero =>
    obtain rfl := Except.ok.inj hw
    intro e he
    obtain ⟨i, -, rfl⟩ := List.mem_map.1 he
    exact .inr (.inr ⟨i, rfl⟩)
  | succ k ih =>
    obtain ⟨v, x, hv, hholds, hx, -, rfl⟩ := exists_wsimp_of_unrolled_succ hW hk hw
    rw [stepWord_eq (hholds.ne_nil hW) _ rfl hholds.elements.wf] at hx
    obtain rfl := Except.ok.inj hx
    simp only [List.forall_mem_map]
    exact fun j _ => leafIsCrc_simplified (leafIsCrc_newElement (ih (by omega) hv) _ _ _ _) _

/-- R54, R95: of two different input bits whose indices do not overflow the key, the one that sorts first stands before. -/
theorem leafBefore_of_keyLe {a b : BitExpr} (ha : isInput a = true) (hb : isInput b = true)
    (hwa : wfw (10 ^ 7) (10 ^ 7) a = true) (hwb : wfw (10 ^ 7) (10 ^ 7) b = true) (hne : a ≠ b)
    (h : keyLe (keyText a) (keyText b) = true) : leafBefore a b := by
  have same {s : SourceId} {i j : Nat} (hi : i < 10 ^ 7) (hj : j < 10 ^ 7) (hij : BitExpr.input s i ≠ .input s j)
      (hle : keyLe (keyText (.input s i)) (keyText (.input s j)) = true) : leafBefore (.input s i) (.input s j) := by
    rw [keyLe_keyText_input s hi hj, decide_eq_true_eq] at hle
    exact ⟨s, i, s, j, rfl, rfl, .inr ⟨rfl, Nat.lt_of_le_of_ne hle fun hn => hij (by rw [hn])⟩⟩
  match a, b, ha, hb with
  | .input .crc i, .input .crc j, _, _ => exact same (by simpa [wfw] using hwa) (by simpa [wfw] using hwb) hne h
  | .input .data i, .input .data j, _, _ => exact same (by simpa [wfw] using hwa) (by simpa [wfw] using hwb) hne h
  | .input .crc i, .input .data j, _, _ => exact ⟨.crc, i, .data, j, rfl, rfl, .inl ⟨rfl, rfl⟩⟩
  | .input .data i, .input .crc j, _, _ =>
    have hgt : keyLe (keyText (.input .data i)) (keyText (.input .crc j)) = false := keyLe_cons_of_gt (by decide) _ _
    simp [hgt] at h

/-- R68: an input bit in range for two widths is in range for wider ones. -/
theorem wfw_mono_of_isInput {W D W' D' : Nat} (hW : W ≤ W') (hD : D ≤ D') {e : BitExpr} (he : isInput e = true)
    (h : wfw W D e = true) : wfw W' D' e = true := by
  match e with
  | .input .crc i => simp only [wfw, decide_eq_true_eq] at h ⊢; omega
  | .input .data i => simp only [wfw, decide_eq_true_eq] at h ⊢; omega
  | .const b => rfl
  | .xor m => simp [isInput] at he

/-- R95: LEXSORT puts different input bits whose indices do not overflow the key in the order of R95. -/
theorem pairwise_leafBefore_sortedByKey {l : List BitExpr} (hnodup : l.Nodup) (hin : ∀ e ∈ l, isInput e = true)
    (hwfw : ∀ e ∈ l, wfw (10 ^ 7) (10 ^ 7) e = true) : (sortedByKey l).Pairwise leafBefore := by
  have hmem {e : BitExpr} : e ∈ sortedByKey l ↔ e ∈ l := (sortedByKey_perm l).mem_iff
  have hne : (sortedByKey l).Pairwise (· ≠ ·) := (sortedByKey_perm l).nodup_iff.2 hnodup
  refine ((sortedByKey_sorted l).and hne).imp_of_mem fun ha hb hab => ?_
  exact leafBefore_of_keyLe (hin _ (hmem.1 ha)) (hin _ (hmem.1 hb)) (hwfw _ (hmem.1 ha)) (hwfw _ (hmem.1 hb)) hab.2 hab.1

/-- R95: the shape of an element of the output. -/
def HasOutputShape (e : BitExpr) : Prop :=
  e = .const false ∨ (∃ i, e = .input .crc i) ∨
    ∃ l : List BitExpr, e = .xorOf l ∧ l ≠ [] ∧ (∀ x ∈ l, isInput x = true) ∧ l.Pairwise leafBefore

/-- R95: the sorting pass of OPT_ALL gives an element of the loop the shape of the output. -/
theorem hasOutputShape_simplified {W D : Nat} (hW : W ≤ 10 ^ 7) (hD : D ≤ 10 ^ 7) {x : BitExpr} (h : wfw W D x = true)
    (hone : hasNoOne x) (hleaf : LeafIsCrc x) : HasOutputShape (simplified x optAll true) := by
  cases hx : isXor x with
  | false =>
    have hsame : simplified x optAll true = x := by
      have hpasses : simplified x optAll true = lexsorted (eliminated (flattened x)) := rfl
      rw [hpasses, flattened_of_not_isXor hx, eliminated_of_not_isXor hx, lexsorted_of_not_isXor hx]
    rw [hsame]
    rcases hleaf with hxor | hzero | hcrc
    · simp [hx] at hxor
    · exact .inl hzero
    · exact .inr (.inl hcrc)
  | true =>
    have hmem {e : BitExpr} : e ∈ sortedByKey (surviving (leaves x)) ↔ e ∈ surviving (leaves x) :=
      (sortedByKey_perm _).mem_iff
    have hin : ∀ e ∈ surviving (leaves x), isInput e = true := fun _ => isInput_of_mem_surviving_leaves hone
    have hwfw : ∀ e ∈ surviving (leaves x), wfw (10 ^ 7) (10 ^ 7) e = true := fun e he =>
      wfw_mono_of_isInput hW hD (hin e he) ((wfw_iff_leaves (wf_of_wfw h)).1 h e (mem_of_mem_surviving he))
    rw [simplified_optAll_of_isXor hx]
    split
    · exact .inl rfl
    · next hsome =>
      refine .inr (.inr ⟨_, rfl, fun hnil => hsome ?_, fun e he => hin e (hmem.1 he),
        pairwise_leafBefore_sortedByKey (nodup_surviving_leaves hone) hin hwfw⟩)
      exact (hnil ▸ (sortedByKey_perm (surviving (leaves x))).symm).eq_nil

/-- Settles O37: by induction on the passes a leaf that stands alone is `Const(0)` or a bit of the CRC input; every other element is an
`Xor` without `Const(1)`, of which the last pass leaves different input bits in the order of their keys. -/
theorem outputShapeUnderAllFlags : Obligations.OutputShapeUnderAllFlags := by
  intro s c hc hopt hW hD
  obtain ⟨w, hw, hholds⟩ := unrolled_holds (validate_eq_ok.1 hc).1 le_rfl
  have hgen : gen c = .ok (w.map fun e => simplified e c.opt true) := by
    rw [gen, hc, bind_ok, hw, bind_ok, wsimp_of_wf hholds.elements.wf]
  refine ⟨_, genOutputs_of_gen hgen s, fun e he => ?_⟩
  obtain ⟨x, hx, rfl⟩ := List.mem_map.1 he
  rw [hopt]
  exact hasOutputShape_simplified hW hD (hholds.elements x hx).1 (hholds.elements x hx).2
    (leafIsCrc_of_unrolled (validate_eq_ok.1 hc).1 le_rfl hw x hx)

end Sys2Proof.Machine

/-! ### The encodings: the decoder is the inverse of the encoder, and what it does not read -/

namespace Sys2Proof

/-! #### Decoding what the encoder wrote -/

/-- R56: the operands of every well-formed instruction are read back under its ordinal. -/
theorem decodeOperands_encodeOperands (i : Instr) : Laws.Operands.Statement i := by
  cases i with
  | mkin s i => exact Laws.Operands.mkin s i
  | mkconst b => exact Laws.Operands.mkconst b
  | mkxor w => exact Laws.Operands.mkxor w
  | bxeq a b => exact Laws.Operands.bxeq a b
  | bxkey e => exact Laws.Operands.bxkey e
  | bxeval e crc data => exact Laws.Operands.bxeval e crc data
  | flatten e => exact Laws.Operands.flatten e
  | elim e => exact Laws.Operands.elim e
  | lexsort e => exact Laws.Operands.lexsort e
  | simplify e o x => exact Laws.Operands.simplify e o x
  | validate c => exact Laws.Operands.validate c
  | inwords c => exact Laws.Operands.inwords c
  | stepl a => exact Laws.Operands.stepl a
  | stepr a => exact Laws.Operands.stepr a
  | gen c => exact Laws.Operands.gen c
  | wnew w => exact Laws.Operands.wnew w
  | wget w j => exact Laws.Operands.wget w j
  | wflat a => exact Laws.Operands.wflat a
  | wsimp a => exact Laws.Operands.wsimp a
  | crcstep w crc data => exact Laws.Operands.crcstep w crc data
  | crcref a => exact Laws.Operands.crcref a
  | walk e r => exact Laws.Operands.walk e r
  | crcstream w a => exact Laws.Operands.crcstream w a
  | bitrev v => exact Laws.Operands.bitrev v

/-- Settles O54: the operands are read back instruction by instruction, and the instruction passes the check it is well formed by. -/
theorem decodeOfEncodeIsTheInstruction : Obligations.DecodeOfEncodeIsTheInstruction := by
  intro i rest h
  rw [encode, List.cons_append, decode, decodeOperands_encodeOperands i h rest]
  simp only [h, if_true]

/-- Settles O56: the six calls are read byte by byte. -/
theorem wordsWrittenOutDecode : Obligations.WordsWrittenOutDecode := ⟨rfl, rfl, rfl, rfl, rfl, rfl⟩

/-! #### Number groups: one spelling a number -/

theorem div_lt_of_lt_two_pow {n m : Nat} (h : n < 2 ^ (m + 1)) : n / 128 < 2 ^ m := by
  rw [Nat.pow_succ] at h
  omega

/-- With enough fuel the groups do not depend on it. -/
theorem encodeGroups_congr {fuel fuel' n : Nat} (h : n < 2 ^ (fuel + 1)) (h' : n < 2 ^ (fuel' + 1)) :
    encodeGroups fuel n = encodeGroups fuel' n := by
  induction fuel generalizing fuel' n with
  | zero =>
    cases fuel' with
    | zero => rfl
    | succ fuel' => rw [encodeGroups, encodeGroups, if_pos (by omega)]
  | succ fuel ih =>
    cases fuel' with
    | zero => rw [encodeGroups, encodeGroups, if_pos (by omega)]
    | succ fuel' =>
      rw [encodeGroups, encodeGroups, ih (div_lt_of_lt_two_pow h) (div_lt_of_lt_two_pow h')]

theorem encodeNat_of_lt {n : Nat} (h : n < 128) : encodeNat n = [BitVec.ofNat 8 n] := by
  rw [encodeNat, encodeGroups_congr (fuel' := 6) Nat.lt_log2_self (by omega), encodeGroups, if_pos h]

theorem encodeNat_of_ge {n : Nat} (h : 128 ≤ n) :
    encodeNat n = BitVec.ofNat 8 (128 + n % 128) :: encodeNat (n / 128) := by
  have hfuel : n < 2 ^ (n.log2 + 1 + 1) := Nat.lt_trans Nat.lt_log2_self (Nat.pow_lt_pow_right (by decide) (by omega))
  rw [encodeNat, encodeGroups_congr (fuel' := n.log2 + 1) Nat.lt_log2_self hfuel, encodeGroups, if_neg (by omega),
    encodeNat, encodeGroups_congr (div_lt_of_lt_two_pow hfuel) Nat.lt_log2_self]

/-! #### Every reader reads only what its writer writes -/

/-- What the reader reads of any bytes is what the writer writes, followed by the bytes left. -/
def ReadsOnly {α : Type} (p : List Byte → Decoded α) (f : α → List Byte) : Prop :=
  ∀ (bs : List Byte) (a : α) (r : List Byte), p bs = .ok (a, r) → bs = f a ++ r

theorem Decoded.andThen_eq_ok {α β : Type} {x : Decoded α} {f : α → List Byte → Decoded β} {b : β} {r : List Byte} :
    x.andThen f = .ok (b, r) ↔ ∃ a r', x = .ok (a, r') ∧ f a r' = .ok (b, r) := by
  match x with
  | .error e => simp
  | .ok (a, r') => simp

theorem readsOnly_nat : ReadsOnly decodeNat encodeNat := by
  intro bs
  induction bs with
  | nil => simp [decodeNat]
  | cons b bs ih =>
    intro n r h
    rw [decodeNat] at h
    split at h
    next hb =>
      cases h
      simp [encodeNat_of_lt hb]
    next hb =>
      split at h
      next => simp at h
      next m r' hm =>
        split at h
        next => simp at h
        next hm0 =>
          cases h
          have hlow : 128 + (b.toNat - 128 + 128 * m) % 128 = b.toNat := by omega
          have hhigh : (b.toNat - 128 + 128 * m) / 128 = m := by omega
          rw [encodeNat_of_ge (by omega), hlow, hhigh, BitVec.ofNat_toNat, BitVec.setWidth_eq, ih _ _ hm, List.cons_append]

section
variable {α β γ δ : Type} {p : List Byte → Decoded α} {q : List Byte → Decoded β} {o : List Byte → Decoded γ}
  {f : α → List Byte} {g : β → List Byte} {h : γ → List Byte}

/-- A reader that goes on with the bytes left. -/
theorem ReadsOnly.andThen (hp : ReadsOnly p f) {k : α → List Byte → Decoded δ} {bs r : List Byte} {d : δ}
    (hd : (p bs).andThen k = .ok (d, r)) : ∃ a r', bs = f a ++ r' ∧ k a r' = .ok (d, r) := by
  obtain ⟨a, r', ha, hk⟩ := Decoded.andThen_eq_ok.1 hd
  exact ⟨a, r', hp _ _ _ ha, hk⟩

/-- A reader of one operand. -/
theorem ReadsOnly.one (hp : ReadsOnly p f) {mk : α → δ} {bs r : List Byte} {d : δ}
    (hd : (p bs).andThen (fun a r => .ok (mk a, r)) = .ok (d, r)) : ∃ a, d = mk a ∧ bs = f a ++ r := by
  obtain ⟨a, r', hbs, hk⟩ := hp.andThen hd
  cases hk
  exact ⟨a, rfl, hbs⟩

/-- A reader of two operands. -/
theorem ReadsOnly.two (hp : ReadsOnly p f) (hq : ReadsOnly q g) {mk : α → β → δ} {bs r : List Byte} {d : δ}
    (hd : (p bs).andThen (fun a r => (q r).andThen fun b r => .ok (mk a b, r)) = .ok (d, r)) :
    ∃ a b, d = mk a b ∧ bs = f a ++ (g b ++ r) := by
  obtain ⟨a, r', hbs, hk⟩ := hp.andThen hd
  obtain ⟨b, rfl, hr⟩ := hq.one hk
  exact ⟨a, b, rfl, hr ▸ hbs⟩

/-- A reader of three operands. -/
theorem ReadsOnly.three (hp : ReadsOnly p f) (hq : ReadsOnly q g) (ho : ReadsOnly o h) {mk : α → β → γ → δ}
    {bs r : List Byte} {d : δ}
    (hd : (p bs).andThen (fun a r => (q r).andThen fun b r => (o r).andThen fun c r => .ok (mk a b c, r)) = .ok (d, r)) :
    ∃ a b c, d = mk a b c ∧ bs = f a ++ (g b ++ (h c ++ r)) := by
  obtain ⟨a, r', hbs, hk⟩ := hp.andThen hd
  obtain ⟨b, c, rfl, hr⟩ := hq.two ho hk
  exact ⟨a, b, c, rfl, hr ▸ hbs⟩

/-- A reader of `n` values reads only what the writer writes of a list of that length. -/
theorem ReadsOnly.many (hp : ReadsOnly p f) {n : Nat} {bs r : List Byte} {l : List α}
    (hl : decodeMany p n bs = .ok (l, r)) : l.length = n ∧ bs = encodeMany f l ++ r := by
  induction n generalizing bs l with
  | zero =>
    cases hl
    exact ⟨rfl, rfl⟩
  | succ n ih =>
    rw [decodeMany] at hl
    split at hl
    next => simp at hl
    next a r' ha =>
      split at hl
      next => simp at hl
      next m r'' hm =>
        cases hl
        obtain ⟨hlen, hr⟩ := ih hm
        exact ⟨by rw [List.length_cons, hlen], by rw [hp _ _ _ ha, hr, encodeMany, List.append_assoc]⟩

theorem ReadsOnly.list (hp : ReadsOnly p f) : ReadsOnly (decodeList p) (encodeList f) := by
  intro bs l r hl
  obtain ⟨n, r', rfl, hk⟩ := readsOnly_nat.andThen hl
  obtain ⟨rfl, rfl⟩ := hp.many hk
  rw [encodeList, List.append_assoc]

end

theorem readsOnly_bool : ReadsOnly decodeBool encodeBool := by
  intro bs b r h
  obtain ⟨n, r', rfl, hk⟩ := readsOnly_nat.andThen h
  split at hk
  next hn =>
    cases hk
    have : (decide (n = 1)).toNat = n := by rcases Nat.le_one_iff_eq_zero_or_eq_one.1 (Nat.le_of_lt_succ hn) with rfl | rfl <;> rfl
    rw [encodeBool, this]
  next => simp at hk

theorem natOfSource_sourceOfNat {n : Nat} (h : n < 2) : natOfSource (sourceOfNat n) = n := by
  rcases Nat.le_one_iff_eq_zero_or_eq_one.1 (Nat.le_of_lt_succ h) with rfl | rfl <;> rfl

theorem encodeSource_eq (s : SourceId) : encodeSource s = encodeNat (natOfSource s) := by cases s <;> rfl

theorem readsOnly_source : ReadsOnly decodeSource encodeSource := by
  intro bs s r h
  obtain ⟨n, r', rfl, hk⟩ := readsOnly_nat.andThen h
  split at hk
  next hn =>
    cases hk
    rw [encodeSource_eq, natOfSource_sourceOfNat hn]
  next => simp at hk

/-- R50: a header and its operands are read only as the writer writes the node. -/
theorem readsOnly_node (fuel : Nat) : ReadsOnly (decodeNode fuel) encodeExpr := by
  induction fuel with
  | zero => simp [ReadsOnly, decodeNode]
  | succ fuel ih =>
    intro bs e r h
    rw [decodeNode] at h
    split at h
    next => simp at h
    next n r' hn =>
      rw [readsOnly_nat _ _ _ hn]
      split at h
      next htag =>
        cases h
        have hn : 4 * (2 * (n / 4 / 2) + natOfSource (sourceOfNat (n / 4 % 2))) = n := by
          rw [natOfSource_sourceOfNat (by omega)]
          omega
        rw [encodeExpr, hn]
      next =>
        split at h
        next htag =>
          split at h
          next hlt =>
            cases h
            have hn : 4 * (decide (n / 4 = 1)).toNat + 1 = n := by
              by_cases h1 : n / 4 = 1
              · simp [h1]; omega
              · simp [h1]; omega
            rw [encodeExpr, hn]
          next => simp at h
        next =>
          split at h
          next htag =>
            split at h
            next => simp at h
            next l r'' hl =>
              cases h
              obtain ⟨hlen, rfl⟩ := ih.many hl
              have hn : 4 * (ExprList.ofList l).toList.length + 2 = n := by
                rw [ExprList.toList_ofList, hlen]
                omega
              rw [BitExpr.xorOf, encodeExpr, hn, encodeExprs_eq, ExprList.toList_ofList, List.append_assoc]
          next => simp at h

theorem readsOnly_expr : ReadsOnly decodeExpr encodeExpr := fun _ => readsOnly_node _ _

theorem readsOnly_vec (width : Nat) : ReadsOnly (decodeVec width) encodeVec := by
  intro bs v r h
  obtain ⟨n, r', rfl, hk⟩ := readsOnly_nat.andThen h
  split at hk
  next hn =>
    cases hk
    rw [encodeVec, BitVec.toNat_ofNat, Nat.mod_eq_of_lt hn]
  next => simp at hk

theorem readsOnly_bits : ReadsOnly decodeBits encodeBits := by
  intro bs v r h
  obtain ⟨w, r', rfl, hk⟩ := readsOnly_nat.andThen h
  obtain ⟨x, rfl, rfl⟩ := (readsOnly_vec w).one hk
  rw [encodeBits, List.append_assoc]

theorem readsOnly_port : ReadsOnly decodePort encodePort := by
  intro bs v r h
  obtain ⟨w, r', rfl, hk⟩ := readsOnly_nat.andThen h
  obtain ⟨x, rfl, rfl⟩ := (readsOnly_vec (w + 1)).one hk
  rw [encodePort, List.append_assoc, Nat.add_sub_cancel]

theorem natOfReg_regOfNat : ∀ n < 5, n ≠ 3 → natOfReg (regOfNat n) = n := by decide

theorem readsOnly_wordSrc : ReadsOnly decodeWordSrc encodeWordSrc := by
  intro bs w r h
  obtain ⟨n, r', rfl, hk⟩ := readsOnly_nat.andThen h
  split at hk
  next hn =>
    obtain ⟨l, rfl, rfl⟩ := readsOnly_expr.list.one hk
    rw [encodeWordSrc, List.append_assoc, hn]
  next hn =>
    split at hk
    next hlt =>
      cases hk
      rw [encodeWordSrc, natOfReg_regOfNat n hlt hn]
    next => simp at hk

theorem readsOnly_exprSrc : ReadsOnly decodeExprSrc encodeExprSrc := by
  intro bs e r h
  obtain ⟨n, r', rfl, hk⟩ := readsOnly_nat.andThen h
  split at hk
  next hn =>
    obtain ⟨e, rfl, rfl⟩ := readsOnly_expr.one hk
    rw [encodeExprSrc, List.append_assoc, hn]
  next hn =>
    split at hk
    next hlt =>
      obtain ⟨j, rfl, rfl⟩ := readsOnly_nat.one hk
      rw [encodeExprSrc, List.append_assoc, natOfReg_regOfNat n hlt hn]
    next => simp at hk

theorem readsOnly_polySrc : ReadsOnly decodePolySrc encodePolySrc := by
  intro bs p r h
  obtain ⟨n, rfl, rfl⟩ := readsOnly_nat.one h
  cases n <;> rfl

theorem readsOnly_optSrc : ReadsOnly decodeOptSrc encodeOptSrc := by
  intro bs o r h
  obtain ⟨n, r', rfl, hk⟩ := readsOnly_nat.andThen h
  split at hk
  next hn =>
    cases hk
    rw [encodeOptSrc, hn]
  next hn =>
    split at hk
    next hle =>
      cases hk
      rw [encodeOptSrc, Machine.natOfOpt_optOfNat (n - 1) (by omega), Nat.sub_add_cancel (by omega)]
    next => simp at hk

theorem readsOnly_cfg : ReadsOnly decodeCfg encodeCfg := by
  intro bs c r h
  obtain ⟨p, _, rfl, hw⟩ := readsOnly_nat.andThen h
  obtain ⟨w, _, rfl, hd⟩ := readsOnly_nat.andThen hw
  obtain ⟨d, _, rfl, hright⟩ := readsOnly_nat.andThen hd
  obtain ⟨right, _, rfl, hopt⟩ := readsOnly_bool.andThen hright
  obtain ⟨o, _, rfl, hk⟩ := readsOnly_nat.andThen hopt
  split at hk
  next ho =>
    cases hk
    simp only [encodeCfg, Machine.natOfOpt_optOfNat o ho, List.append_assoc]
  next => simp at hk

theorem readsOnly_cfgSrc : ReadsOnly decodeCfgSrc encodeCfgSrc := by
  intro bs c r h
  obtain ⟨lit, r', rfl, hk⟩ := readsOnly_bool.andThen h
  cases lit with
  | true =>
    obtain ⟨c, rfl, rfl⟩ := readsOnly_cfg.one hk
    rw [encodeCfgSrc, List.append_assoc]
  | false =>
    cases hk
    rfl

theorem readsOnly_stepArgs : ReadsOnly decodeStepArgs encodeStepArgs := by
  intro bs a r h
  obtain ⟨run, r', rfl, hk⟩ := readsOnly_bool.andThen h
  cases run with
  | true =>
    cases hk
    rfl
  | false =>
    obtain ⟨w, d, p, rfl, rfl⟩ := readsOnly_wordSrc.three readsOnly_exprSrc readsOnly_polySrc hk
    simp only [encodeStepArgs, List.append_assoc]

theorem readsOnly_flatArgs : ReadsOnly decodeFlatArgs encodeFlatArgs := by
  intro bs a r h
  obtain ⟨run, r', rfl, hk⟩ := readsOnly_bool.andThen h
  cases run with
  | true =>
    cases hk
    rfl
  | false =>
    obtain ⟨w, rfl, rfl⟩ := readsOnly_wordSrc.one hk
    simp only [encodeFlatArgs, List.append_assoc]

theorem readsOnly_simpArgs : ReadsOnly decodeSimpArgs encodeSimpArgs := by
  intro bs a r h
  obtain ⟨run, r', rfl, hk⟩ := readsOnly_bool.andThen h
  cases run with
  | true =>
    obtain ⟨x, rfl, rfl⟩ := readsOnly_bool.one hk
    simp only [encodeSimpArgs, List.append_assoc]
  | false =>
    obtain ⟨w, o, x, rfl, rfl⟩ := readsOnly_wordSrc.three readsOnly_optSrc readsOnly_bool hk
    simp only [encodeSimpArgs, List.append_assoc]

theorem readsOnly_refArgs : ReadsOnly decodeRefArgs encodeRefArgs := by
  intro bs a r h
  obtain ⟨w, _, rfl, hd⟩ := readsOnly_nat.andThen h
  obtain ⟨d, _, rfl, hcrc⟩ := readsOnly_nat.andThen hd
  obtain ⟨crc, _, rfl, hk⟩ := (readsOnly_vec (w + 1)).andThen hcrc
  obtain ⟨data, poly, right, rfl, rfl⟩ := (readsOnly_vec (d + 1)).three (readsOnly_vec (w + 1)) readsOnly_bool hk
  simp only [encodeRefArgs, Nat.add_sub_cancel, List.append_assoc]

theorem readsOnly_streamArgs : ReadsOnly decodeStreamArgs encodeStreamArgs := by
  intro bs a r h
  obtain ⟨w, _, rfl, hd⟩ := readsOnly_nat.andThen h
  obtain ⟨d, _, rfl, hk⟩ := readsOnly_nat.andThen hd
  obtain ⟨init, ws, xorout, rfl, rfl⟩ := (readsOnly_vec (w + 1)).three (readsOnly_vec (d + 1)).list (readsOnly_vec (w + 1)) hk
  simp only [encodeStreamArgs, Nat.add_sub_cancel, List.append_assoc]

theorem readsOnly_renderer : ReadsOnly decodeRenderer encodeRenderer := by
  intro bs x r h
  obtain ⟨n, r', rfl, hk⟩ := readsOnly_nat.andThen h
  split at hk
  next hn =>
    obtain ⟨call, word, bare, rfl, rfl⟩ := readsOnly_bool.three readsOnly_bool readsOnly_bool hk
    cases call <;> cases word <;> simp [encodeRenderer, hn]
  next =>
  split at hk
  next hn => cases hk; rw [encodeRenderer, hn]
  next =>
  split at hk
  next hn => cases hk; rw [encodeRenderer, hn]
  next =>
  split at hk
  next hn =>
    obtain ⟨crc, data, rfl, rfl⟩ := readsOnly_port.two readsOnly_port hk
    simp only [encodeRenderer, hn, List.append_assoc]
  next =>
  split at hk
  next hn => cases hk; rw [encodeRenderer, hn]
  next =>
  split at hk
  next hn =>
    obtain ⟨id, rfl, rfl⟩ := readsOnly_nat.one hk
    simp only [encodeRenderer, hn, List.append_assoc]
  next => simp at hk

end Sys2Proof

namespace Sys2Proof

/-! #### Bytes that decode are the packed call -/

/-- The ordinal and the bytes before `r` are those of the packed call of the instruction. -/
def IsPacked (op : Byte) (bs r : List Byte) (i : Instr) : Prop :=
  op = BitVec.ofNat 8 i.ordinal ∧ bs = encodeOperands i ++ r

theorem ofNat_of_toNat_eq {op : Byte} {n : Nat} (h : op.toNat = n) : op = BitVec.ofNat 8 n := by
  rw [← h, BitVec.ofNat_toNat, BitVec.setWidth_eq]

section
variable {α β γ : Type} {p : List Byte → Decoded α} {q : List Byte → Decoded β} {o : List Byte → Decoded γ}
  {f : α → List Byte} {g : β → List Byte} {h : γ → List Byte} {op : Byte} {n : Nat} {bs r : List Byte} {i : Instr}

/-- An instruction of one operand. -/
theorem ReadsOnly.isPacked_one (hp : ReadsOnly p f) {mk : α → Instr} (hord : ∀ a, (mk a).ordinal = n)
    (henc : ∀ a, encodeOperands (mk a) = f a) (hop : op.toNat = n)
    (hi : (p bs).andThen (fun a r => .ok (mk a, r)) = .ok (i, r)) : IsPacked op bs r i := by
  obtain ⟨a, rfl, hbs⟩ := hp.one hi
  exact ⟨by rw [hord, ofNat_of_toNat_eq hop], by rw [henc, hbs]⟩

/-- An instruction of two operands. -/
theorem ReadsOnly.isPacked_two (hp : ReadsOnly p f) (hq : ReadsOnly q g) {mk : α → β → Instr}
    (hord : ∀ a b, (mk a b).ordinal = n) (henc : ∀ a b, encodeOperands (mk a b) = f a ++ g b) (hop : op.toNat = n)
    (hi : (p bs).andThen (fun a r => (q r).andThen fun b r => .ok (mk a b, r)) = .ok (i, r)) : IsPacked op bs r i := by
  obtain ⟨a, b, rfl, hbs⟩ := hp.two hq hi
  exact ⟨by rw [hord, ofNat_of_toNat_eq hop], by rw [henc, hbs, List.append_assoc]⟩

/-- An instruction of three operands. -/
theorem ReadsOnly.isPacked_three (hp : ReadsOnly p f) (hq : ReadsOnly q g) (ho : ReadsOnly o h) {mk : α → β → γ → Instr}
    (hord : ∀ a b c, (mk a b c).ordinal = n) (henc : ∀ a b c, encodeOperands (mk a b c) = f a ++ (g b ++ h c))
    (hop : op.toNat = n) (hi : (p bs).andThen (fun a r => (q r).andThen fun b r => (o r).andThen fun c r =>
      .ok (mk a b c, r)) = .ok (i, r)) : IsPacked op bs r i := by
  obtain ⟨a, b, c, rfl, hbs⟩ := hp.three hq ho hi
  exact ⟨by rw [hord, ofNat_of_toNat_eq hop], by rw [henc, hbs, List.append_assoc, List.append_assoc]⟩

end

/-- R56: the operands of an instruction are read only under its ordinal and only as the writer writes them. -/
theorem isPacked_of_decodeOperands {op : Byte} {bs r : List Byte} {i : Instr} (h : decodeOperands op bs = .ok (i, r)) :
    IsPacked op bs r i := by
  rw [decodeOperands] at h
  split at h
  next hop => exact readsOnly_source.isPacked_two readsOnly_nat (mk := .mkin) (fun _ _ => rfl) (fun _ _ => rfl) hop h
  next hop => exact readsOnly_bool.isPacked_one (mk := .mkconst) (fun _ => rfl) (fun _ => rfl) hop h
  next hop => exact readsOnly_wordSrc.isPacked_one (mk := .mkxor) (fun _ => rfl) (fun _ => rfl) hop h
  next hop => exact readsOnly_exprSrc.isPacked_two readsOnly_exprSrc (mk := .bxeq) (fun _ _ => rfl) (fun _ _ => rfl) hop h
  next hop => exact readsOnly_exprSrc.isPacked_one (mk := .bxkey) (fun _ => rfl) (fun _ => rfl) hop h
  next hop =>
    exact readsOnly_exprSrc.isPacked_three readsOnly_port readsOnly_port (mk := .bxeval) (fun _ _ _ => rfl)
      (fun _ _ _ => rfl) hop h
  next hop => exact readsOnly_exprSrc.isPacked_one (mk := .flatten) (fun _ => rfl) (fun _ => rfl) hop h
  next hop => exact readsOnly_exprSrc.isPacked_one (mk := .elim) (fun _ => rfl) (fun _ => rfl) hop h
  next hop => exact readsOnly_exprSrc.isPacked_one (mk := .lexsort) (fun _ => rfl) (fun _ => rfl) hop h
  next hop =>
    exact readsOnly_exprSrc.isPacked_three readsOnly_optSrc readsOnly_bool (mk := .simplify) (fun _ _ _ => rfl)
      (fun _ _ _ => rfl) hop h
  next hop => exact readsOnly_cfgSrc.isPacked_one (mk := .validate) (fun _ => rfl) (fun _ => rfl) hop h
  next hop => exact readsOnly_cfgSrc.isPacked_one (mk := .inwords) (fun _ => rfl) (fun _ => rfl) hop h
  next hop => exact readsOnly_stepArgs.isPacked_one (mk := .stepl) (fun _ => rfl) (fun _ => rfl) hop h
  next hop => exact readsOnly_stepArgs.isPacked_one (mk := .stepr) (fun _ => rfl) (fun _ => rfl) hop h
  next hop => exact readsOnly_cfgSrc.isPacked_one (mk := .gen) (fun _ => rfl) (fun _ => rfl) hop h
  next hop => exact readsOnly_wordSrc.isPacked_one (mk := .wnew) (fun _ => rfl) (fun _ => rfl) hop h
  next hop => exact readsOnly_wordSrc.isPacked_two readsOnly_nat (mk := .wget) (fun _ _ => rfl) (fun _ _ => rfl) hop h
  next hop => exact readsOnly_flatArgs.isPacked_one (mk := .wflat) (fun _ => rfl) (fun _ => rfl) hop h
  next hop => exact readsOnly_simpArgs.isPacked_one (mk := .wsimp) (fun _ => rfl) (fun _ => rfl) hop h
  next hop =>
    exact readsOnly_wordSrc.isPacked_three readsOnly_port readsOnly_port (mk := .crcstep) (fun _ _ _ => rfl)
      (fun _ _ _ => rfl) hop h
  next hop => exact readsOnly_refArgs.isPacked_one (mk := .crcref) (fun _ => rfl) (fun _ => rfl) hop h
  next hop => exact readsOnly_exprSrc.isPacked_two readsOnly_renderer (mk := .walk) (fun _ _ => rfl) (fun _ _ => rfl) hop h
  next hop =>
    exact readsOnly_wordSrc.isPacked_two readsOnly_streamArgs (mk := .crcstream) (fun _ _ => rfl) (fun _ _ => rfl) hop h
  next hop => exact readsOnly_bits.isPacked_one (mk := .bitrev) (fun _ => rfl) (fun _ => rfl) hop h
  next => simp at h

/-- Settles O55: every reader reads only what its writer writes, a number because its groups have one spelling, a node by induction on
the bound on the nesting, and the check lets only well-formed instructions through. -/
theorem encodeOfDecodeIsTheBytes : Obligations.EncodeOfDecodeIsTheBytes := by
  intro bs rest i h
  cases bs with
  | nil => simp [decode] at h
  | cons op bs =>
    rw [decode] at h
    split at h
    next => simp at h
    next j r hj =>
      split at h
      next hwf =>
        cases h
        obtain ⟨rfl, rfl⟩ := isPacked_of_decodeOperands hj
        exact ⟨rfl, hwf⟩
      next => simp at h

end Sys2Proof

/-! ### The pending calls: which are run, and which stop -/

namespace Sys2Proof.Machine

open Sys2Proof Sys2Proof.Safety

theorem step_of_calls_ne_nil {s : State} (h : s.calls ≠ []) : step s = runCall s := by
  simp [step, stepOnce, h]

/-- A pending call that decodes is consumed and executed. -/
theorem step_of_decode {s : State} {i : Instr} {rest : List Byte} (h : decode s.calls = .ok (i, rest)) :
    step s = exec i { s with calls := rest } := by
  have hne : s.calls ≠ [] := by
    intro hnil
    simp [hnil, decode] at h
  rw [step_of_calls_ne_nil hne, runCall, h]

/-- R57: a pending call that does not decode stops the machine by name. -/
theorem step_of_decode_error {s : State} {e : DecodeError} (hne : s.calls ≠ []) (h : decode s.calls = .error e) :
    step s = stop (decodeStop e) s := by
  rw [step_of_calls_ne_nil hne, runCall, h]

/-- Settles O2: a call that decodes is run, and the packed call of a well-formed instruction and the word of a row decode. -/
theorem stepRunsTheNextCall : Obligations.StepRunsTheNextCall := by
  refine ⟨fun s i rest h => step_of_decode h, fun s i rest hwf h => step_of_decode ?_,
    fun s nbits w i rest h => step_of_decode (s := s.withFetchWord nbits w) h⟩
  rw [h, decodeOfEncodeIsTheInstruction i rest hwf]

/-- R57: an ordinal that the table does not list is refused by name. -/
theorem decodeOperands_of_unlisted {op : Byte} (h : op.toNat ∉ [0x00, 0x01, 0x02, 0x03, 0x04, 0x05, 0x10, 0x11, 0x12,
    0x13, 0x20, 0x21, 0x22, 0x23, 0x24, 0x30, 0x31, 0x32, 0x33, 0x40, 0x41, 0x42, 0x43, 0x44]) (bs : List Byte) :
    decodeOperands op bs = .error (.unknownOrdinal op) := by
  rw [decodeOperands]
  split
  case h_25 => rfl
  all_goals simp_all

/-- The bytes begin where a node is read and make its reader meet node tag 3, whatever the bound on the nesting. -/
def MeetsReservedTag (bs : List Byte) : Prop :=
  ∀ fuel, bs.length < fuel → decodeNode fuel bs = .error .reservedTag

/-- R50: a node header with tag 3 raises. -/
theorem meetsReservedTag_header {h : Nat} (htag : h % 4 = 3) (rest : List Byte) :
    MeetsReservedTag (encodeNat h ++ rest) := by
  intro fuel hfuel
  cases fuel with
  | zero => omega
  | succ fuel => simp [decodeNode, decodeNat_encodeNat, htag]

/-- A list is not read when the reader, after fewer elements than its length, meets an error. -/
theorem decodeMany_error {α : Type} {p : List Byte → Decoded α} {f : α → List Byte} {l : List α} {n : Nat} {bs : List Byte}
    {x : DecodeError} (hl : ∀ a ∈ l, ∀ r, p (f a ++ r) = .ok (a, r)) (hn : l.length < n) (hx : p bs = .error x) :
    decodeMany p n (encodeMany f l ++ bs) = .error x := by
  induction l generalizing n with
  | nil =>
    cases n with
    | zero => simp at hn
    | succ n => simp [encodeMany, decodeMany, hx]
  | cons a l ih =>
    cases n with
    | zero => simp at hn
    | succ n =>
      rw [List.forall_mem_cons] at hl
      rw [encodeMany, List.append_assoc, decodeMany, hl.1]
      simp only [ih hl.2 (Nat.lt_of_succ_lt_succ hn)]

/-- R50: node tag 3 raises below an `Xor` node too. -/
theorem MeetsReservedTag.nested {bs : List Byte} (h : MeetsReservedTag bs) {n : Nat} {l : List BitExpr} (hn : l.length < n) :
    MeetsReservedTag (encodeNat (4 * n + 2) ++ (encodeMany encodeExpr l ++ bs)) := by
  intro fuel hfuel
  simp only [List.length_append] at hfuel
  cases fuel with
  | zero => omega
  | succ fuel =>
    have hhead := encodeGroups_pos (4 * n + 2).log2 (4 * n + 2)
    rw [← encodeNat] at hhead
    have hmany : decodeMany (decodeNode fuel) n (encodeMany encodeExpr l ++ bs) = .error .reservedTag := by
      refine decodeMany_error (fun e he r => decodeNode_encodeExpr e fuel ?_ r) hn (h fuel (by omega))
      have := length_le_encodeMany encodeExpr he
      omega
    have htag : (4 * n + 2) % 4 = 2 := by omega
    have hpayload : (4 * n + 2) / 4 = n := by omega
    simp [decodeNode, decodeNat_encodeNat, htag, hpayload, hmany]

section
variable {bs : List Byte} (h : MeetsReservedTag bs)
include h

theorem decodeExprSrc_reservedTag : decodeExprSrc (encodeNat 3 ++ bs) = .error .reservedTag := by
  simp [decodeExprSrc, decodeNat_encodeNat, decodeExpr, h _ (Nat.lt_succ_self _)]

theorem decodeWordSrc_reservedTag {n : Nat} {l : List BitExpr} (hn : l.length < n) :
    decodeWordSrc (encodeNat 3 ++ (encodeNat n ++ (encodeMany encodeExpr l ++ bs))) = .error .reservedTag := by
  have hmany : decodeMany decodeExpr n (encodeMany encodeExpr l ++ bs) = .error .reservedTag :=
    decodeMany_error (fun e _ => decodeExpr_encodeExpr e) hn (h _ (Nat.lt_succ_self _))
  simp [decodeWordSrc, decodeNat_encodeNat, decodeList, hmany]

theorem decodeStepArgs_reservedTag (w : WordSrc) :
    decodeStepArgs (encodeBool false ++ (encodeWordSrc w ++ (encodeNat 3 ++ bs))) = .error .reservedTag := by
  simp [decodeStepArgs, decodeBool_encodeBool, decodeWordSrc_encodeWordSrc, decodeExprSrc_reservedTag h]

end

/-- R50: node tag 3 raises wherever a node is read. -/
theorem decode_reservedTag {pre : List Byte} (hpre : BeforeNode pre) {bs : List Byte} (h : MeetsReservedTag bs) :
    decode (pre ++ bs) = .error .reservedTag := by
  have key {op : Byte} {t : List Byte} (hop : decodeOperands op t = .error .reservedTag) :
      decode (op :: t) = .error .reservedTag := by rw [decode, hop]
  induction hpre generalizing bs with
  | operand op hop =>
    refine key ?_
    simp only [List.mem_cons, List.not_mem_nil, or_false] at hop
    rcases hop with rfl | rfl | rfl | rfl | rfl | rfl | rfl | rfl <;> simp [decodeOperands, decodeExprSrc_reservedTag h]
  | second a =>
    refine key ?_
    simp [decodeOperands, decodeExprSrc_encodeExprSrc, decodeExprSrc_reservedTag h]
  | element op n l hop hn =>
    refine key ?_
    have hword := decodeWordSrc_reservedTag h hn
    simp only [List.mem_cons, List.not_mem_nil, or_false] at hop
    rcases hop with rfl | rfl | rfl | rfl | rfl <;> simp [decodeOperands, hword]
  | elementOfCall op n l hop hn =>
    refine key ?_
    have hword := decodeWordSrc_reservedTag h hn
    simp only [List.mem_cons, List.not_mem_nil, or_false] at hop
    rcases hop with rfl | rfl | rfl | rfl <;>
      simp [decodeOperands, decodeStepArgs, decodeFlatArgs, decodeSimpArgs, decodeBool_encodeBool, hword]
  | dataBit op w hop =>
    refine key ?_
    have hargs := decodeStepArgs_reservedTag h w
    simp only [List.mem_cons, List.not_mem_nil, or_false] at hop
    rcases hop with rfl | rfl <;> simp [decodeOperands, hargs]
  | nested pre n l _ hn ih =>
    rw [List.append_assoc, List.append_assoc]
    exact ih (h.nested hn)

/-- Settles O3: an unlisted ordinal meets no row of the decoder's table; tag 3 makes the reader of the node raise, and no reader around
it catches the error, by induction on the nesting. -/
theorem reservedEncodingsStop : Obligations.ReservedEncodingsStop := by
  refine ⟨fun s op bs hcalls hop => ?ordinal, fun s bs h rest hbs htag hcalls => ?tag⟩
  case ordinal =>
    have hdecode : decode s.calls = .error (.unknownOrdinal op) := by
      rw [hcalls, decode, decodeOperands_of_unlisted hop]
    rw [step_of_decode_error (by simp [hcalls]) hdecode]
    rfl
  case tag =>
    have hdecode : decode s.calls = .error .reservedTag := by
      rw [hcalls, decode_reservedTag hbs (meetsReservedTag_header htag rest)]
    have hne : s.calls ≠ [] := by
      intro hnil
      simp [hnil, decode] at hdecode
    rw [step_of_decode_error hne hdecode]
    rfl

end Sys2Proof.Machine

/-! ### The datapath: WALK and its renderers -/

namespace Sys2Proof.Machine

open Sys2Proof Sys2Proof.Safety

/-! #### What a call that computes one value concludes -/

section
variable {α β : Type} {x : Except Error α} {s : State}

/-- The call delivers a value exactly where the computation answers it. -/
theorem conclude_eq_next_iff (hx : OnlyViolations x) {g : α → Value} (hg : Function.Injective g) (b : α) :
    conclude (orRaise x fun a => .ok (g a)) s = .next { s with result := some (g b) } ↔ x = .ok b := by
  cases x with
  | ok a => simp [State.deliver, hg.eq_iff]
  | error e =>
    obtain ⟨c, rfl⟩ := hx e rfl
    simp

/-- R117: the call faults exactly where the computation raises a contract violation. -/
theorem conclude_eq_fault_iff {g : α → Value} (f : Fault) :
    conclude (orRaise x fun a => .ok (g a)) s = .fault f ↔ ∃ c, x = violation c ∧ f = .contractViolation c := by
  match x with
  | .ok a => simp [violation]
  | .error (.contractViolation c) => simp [violation, eq_comm]
  | .error (.invalidConfiguration k) => simp [violation, conclude, stop, surface]
  | .error .unsupportedBackendWidth => simp [violation, conclude, stop, surface]

theorem orRaise_bind_ok (x : Except Error α) (g : α → β) (f : β → Except Stop Value) :
    orRaise (x.bind fun a => .ok (g a)) f = orRaise x fun a => f (g a) := by
  cases x <;> rfl

end

/-! #### The fold -/

/-- R106: an operand list on which WALK answers element by element is well formed, and the answers are the fold's. -/
theorem wf_and_map_walkNode_of_forall₂ {T : Type} {ref : SourceId → Nat → T} {con : Bool → T} {xr : List T → T}
    {l : List BitExpr} {ts : List T} (h : List.Forall₂ (fun e t => walk ref con xr e = .ok t) l ts) :
    (∀ e ∈ l, wf e = true) ∧ l.map (walkNode ref con xr) = ts := by
  induction h with
  | nil => simp
  | cons he _ ih =>
    obtain ⟨hwf, ht⟩ := guardWf_eq_ok.1 ((walk_eq ref con xr _).symm.trans he)
    obtain rfl := Except.ok.inj ht
    obtain ⟨hwfs, rfl⟩ := ih
    simpa [hwf] using hwfs

/-- R106: WALK of an `Xor` hands the answers on its operands to the callback. -/
theorem walk_xorOf {T : Type} {ref : SourceId → Nat → T} {con : Bool → T} {xr : List T → T} {l : List BitExpr} {ts : List T}
    (hne : l ≠ []) (h : List.Forall₂ (fun e t => walk ref con xr e = .ok t) l ts) :
    walk ref con xr (.xorOf l) = .ok (xr ts) := by
  obtain ⟨hwf, rfl⟩ := wf_and_map_walkNode_of_forall₂ h
  have hnode : wf (.xorOf l) = true := by simpa [wf_xor_iff] using ⟨hne, hwf⟩
  rw [walk_of_wf _ _ _ hnode, BitExpr.xorOf, walkNode_xor, ExprList.toList_ofList]

/-- Settles O45: WALK answers the fold on every well-formed tree and nothing on others. -/
theorem walkIsTheFold : Obligations.WalkIsTheFold := fun _ _ _ _ =>
  ⟨fun _ _ => rfl, fun _ => rfl, fun _ _ => walk_xorOf, fun _ he => ⟨_, walk_of_wf _ _ _ he⟩,
    fun _ he => walk_of_not_wf _ _ _ he⟩

/-! #### The renderers -/

section
variable {s : State} {a : ExprSrc} {x : BitExpr}

theorem exec_walk (h : readExpr s a = .ok x) (r : Renderer) :
    exec (.walk a r) s = conclude (orRaise (walkWith r x) fun t => .ok (.rendered t)) s := by
  simp only [exec, execWalk, h, andThen_ok]

theorem exec_walk_of_walkWith (h : readExpr s a = .ok x) {r : Renderer} {t : Rendered} (ht : walkWith r x = .ok t) :
    exec (.walk a r) s = .next { s with result := some (.rendered t) } := by
  rw [exec_walk h, ht]
  rfl

/-- R106: with the value renderer WALK concludes as BXEVAL, with the bit rendered. -/
theorem exec_walk_value (h : readExpr s a = .ok x) (crc data : Bits) : exec (.walk a (.value crc data)) s =
    conclude (orRaise (bxeval crc.val data.val x) fun b => .ok (.rendered (.bit b))) s := by
  rw [exec_walk h, walkWith, walkThrough_value, orRaise_bind_ok]

theorem keyText_eq_walkNode (x : BitExpr) :
    walkNode (fun s i => sourceName s ++ pad i Config.keyDigits) conText List.flatten x = keyText x := by
  induction x using BitExpr.induct with
  | input s i => rfl
  | const b => cases b <;> rfl
  | xor l ih => rw [walkNode_xor, List.map_congr_left ih, keyText, keyTexts_eq]

/-- R106: with the key renderer WALK concludes as BXKEY, with the key rendered. -/
theorem exec_walk_sortKey (h : readExpr s a = .ok x) :
    exec (.walk a .sortKey) s = conclude (orRaise (bxkey x) fun k => .ok (.rendered (.text k))) s := by
  rw [exec_walk h, walkWith, walk_eq, keyText_eq_walkNode, orRaise_bind_ok, bxkey]

theorem exec_walk_text (h : readExpr s a = .ok x) (style : RefStyle) (op : OpToken) (bare : Bool) :
    exec (.walk a (.text style op bare)) s =
      conclude (orRaise (walk (refText style) conText (xorText op bare) x) fun t => .ok (.rendered (.text t))) s := by
  rw [exec_walk h, walkWith, orRaise_bind_ok]

/-- R68: every renderer but the value renderer raises `EmptyXor` on a tree that is not well formed. -/
theorem walkWith_of_not_wf (hx : wf x = false) {r : Renderer} (hr : ∀ crc data, r ≠ .value crc data) :
    walkWith r x = violation .emptyXor := by
  cases r with
  | text style op bare => rw [walkWith, walk_of_not_wf _ _ _ hx]; rfl
  | leafCount => rw [walkWith, walk_of_not_wf _ _ _ hx]; rfl
  | depth => rw [walkWith, walk_of_not_wf _ _ _ hx]; rfl
  | value crc data => exact absurd rfl (hr crc data)
  | sortKey => rw [walkWith, walk_of_not_wf _ _ _ hx]; rfl
  | env id => rw [walkWith, walk_of_not_wf _ _ _ hx]

theorem exec_walk_of_not_wf (h : readExpr s a = .ok x) (hx : wf x = false) {r : Renderer}
    (hr : ∀ crc data, r ≠ .value crc data) : exec (.walk a r) s = .fault (.contractViolation .emptyXor) := by
  rw [exec_walk h, walkWith_of_not_wf hx hr]
  rfl

/-- R67, R106: BXEVAL and WALK with the value renderer deliver the same bit. -/
theorem exec_bxeval_iff_walk_value (h : readExpr s a = .ok x) (crc data : Bits) (b : Bool) :
    exec (.bxeval a crc data) s = .next { s with result := some (.bit b) } ↔
      exec (.walk a (.value crc data)) s = .next { s with result := some (.rendered (.bit b)) } := by
  have hviol := onlyViolations_bxeval crc.val data.val x
  rw [exec_bxeval h, exec_walk_value h, conclude_eq_next_iff hviol fun _ _ he => by simpa using he,
    conclude_eq_next_iff hviol (g := fun b => .rendered (.bit b)) fun _ _ he => by simpa using he]

/-- R67, R106: BXEVAL and WALK with the value renderer raise the same error. -/
theorem exec_bxeval_fault_iff_walk_value (h : readExpr s a = .ok x) (crc data : Bits) (f : Fault) :
    exec (.bxeval a crc data) s = .fault f ↔ exec (.walk a (.value crc data)) s = .fault f := by
  rw [exec_bxeval h, exec_walk_value h, conclude_eq_fault_iff, conclude_eq_fault_iff]

end

/-- Settles O47: both operations conclude from the same computation, BXEVAL's value or the guarded key. -/
theorem evaluationAndKeyAreWalks : Obligations.EvaluationAndKeyAreWalks := by
  refine fun s a x h => ⟨fun crc data => ⟨exec_bxeval_iff_walk_value h crc data, exec_bxeval_fault_iff_walk_value h crc data⟩,
    fun k => ?key, fun f => ?keyFault⟩
  case key =>
    have hviol := onlyViolations_bxkey x
    rw [exec_bxkey h, exec_walk_sortKey h, conclude_eq_next_iff hviol fun _ _ he => by simpa using he,
      conclude_eq_next_iff hviol (g := fun k => .rendered (.text k)) fun _ _ he => by simpa using he]
  case keyFault => rw [exec_bxkey h, exec_walk_sortKey h, conclude_eq_fault_iff, conclude_eq_fault_iff]

/-- V-D8: the leaf counter counts the leaves. -/
theorem walkNode_leafCount (x : BitExpr) : walkNode (fun _ _ => 1) (fun _ => 1) List.sum x = (leaves x).length := by
  induction x using BitExpr.induct with
  | input s i => rfl
  | const b => rfl
  | xor l ih => rw [walkNode_xor, List.map_congr_left ih, leaves, leavesAll_eq, List.length_flatMap]

/-- Settles O46: each renderer wraps what the fold by its callbacks answers, and the value renderer what BXEVAL answers. -/
theorem walkDeliversWhatTheCallbacksBuild : Obligations.WalkDeliversWhatTheCallbacksBuild := by
  refine ⟨fun _ _ => rfl, fun s a x h => ⟨fun hx => ?renders, fun crc data => ?value, fun hx r hr => ?raises,
    fun hx crc data => ?valueRaises, ?empty⟩⟩
  case renders =>
    have hwalk {T : Type} (ref : SourceId → Nat → T) (con : Bool → T) (xr : List T → T) := walk_of_wf ref con xr hx
    exact ⟨fun style op bare => ⟨_, hwalk _ _ _, exec_walk_of_walkWith h (by rw [walkWith, hwalk]; rfl)⟩,
      ⟨_, hwalk _ _ _, walkNode_leafCount x, exec_walk_of_walkWith h (by rw [walkWith, hwalk]; rfl)⟩,
      ⟨_, hwalk _ _ _, exec_walk_of_walkWith h (by rw [walkWith, hwalk]; rfl)⟩,
      ⟨_, hwalk _ _ _, exec_walk_of_walkWith h (by rw [walkWith, hwalk]; rfl)⟩,
      fun id => ⟨_, hwalk _ _ _, exec_walk_of_walkWith h (by rw [walkWith, hwalk])⟩⟩
  case value =>
    exact ⟨fun b => (exec_bxeval_iff_walk_value h crc data b).1, fun f => (exec_bxeval_fault_iff_walk_value h crc data f).1⟩
  case raises => exact exec_walk_of_not_wf h hx hr
  case valueRaises =>
    have hwfw : wfw crc.width data.width x = false := Bool.eq_false_iff.2 fun hw => by simp [wf_of_wfw hw] at hx
    simp only [exec_walk_value h, conclude_eq_fault_iff]
    rcases bxeval_of_not_wfw crc.val data.val hwfw with hv | ⟨hv, -⟩
    exacts [⟨_, _, hv, rfl⟩, ⟨_, _, hv, rfl⟩]
  case empty =>
    rintro rfl r
    by_cases hr : ∃ crc data, r = .value crc data
    · obtain ⟨crc, data, rfl⟩ := hr
      rw [exec_walk_value h]
      rfl
    · push Not at hr
      exact exec_walk_of_not_wf h rfl hr

/-! #### The text renderers -/

theorem pad_one (i : Nat) : pad i 1 = digits i := by
  have hpos : 0 < (digits i).length := by
    rw [digits_eq_toDigits]
    exact Nat.length_toDigits_pos
  have hnone : 1 - (digits i).length = 0 := by omega
  rw [pad, hnone, List.replicate_zero, List.nil_append]

theorem joined_eq_intercalate (sep : List Char) (l : List (List Char)) : joined sep l = List.intercalate sep l := by
  induction l with
  | nil => rfl
  | cons t l ih =>
    cases l with
    | nil => simp [joined, List.intercalate]
    | cons u l =>
      rw [joined, ih]
      simp [List.intercalate]

theorem xorText_eq (op : OpToken) (bare : Bool) (l : List (List Char)) : xorText op bare l =
    (if bare then [] else ['(']) ++
      List.intercalate (if op = .caret then [' ', '^', ' '] else [' ', 'x', 'o', 'r', ' ']) l ++
      (if bare then [] else [')']) := by
  rw [xorText, joined_eq_intercalate]
  cases op <;> cases bare <;> simp [opText]

/-- R58: the text renderer delivers a text exactly where the fold by its callbacks answers it. -/
theorem exec_walk_text_iff {s : State} {e : BitExpr} {style : RefStyle} {op : OpToken} {bare : Bool} {t : List Char} :
    exec (.walk (.lit e) (.text style op bare)) s = .next { s with result := some (.rendered (.text t)) } ↔
      walk (refText style) conText (xorText op bare) e = .ok t := by
  rw [exec_walk_text (readExpr_lit s e),
    conclude_eq_next_iff (onlyViolations_walk _ _ _ e) (g := fun t => .rendered (.text t)) fun _ _ he => by simpa using he]

/-- Settles O48: the callbacks write the leaves as R58 does, and join the operands' texts by the token. -/
theorem textRenderersWriteTheNotation : Obligations.TextRenderersWriteTheNotation := by
  refine fun s op bare => ⟨fun i => ?input, fun style => ?const, fun style l ts hne h => ?xor⟩
  case input =>
    simp only [exec_walk_text_iff]
    exact ⟨digits i, pad_one i ▸ isPadded_pad i one_pos, rfl, rfl, rfl, rfl⟩
  case const =>
    simp only [exec_walk_text_iff]
    exact ⟨rfl, rfl⟩
  case xor =>
    simp only [exec_walk_text_iff, ← xorText_eq] at h ⊢
    exact walk_xorOf hne h

end Sys2Proof.Machine

/-! ### The run and the calls: reset, operands, VALIDATE, INWORDS and GEN -/

namespace Sys2Proof.Machine

open Sys2Proof Sys2Proof.Safety

/-- Settles O1: the fields of a run that has just started, and the least legal Configuration. -/
theorem resetIsTheStartOfARun : Obligations.ResetIsTheStartOfARun :=
  ⟨fun c => ⟨rfl, rfl, rfl, Run.inputWord_length _ _, Run.inputWord_length _ _, Run.inputWord_getElem? .crc c.W,
    Run.inputWord_getElem? .data c.D, rfl, rfl⟩, rfl, rfl⟩

/-! #### GEN -/

section
variable {s : State} {c : CfgSrc}

theorem exec_gen_of_ok {w : Word} (h : gen (readCfg s c) = .ok w) :
    exec (.gen c) s = .next ((s.record (Run.finished (readCfg s c) w)).deliver (outputOf w)) := by
  rw [exec, execGen_eq, h]

theorem exec_gen_of_error {e : Error} (h : validate (readCfg s c) = .error e) :
    exec (.gen c) s = .next ((s.record (Run.failed (readCfg s c) e)).deliver (.failure e)) := by
  rw [exec, execGen_eq, gen_of_invalid h]

theorem exec_validate_of_ok (h : validate (readCfg s c) = .ok ()) :
    exec (.validate c) s = .next (s.deliver .unit) := by
  rw [exec, execValidate_eq, h]

theorem exec_validate_of_error {e : Error} (h : validate (readCfg s c) = .error e) :
    exec (.validate c) s = .next ((s.record (Run.failed (readCfg s c) e)).deliver (.failure e)) := by
  rw [exec, execValidate_eq, h]

/-- R89: a GEN whose Word is `w` is a whole run that delivers `w`. -/
theorem genDelivers_of_gen {w : Word} (h : gen (readCfg s c) = .ok w) : GenDelivers (.gen c) s (readCfg s c) w :=
  exec_gen_of_ok h

end

/-- Settles O7: GEN answers a Word on a valid Configuration, and the run that ended last, with that Word, is the one read. -/
theorem genCompletesOnEveryValidConfiguration : Obligations.GenCompletesOnEveryValidConfiguration := by
  intro s c hc
  obtain ⟨w, hw, h⟩ := gen_holds hc
  refine ⟨w, h.length_eq, genDelivers_of_gen hw, fun t ht => ?_⟩
  rw [exec_gen_of_ok hw] at ht
  cases ht
  exact readReg_out (s := (s.record (Run.finished (readCfg s c) w)).deliver (outputOf w)) rfl rfl

/-- Settles O8: what GEN does to any state is settled by what it answers on the Configuration. -/
theorem genIgnoresThePast : Obligations.GenIgnoresThePast := by
  intro c
  cases hc : validate c with
  | ok _ =>
    obtain ⟨w, hw, -⟩ := gen_holds hc
    exact ⟨outputOf w, Run.finished c w, fun s => exec_gen_of_ok (c := .lit c) hw⟩
  | error e => exact ⟨.failure e, Run.failed c e, fun s => exec_gen_of_error (c := .lit c) hc⟩

/-! #### VALIDATE -/

theorem validate_of_crcWidth {c : Configuration} (hW : c.W < 1) :
    validate c = .error (.invalidConfiguration .crcWidth) := if_pos hW

theorem validate_of_dataWidth {c : Configuration} (hW : 1 ≤ c.W) (hD : c.D < 1) :
    validate c = .error (.invalidConfiguration .dataWidth) := by
  rw [validate, if_neg hW.not_gt, if_pos hD]

theorem validate_of_polynomial {c : Configuration} (hW : 1 ≤ c.W) (hD : 1 ≤ c.D) (hP : 2 ^ c.W - 1 < c.P) :
    validate c = .error (.invalidConfiguration .polynomial) := by
  rw [validate, if_neg hW.not_gt, if_neg hD.not_gt, if_pos hP]

theorem validate_eq_ok_iff_le {c : Configuration} :
    validate c = .ok () ↔ 1 ≤ c.W ∧ 1 ≤ c.D ∧ c.P ≤ 2 ^ c.W - 1 := by
  rw [validate_eq_ok, Nat.le_sub_one_iff_lt (Nat.two_pow_pos _)]

/-- Settles O9: the checks exclude each other, and each error makes a run of its own fail. -/
theorem validateChecksInOrder : Obligations.ValidateChecksInOrder := fun _ _ =>
  ⟨rfl, validate_eq_ok_iff_le, fun hW => exec_validate_of_error (validate_of_crcWidth hW),
    fun hW hD => exec_validate_of_error (validate_of_dataWidth hW hD),
    fun hW hD hP => exec_validate_of_error (validate_of_polynomial hW hD hP),
    fun hW hD hP => exec_validate_of_ok (validate_eq_ok_iff_le.2 ⟨hW, hD, hP⟩)⟩

/-! #### INWORDS -/

section
variable {s : State} {c : CfgSrc}

/-- R83: INWORDS has no meaning on an invalid Configuration. -/
theorem exec_inwords_of_error {e : Error} (h : validate (readCfg s c) = .error e) :
    exec (.inwords c) s = .refused .illegalOperand := by
  simp only [exec, execInwords, h]

/-- R16, R83: INWORDS on the Configuration of a running run writes its input words. -/
theorem exec_inwords_run (h : validate s.cfg = .ok ()) (hrun : s.status = .running) :
    exec (.inwords .cfg) s = .next { s with
      inData := (inwords s.cfg).1, inCrc := (inwords s.cfg).2
      result := some (.inputs (inwords s.cfg).1 (inwords s.cfg).2) } := by
  simp only [exec, execInwords, readCfg, h, isRunning_iff.2 hrun, if_true]

/-- R83: in every other form INWORDS only delivers. -/
theorem exec_inwords_deliver (h : validate (readCfg s c) = .ok ()) (hc : c ≠ .cfg ∨ s.status ≠ .running) :
    exec (.inwords c) s = .next (s.deliver (.inputs (inwords (readCfg s c)).1 (inwords (readCfg s c)).2)) := by
  cases c with
  | lit c => simp only [exec, execInwords, h]
  | cfg =>
    have hrun : ¬ s.isRunning = true := fun hr => hc.elim (· rfl) (· (isRunning_iff.1 hr))
    simp only [exec, execInwords, h, if_neg hrun]

end

/-- Settles O30: INWORDS answers the two input words, and the run's own form writes them. -/
theorem inwordsBuildsTheInputWords : Obligations.InwordsBuildsTheInputWords := by
  refine ⟨fun _ => rfl, fun s c hc => ⟨(inwords (readCfg s c)).1, (inwords (readCfg s c)).2, Run.inputWord_length _ _,
    Run.inputWord_length _ _, Run.inputWord_getElem? .data _, Run.inputWord_getElem? .crc _, ?run, exec_inwords_deliver hc⟩⟩
  case run =>
    rintro rfl hrun
    exact exec_inwords_run hc hrun

/-! #### Operands -/

section
variable {s : State}

theorem observable_of_running (h : s.status = .running) : s.observable = true := by
  simp [State.observable, h]

theorem observable_of_not_failed (h : ∀ e, s.status ≠ .failed e) : s.observable = true := by
  unfold State.observable
  split
  next e he => exact absurd he (h e)
  next => rfl
  next => rfl

/-- R42: the Word handed over is that of the last run that ended done. -/
theorem handed_of_ended {r : Run} {pre post : List Run} (h : s.ended = pre ++ r :: post)
    (hpre : ∀ x ∈ pre, x.status ≠ .done) (hr : r.status = .done) : s.handed = some r := by
  have hnone : pre.find? Run.isDone = none := List.find?_eq_none.2 fun x hx => by simpa [Run.isDone] using hpre x hx
  rw [State.handed, h, List.find?_append, hnone, Option.none_or, List.find?_cons_of_pos (by simp [Run.isDone, hr])]

theorem runOf_out_of_none_done (h : ∀ r ∈ s.ended, r.status ≠ .done) : s.runOf .out = none :=
  List.find?_eq_none.2 fun x hx => by simpa [Run.isDone] using h x hx

theorem readExpr_elem_eq {r : WordReg} {w : Word} (h : readReg s r = .ok w) (j : Nat) :
    readExpr s (.elem r j) = orRaise (wget w j) .ok := by
  rw [readExpr, h, andThen_ok]

/-- A call whose operand cannot be read stops as the read does. -/
theorem exec_bxkey_of_error {a : ExprSrc} {p : Stop} (h : readExpr s a = .error p) : exec (.bxkey a) s = stop p s := by
  simp only [exec, execBxkey, h, andThen_error, conclude]

theorem exec_wget_of_error {w : WordSrc} {p : Stop} (h : readWord s w = .error p) (j : Nat) :
    exec (.wget w j) s = stop p s := by
  simp only [exec, execWget, h, andThen_error, conclude]

/-- R123: where a Word belongs to no run that can be read, the calls that name it are refused. -/
theorem refused_of_runOf_none {r : WordReg} (h : s.runOf r = none) (j : Nat) :
    exec (.wget (.reg r) j) s = .refused .unobservable ∧ exec (.bxkey (.elem r j)) s = .refused .unobservable := by
  have hword := readReg_of_none h
  have hexpr : readExpr s (.elem r j) = .error (.refused .unobservable) := by rw [readExpr, hword, andThen_error]
  exact ⟨exec_wget_of_error (w := .reg r) hword j, exec_bxkey_of_error hexpr⟩

end

/-- Settles O14: each form reads what `runOf` says its run is, and a position is read as WGET reads it. -/
theorem operandsRead : Obligations.OperandsRead := by
  refine fun s => ⟨fun _ _ _ _ _ => ⟨rfl, rfl, rfl, rfl, rfl⟩, rfl, rfl, rfl, fun h => ?held, fun r pre post h hpre hr => ?handed,
    fun r w j hw => ⟨fun x hx => ?element, fun hj => ?beyond⟩, fun e he r j hr => refused_of_runOf_none (runOf_of_failed he hr) j,
    fun h j => refused_of_runOf_none (runOf_out_of_none_done h) j⟩
  case held =>
    have hobs := observable_of_not_failed h
    exact ⟨readReg_of_observable hobs nofun, readReg_of_observable hobs nofun, readReg_of_observable hobs nofun⟩
  case handed => exact readReg_of_some (handed_of_ended h hpre hr)
  case element => rw [readExpr_elem_eq hw, wget_eq_ok.2 hx, orRaise_ok]
  case beyond =>
    refine exec_bxkey_of_error (p := .raised (.contractViolation .indexOutOfRange)) ?_
    rw [readExpr_elem_eq hw, wget_of_le hj, orRaise_violation]

/-! #### Operands outside their domain -/

section
variable {s : State} {w : WordSrc} {d : ExprSrc} {x : Word} {e : BitExpr}

theorem exec_stepl_call_eq (hw : readWord s w = .ok x) (hd : readExpr s d = .ok e) (p : PolySrc) :
    exec (.stepl (.call w d p)) s = conclude (orRaise (stepWord false x e (readPoly s p)) fun z => .ok (.word z)) s := by
  simp only [exec, execStepl, hw, hd, andThen_ok]
  rfl

theorem exec_stepr_call_eq (hw : readWord s w = .ok x) (hd : readExpr s d = .ok e) (p : PolySrc) :
    exec (.stepr (.call w d p)) s = conclude (orRaise (stepWord true x e (readPoly s p)) fun z => .ok (.word z)) s := by
  simp only [exec, execStepr, hw, hd, andThen_ok]
  rfl

/-- R117: a call of a step whose computation raises a contract violation in both directions faults in both. -/
theorem exec_steps_of_violation (hw : readWord s w = .ok x) (hd : readExpr s d = .ok e) {c : ContractCause} (p : PolySrc)
    (h : ∀ right, stepWord right x e (readPoly s p) = violation c) :
    exec (.stepl (.call w d p)) s = .fault (.contractViolation c) ∧
      exec (.stepr (.call w d p)) s = .fault (.contractViolation c) := by
  rw [exec_stepl_call_eq hw hd, exec_stepr_call_eq hw hd, h, h]
  exact ⟨rfl, rfl⟩

/-- R97: a Word of no elements has no top and no low element to read. -/
theorem stepWord_nil (hd : wf e = true) (right : Bool) (P : Nat) : stepWord right [] e P = violation .indexOutOfRange := by
  have hall : ∀ y ∈ [e], wf y = true := by simpa using hd
  cases right <;> simp only [stepWord, stepl, stepr, guardAll_of_wf hall] <;> rfl

end

section
variable {s : State} {w : WordSrc} {x : Word} {W D : Nat}

theorem exec_crcstep_of_not_fit (h : readWord s w = .ok x) (hfit : vectorsFit s w x W D = false) (crc : BitVec W)
    (data : BitVec D) : exec (.crcstep w ⟨W, crc⟩ ⟨D, data⟩) s = .refused .widthDisagreement := by
  simp [exec, execCrcstep, h, hfit]

theorem exec_crcstream_of_not_fit (h : readWord s w = .ok x) (hfit : vectorsFit s w x W D = false) (init : BitVec W)
    (ws : List (BitVec D)) (xorout : BitVec W) :
    exec (.crcstream w ⟨W, D, init, ws, xorout⟩) s = .refused .widthDisagreement := by
  simp [exec, execCrcstream, h, hfit]

/-- R36: vectors of other widths than those of the Word, and of the run it belongs to, are no legal arguments. -/
theorem vectorsFit_eq_false (h : W < x.length ∨ ∃ r y, w = .reg r ∧ s.runOf r = some y ∧ (x.length ≠ W ∨ D ≠ y.cfg.D)) :
    vectorsFit s w x W D = false := by
  rcases h with hlong | ⟨r, y, rfl, hy, hne⟩
  · cases w with
    | reg r => simp [vectorsFit, hlong.ne']
    | lit v => simp [vectorsFit, hlong]
  · rcases hne with hlen | hD
    · simp [vectorsFit, hlen]
    · simp [vectorsFit, hy, Ne.symm hD]

/-- R108: with no data word nothing of the Word is read. -/
theorem exec_crcstream_nil (h : readWord s w = .ok x) (hfit : vectorsFit s w x W D = true) (init xorout : BitVec W) :
    exec (.crcstream w ⟨W, D, init, [], xorout⟩) s = .next { s with result := some (.bits ⟨W, init ^^^ xorout⟩) } := by
  rw [exec_crcstream h hfit]
  rfl

/-- R108, R122: CRCSTREAM raises what the CRCSTEP on its first data word raises. -/
theorem exec_crcstream_of_violation (h : readWord s w = .ok x) (hfit : vectorsFit s w x W D = true) {init : BitVec W}
    {data : BitVec D} {c : ContractCause} (hc : crcstep x init data = violation c) (ws : List (BitVec D)) (xorout : BitVec W) :
    exec (.crcstream w ⟨W, D, init, data :: ws, xorout⟩) s = .fault (.contractViolation c) := by
  rw [exec_crcstream h hfit, crcstream_cons, hc]
  rfl

end

/-- Settles O15: each operation meets the operand that is outside its domain in its guard, in a read or in the widths it asks for. -/
theorem illegalOperandsStop : Obligations.IllegalOperandsStop := by
  refine ⟨fun s c e => exec_inwords_of_error, fun s ops l hl ⟨e, he, hwf⟩ => ?mkxor, fun s a b x y ha hb hwf => ?bxeq,
    fun s w d p x y hw hd ⟨e, he, hwf⟩ => exec_steps_of_violation hw hd p fun right => stepWord_of_not_wf he hwf right _,
    fun s w d p y hw hd hy => exec_steps_of_violation hw hd p fun right => stepWord_nil hy right _,
    fun s w x W D crc xorout data ws hw => ⟨fun h => ?widths, ?short⟩⟩
  case mkxor =>
    have hnode : wf (.xorOf l) = false := Bool.eq_false_iff.2 fun hx => by
      rw [wf_xor_iff, ExprList.toList_ofList] at hx
      simp [hx.2 e he] at hwf
    rw [exec_mkxor hl, mkxor_eq, guardWf_of_not_wf hnode]
    rfl
  case bxeq =>
    have hmem : ∃ e ∈ [x, y], wf e = false := by simpa using hwf
    obtain ⟨e, he, hwfe⟩ := hmem
    rw [exec_bxeq ha hb, bxeqChecked, guardAll_of_not_wf he hwfe]
    rfl
  case widths =>
    have hfit := vectorsFit_eq_false h
    exact ⟨exec_crcstep_of_not_fit hw hfit crc data, exec_crcstream_of_not_fit hw hfit crc ws xorout⟩
  case short =>
    rintro rfl hlen
    have hfit : vectorsFit s (.lit x) x W D = true := by simp [vectorsFit, hlen.le]
    obtain ⟨c, hc, hcause⟩ := crcstep_of_short crc data hlen
    exact ⟨⟨c, exec_crcstep_of_violation hw hfit hc, exec_crcstream_of_violation hw hfit hc ws xorout, hcause⟩,
      exec_crcstream_nil hw hfit crc xorout⟩

/-! #### Operations that raise no contract violation -/

theorem ne_fault_of_next {r : Result} {t : State} (h : r = .next t) (f : Fault) : r ≠ .fault f := by
  rw [h]
  nofun

theorem exec_inwords_ne_fault (c : CfgSrc) (s : State) (f : Fault) : exec (.inwords c) s ≠ .fault f := by
  cases hc : validate (readCfg s c) with
  | error e => simp [exec_inwords_of_error hc]
  | ok _ =>
    by_cases hown : c = .cfg ∧ s.status = .running
    · obtain ⟨rfl, hrun⟩ := hown
      exact ne_fault_of_next (exec_inwords_run hc hrun) f
    · exact ne_fault_of_next (exec_inwords_deliver hc (not_and_or.1 hown)) f

/-- Settles O11: each of the operations ends in a next state, or INWORDS is refused. -/
theorem operationsThatNeverFault : Obligations.OperationsThatNeverFault := by
  refine fun s f => ⟨fun _ _ => nofun, fun _ => nofun, fun c => ne_fault_of_next (execValidate_eq c s) f,
    fun c => exec_inwords_ne_fault c s f, fun c => ne_fault_of_next (execGen_eq c s) f, fun _ => nofun, fun _ => nofun,
    fun a b x y ha hb hx hy => ne_fault_of_next (equalityIsStructural.2 s a b x y ha hb hx hy) f,
    fun w x hw => ne_fault_of_next (exec_wnew hw) f, fun w d p x y hw hne hx hd hy => ?steps⟩
  have hstep (right : Bool) := stepWord_eq hne right hy hx (readPoly s p)
  exact ⟨ne_fault_of_next (exec_stepl_call hw hd (hstep false)) f, ne_fault_of_next (exec_stepr_call hw hd (hstep true)) f⟩

end Sys2Proof.Machine

/-! ### The run's own operations, and the transitions -/

namespace Sys2Proof.Machine

open Sys2Proof Sys2Proof.Safety

/-! #### The run's own operations where they are enabled, and the calls they agree with -/

section
variable {s : State} {w : Word}

theorem readWord_ww_of_running (h : s.status = .running) : readWord s (.reg .ww) = .ok s.ww :=
  readReg_of_observable (observable_of_running h) nofun

theorem readReg_inData_of_running (h : s.status = .running) : readReg s .inData = .ok s.inData :=
  readReg_of_observable (observable_of_running h) nofun

/-- R86: the call of the step that R27 names concludes from the computation of the run's own step. -/
theorem exec_step_call_of_running (hrun : s.status = .running) :
    exec (if s.cfg.right then .stepr (.call (.reg .ww) (.elem .inData s.k) .cfg)
      else .stepl (.call (.reg .ww) (.elem .inData (s.cfg.D - 1 - s.k)) .cfg)) s =
    conclude (orRaise ((wget s.inData (dataIndex s.cfg s.k)).bind fun d => stepWord s.cfg.right s.ww d s.cfg.P)
      fun z => .ok (.word z)) s := by
  have hww := readWord_ww_of_running hrun
  have hdata (j : Nat) := readExpr_elem_eq (readReg_inData_of_running hrun) j
  cases hright : s.cfg.right with
  | true =>
    rw [dataIndex, hright, if_pos rfl, if_pos rfl, exec, execStepr, hww, andThen_ok, hdata]
    cases wget s.inData s.k <;> rfl
  | false =>
    rw [dataIndex, hright, if_neg Bool.false_ne_true, if_neg Bool.false_ne_true, exec, execStepl, hww, andThen_ok, hdata]
    cases wget s.inData (s.cfg.D - 1 - s.k) <;> rfl

/-- A call of WSIMP on the working Word with the run's flags delivers exactly what WSIMP answers. -/
theorem exec_wsimp_call_eq_next_iff (hrun : s.status = .running) (sortLex : Bool) :
    exec (.wsimp (.call (.reg .ww) .cfg sortLex)) s = .next { s with result := some (.word w) } ↔
      wsimp s.ww s.cfg.opt sortLex = .ok w := by
  rw [exec_wsimp_call (readWord_ww_of_running hrun),
    conclude_eq_next_iff (onlyViolations_wsimp _ _ _) fun _ _ he => by simpa using he]
  rfl

/-- R98: the run's own WFLAT where a pass that flattens is due. -/
theorem exec_wflat_run (hrun : s.status = .running) (hflat : s.cfg.opt.flatten = true)
    (hdue : s.stepped = true ∨ s.k = s.cfg.D) (h : wflat s.ww = .ok w) : exec (.wflat .run) s = .next (s.rebind w) := by
  have hguard : (s.passDue && runsFlatten s.cfg.opt) = true := by
    simp [State.passDue, isRunning_iff, runsFlatten, hrun, hflat, hdue]
  rw [exec, execWflat, if_pos hguard, h]

/-- R87: the run's own pass after a step. -/
theorem exec_wsimp_run_pass (hrun : s.status = .running) (hstepped : s.stepped = true)
    (h : wsimp s.ww s.cfg.opt false = .ok w) : exec (.wsimp (.run false)) s = .next (s.advance w) := by
  have hguard : (s.isRunning && s.stepped) = true := by simp [isRunning_iff, hrun, hstepped]
  rw [exec, execWsimp, if_pos hguard, h]

/-- R88: the run's own last pass. -/
theorem exec_wsimp_run_last (hrun : s.status = .running) (hstepped : s.stepped = false) (hk : s.k = s.cfg.D)
    (h : wsimp s.ww s.cfg.opt true = .ok w) : exec (.wsimp (.run true)) s = .next (s.complete w) := by
  have hguard : (s.isRunning && !s.stepped && decide (s.k = s.cfg.D)) = true := by
    simp [isRunning_iff, hrun, hstepped, hk]
  rw [exec, execWsimp, if_pos hguard, h]

/-! #### Where they are refused -/

theorem stepEnabled_eq_false {right : Bool}
    (h : s.status ≠ .running ∨ s.stepped = true ∨ s.cfg.D ≤ s.k ∨ s.cfg.right = !right) : s.stepEnabled right = false := by
  rw [State.stepEnabled, State.isRunning]
  rcases h with h | h | h | h
  · simp [h]
  · simp [h]
  · simp [h]
  · cases right <;> simp [h]

theorem exec_stepl_run_of_not_enabled (h : s.stepEnabled false = false) : exec (.stepl .run) s = .refused .noTransition := by
  simp [exec, execStepl, h]

theorem exec_stepr_run_of_not_enabled (h : s.stepEnabled true = false) : exec (.stepr .run) s = .refused .noTransition := by
  simp [exec, execStepr, h]

theorem exec_wflat_run_refused (h : s.status ≠ .running ∨ s.cfg.opt.flatten = false ∨ s.stepped = false ∧ s.k ≠ s.cfg.D) :
    exec (.wflat .run) s = .refused .noTransition := by
  have hguard : (s.passDue && runsFlatten s.cfg.opt) = false := by
    rw [State.passDue, State.isRunning, runsFlatten]
    rcases h with h | h | ⟨hstepped, hk⟩
    · simp [h]
    · simp [h]
    · simp [hstepped, hk]
  simp [exec, execWflat, hguard]

theorem exec_wsimp_run_pass_refused (h : s.status ≠ .running ∨ s.stepped = false) :
    exec (.wsimp (.run false)) s = .refused .noTransition := by
  have hguard : (s.isRunning && s.stepped) = false := by
    rw [State.isRunning]
    rcases h with h | h <;> simp [h]
  simp [exec, execWsimp, hguard]

theorem exec_wsimp_run_last_refused (h : s.status ≠ .running ∨ s.stepped = true ∨ s.k ≠ s.cfg.D) :
    exec (.wsimp (.run true)) s = .refused .noTransition := by
  have hguard : (s.isRunning && !s.stepped && decide (s.k = s.cfg.D)) = false := by
    rw [State.isRunning]
    rcases h with h | h | h <;> simp [h]
  simp [exec, execWsimp, hguard]

end

/-- R84, R86: where R27 enables a step, the call it names and the run's own step build the same Word. -/
theorem exec_step_call_and_run {s : State} (hrun : s.status = .running) (hstepped : s.stepped = false) (hk : s.k < s.cfg.D)
    (hne : s.ww ≠ []) (hlen : s.inData.length = s.cfg.D) (hwf : ∀ e ∈ s.ww ++ s.inData, wf e = true) : ∃ z,
    exec (if s.cfg.right then .stepr (.call (.reg .ww) (.elem .inData s.k) .cfg)
      else .stepl (.call (.reg .ww) (.elem .inData (s.cfg.D - 1 - s.k)) .cfg)) s =
        .next { s with result := some (.word z) } ∧
    exec (if s.cfg.right then .stepr .run else .stepl .run) s = .next (s.shift z) := by
  have hd : dataIndex s.cfg s.k < s.inData.length := hlen ▸ dataIndex_lt hk
  have hget := wget_of_lt hd
  have hstep := stepWord_eq hne s.cfg.right (hwf _ (List.mem_append_right _ (List.getElem_mem hd)))
    (fun e he => hwf e (List.mem_append_left _ he)) s.cfg.P
  refine ⟨_, ?_, exec_step_run hrun hstepped hk hget hstep⟩
  rw [exec_step_call_of_running hrun, hget, bind_ok, hstep]
  rfl

/-- Settles O33: the call and the run's own step conclude from one computation, and the guard of R27 is the guard of the step. -/
theorem stepOfTheRunAdvancesIt : Obligations.StepOfTheRunAdvancesIt := by
  refine fun s => ⟨fun hrun hstepped hk hright hne hlen hwf => ?left, fun hrun hstepped hk hright hne hlen hwf => ?right,
    fun h => exec_stepl_run_of_not_enabled (stepEnabled_eq_false h),
    fun h => exec_stepr_run_of_not_enabled (stepEnabled_eq_false h)⟩
  case left =>
    obtain ⟨z, hcall, hstep⟩ := exec_step_call_and_run hrun hstepped hk hne hlen hwf
    rw [hright] at hcall hstep
    exact ⟨z, hcall, hstep⟩
  case right =>
    obtain ⟨z, hcall, hstep⟩ := exec_step_call_and_run hrun hstepped hk hne hlen hwf
    rw [hright] at hcall hstep
    exact ⟨z, hcall, hstep⟩

/-- Settles O40: on a well-formed working Word the passes answer, and the guards of the run's own forms exclude every other state. -/
theorem wordPassesOfTheRunReplaceTheWorkingWord : Obligations.WordPassesOfTheRunReplaceTheWorkingWord := by
  refine fun s => ⟨fun hrun hwf => ⟨fun hflat hdue => ?flat, fun hstepped => ?pass, fun hstepped hk => ?last⟩,
    exec_wflat_run_refused, exec_wsimp_run_pass_refused, exec_wsimp_run_last_refused⟩
  case flat =>
    have hw := wflat_of_wf hwf
    refine ⟨_, ?_, exec_wflat_run hrun hflat hdue hw⟩
    rw [exec_wflat_call (readWord_ww_of_running hrun), hw]
    rfl
  case pass =>
    have hw := wsimp_of_wf hwf s.cfg.opt false
    exact ⟨_, (exec_wsimp_call_eq_next_iff hrun false).2 hw, exec_wsimp_run_pass hrun hstepped hw⟩
  case last =>
    have hw := wsimp_of_wf hwf s.cfg.opt true
    exact ⟨_, (exec_wsimp_call_eq_next_iff hrun true).2 hw, exec_wsimp_run_last hrun hstepped hk hw⟩

/-! #### The transitions -/

section
variable {s : State}

/-- R27: a pass that the caller has begun is completed. -/
theorem runTransition_begun {w : Word} (hrun : s.status = .running) (hstepped : s.stepped = true)
    (h : wsimp s.ww s.cfg.opt false = .ok w) :
    runTransition s = .next { s with ww := w, stepped := false, k := s.k + 1 } := by
  simp only [runTransition, hrun, hstepped, h, if_true]

/-- R27: after the end of a run the only transition is the start of the next. -/
theorem runTransition_of_not_running (h : s.status ≠ .running) : runTransition s = startNext s := by
  rw [runTransition]
  split
  next hs => exact absurd hs h
  next => rfl
  next => rfl

theorem startNext_of_valid {c : Configuration} {cs : List Configuration} (hs : s.supply = c :: cs)
    (h : validate c = .ok ()) : startNext s = .next { s with toRun := Run.start c, supply := cs } := by
  simp only [startNext, hs, startRun, h]

theorem startNext_of_invalid {c : Configuration} {cs : List Configuration} {e : Error} (hs : s.supply = c :: cs)
    (h : validate c = .error e) :
    startNext s = .next ((({ s with cfg := c, supply := cs } : State).fail e).deliver (.failure e)) := by
  simp only [startNext, hs, startRun, h, raise, surface_of_validate h]

end

/-- Settles O4: what the two calls deliver is what the pass of the loop answers; otherwise the transition is read off its guards. -/
theorem stepWithNoCallTakesTheTransition : Obligations.StepWithNoCallTakesTheTransition := by
  intro s hcalls
  rw [step_of_calls_eq_nil hcalls]
  refine ⟨fun hrun hstepped hk x y hx hy => ?pass, fun hrun hstepped y hy => ?begun, fun hrun hstepped hk y hy => ?finish,
    fun hrun hs => ?none, fun hrun c cs hs => ⟨fun hc => ?start, fun e he => ?fails⟩⟩
  case pass =>
    rw [exec_step_call_of_running hrun, conclude_eq_next_iff
      ((onlyViolations_wget _ _).bind fun _ => onlyViolations_stepWord _ _ _ _) fun _ _ he => by simpa using he] at hx
    obtain ⟨d, hd, hx⟩ := bind_eq_ok.1 hx
    have hbody : loopBody s.cfg s.inData s.k s.ww = .ok y := by
      rw [loopBody, hd, bind_ok, hx, bind_ok]
      exact exec_wsimp_eq_next_word.1 hy
    exact runTransition_pass hrun hstepped hk hbody
  case begun => exact runTransition_begun hrun hstepped ((exec_wsimp_call_eq_next_iff hrun false).1 hy)
  case finish => exact runTransition_finish hrun hstepped hk ((exec_wsimp_call_eq_next_iff hrun true).1 hy)
  case none => rw [runTransition_of_not_running hrun, startNext, hs]
  case start =>
    rw [runTransition_of_not_running hrun, startNext_of_valid hs hc]
    simp [State.start, hcalls]
  case fails =>
    refine ⟨_, (runTransition_of_not_running hrun).trans (startNext_of_invalid hs he), rfl, fun r hr => ?_, rfl, hcalls, rfl, rfl⟩
    exact readReg_of_failed (e := e) rfl hr

/-! #### The transitions of a run and GEN -/

section
variable {s : State} {c : Configuration}

/-- R27, R89: from the start of a run on, the transitions deliver what GEN delivers and leave its run as GEN leaves it. -/
theorem run_afterPasses_eq_gen (hcalls : s.calls = []) (hc : validate c = .ok ()) :
    (∀ k ≤ c.D, ∃ w, Sys2Proof.core.run k (s.afterPasses c 0 (inwords c).2) = .next (s.afterPasses c k w)) ∧
    ∃ w x, Sys2Proof.core.run (c.D + 1) (s.afterPasses c 0 (inwords c).2) = .next ((s.afterPasses c c.D w).complete x) ∧
      gen c = .ok x := by
  have hW := (validate_eq_ok.1 hc).1
  have hpasses {k : Nat} (hk : k ≤ c.D) {w : Word} (hw : unrolled c k = .ok w) :
      Sys2Proof.core.run k (s.afterPasses c 0 (inwords c).2) = .next (s.afterPasses c k w) := by
    have hrun := run_afterPasses hcalls (k := 0) (n := k) (by omega) rfl ((Nat.zero_add k).symm ▸ hw)
    rwa [Nat.zero_add] at hrun
  refine ⟨fun k hk => ?_, ?_⟩
  · obtain ⟨w, hw, -⟩ := unrolled_holds hW hk
    exact ⟨w, hpasses hk hw⟩
  · obtain ⟨w, hw, h⟩ := unrolled_holds hW (le_refl c.D)
    obtain ⟨x, hx, -⟩ := h.simp c.opt true
    exact ⟨w, x, run_succ_of_run Sys2Proof.core (hpasses le_rfl hw) (step_afterPasses_last hcalls hx),
      by rw [gen, hc, bind_ok, hw, bind_ok, hx]⟩

end

/-- Settles O5: by induction on `k` the transitions build the Words of the loop, and the finish leaves the run as GEN records it; the
start of a supplied Configuration leads to the start of the run. -/
theorem transitionsOfARunAreGen : Obligations.TransitionsOfARunAreGen := by
  refine fun c hc => ⟨?passes, ?finish, fun s cs hcalls hrun hs => ?supplied⟩
  case passes =>
    intro k hk
    obtain ⟨w, hw⟩ := (run_afterPasses_eq_gen (s := State.start c) rfl hc).1 k hk
    exact ⟨_, hw, rfl, rfl⟩
  case finish =>
    obtain ⟨w, x, hx, hgen⟩ := (run_afterPasses_eq_gen (s := State.start c) rfl hc).2
    exact ⟨_, _, hx, rfl, exec_gen_of_ok (c := .lit c) hgen, rfl, rfl, rfl⟩
  case supplied =>
    have hstart : step s = .next (({ s with supply := cs } : State).afterPasses c 0 (inwords c).2) := by
      rw [step_of_calls_eq_nil hcalls, runTransition_of_not_running hrun, startNext_of_valid hs hc]
      rfl
    obtain ⟨hpasses, w, x, hx, hgen⟩ := run_afterPasses_eq_gen (s := { s with supply := cs }) hcalls hc
    have hrest {n : Nat} {t : State} (h : Sys2Proof.core.run n (({ s with supply := cs } : State).afterPasses c 0 (inwords c).2) =
        .next t) : Sys2Proof.core.run (n + 1) s = .next t := (run_succ_eq_next Sys2Proof.core n s t).2 ⟨_, hstart, h⟩
    refine ⟨fun k hk => ?_, _, _, hrest hx, rfl, exec_gen_of_ok (c := .lit c) hgen, rfl, rfl, rfl⟩
    obtain ⟨w, hw⟩ := hpasses k hk
    exact ⟨_, hrest hw, rfl, rfl⟩

/-! #### The sequence of operations of GEN -/

theorem execAll_append_of_next {l m : List Instr} {s t : State} (h : execAll l s = .next t) :
    execAll (l ++ m) s = execAll m t := by
  induction l generalizing s with
  | nil =>
    cases h
    rfl
  | cons i l ih =>
    rw [execAll] at h
    split at h
    next u hu =>
      rw [List.cons_append, execAll, hu]
      exact ih h
    next => simp at h
    next => simp at h

section
variable {s : State} {c : Configuration}

/-- R89: the operations of one pass take the Word of `k` passes to that of `k + 1`. -/
theorem execAll_passOps (hW : 1 ≤ c.W) {k : Nat} (hk : k < c.D) {w v : Word} (hw : Holds c k w)
    (hv : loopBody c (inwords c).1 k w = .ok v) : execAll (passOps c.right) (s.afterPasses c k w) =
      .next ((s.deliver (.word v)).afterPasses c (k + 1) v) := by
  obtain ⟨x, hx, -⟩ := hw.step hW hk
  rw [loopBody, wget_inData hk, bind_ok, hx, bind_ok] at hv
  have hstep := exec_step_run (s := s.afterPasses c k w) rfl rfl hk (wget_inData hk) hx
  have hpass := exec_wsimp_run_pass (s := (s.afterPasses c k w).shift x) rfl rfl hv
  have hcfg : (s.afterPasses c k w).cfg.right = c.right := rfl
  rw [hcfg] at hstep
  rw [passOps, execAll, hstep]
  simp only [execAll, hpass]
  rfl

/-- R89: the operations of `k` passes build the Word of `k` passes. -/
theorem execAll_passes (hW : 1 ≤ c.W) {k : Nat} (hk : k ≤ c.D) : ∃ (w : Word) (t : State), unrolled c k = .ok w ∧ Holds c k w ∧
    t.ended = s.ended ∧
    execAll (List.replicate k (passOps c.right)).flatten (s.afterPasses c 0 (inwords c).2) = .next (t.afterPasses c k w) := by
  induction k with
  | zero => exact ⟨_, s, rfl, holds_inCrc c, rfl, rfl⟩
  | succ k ih =>
    obtain ⟨w, t, hw, hholds, hended, hexec⟩ := ih (by omega)
    obtain ⟨v, hv, hvholds⟩ := hholds.body hW hk
    refine ⟨v, t.deliver (.word v), by rw [unrolled, hw, bind_ok, hv], hvholds, hended, ?_⟩
    rw [List.replicate_succ', List.flatten_append, List.flatten_singleton, execAll_append_of_next hexec]
    exact execAll_passOps hW hk hholds hv

/-- R89: the operations a GEN expands to deliver what GEN answers and end the run as GEN does. -/
theorem execAll_expansion (hc : validate c = .ok ()) : ∃ (w x : Word) (t : State), gen c = .ok x ∧ t.ended = [] ∧
    execAll (expansion c) (State.start c) = .next ((t.afterPasses c c.D w).complete x) := by
  obtain ⟨w, t, hw, hholds, hended, hexec⟩ := execAll_passes
    (s := (State.start c).deliver (.inputs (inwords c).1 (inwords c).2)) (validate_eq_ok.1 hc).1 (le_refl c.D)
  obtain ⟨x, hx, -⟩ := hholds.simp c.opt true
  refine ⟨w, x, t, by rw [gen, hc, bind_ok, hw, bind_ok, hx], hended, ?_⟩
  have hhead : execAll [.validate .cfg, .inwords .cfg] (State.start c) =
      .next (((State.start c).deliver (.inputs (inwords c).1 (inwords c).2)).afterPasses c 0 (inwords c).2) := by
    have hvalidate := exec_validate_of_ok (s := State.start c) (c := .cfg) hc
    have hinwords := exec_inwords_run (s := (State.start c).deliver .unit) hc rfl
    simp only [execAll, hvalidate, hinwords]
    rfl
  have hlast := exec_wsimp_run_last (s := t.afterPasses c c.D w) rfl rfl rfl hx
  rw [expansion, List.append_assoc, execAll_append_of_next hhead, execAll_append_of_next hexec]
  simp only [execAll, hlast]

end

/-- Settles O6: by induction on the data bits the operations build the Words of the loop, and the last ends the run as GEN records it;
an invalid Configuration makes both operations record and surface the same. -/
theorem genIsItsSequenceOfOperations : Obligations.GenIsItsSequenceOfOperations := by
  refine ⟨fun _ => rfl, fun c hc => ?valid, fun s c e he => ?invalid⟩
  case valid =>
    obtain ⟨w, x, t, hgen, hended, hexec⟩ := execAll_expansion hc
    refine ⟨_, _, hexec, exec_gen_of_ok (s := State.start c) (c := .cfg) hgen, rfl, rfl, ?_, rfl⟩
    rw [State.complete_ended]
    exact congrArg _ hended
  case invalid => rw [exec_gen_of_error he, exec_validate_of_error he]

end Sys2Proof.Machine

/-! ### What every operation and every step keeps: the separation of runs and the invariant -/

namespace Sys2Proof.Machine

open Sys2Proof Sys2Proof.Safety

/-! #### What an operation changes -/

/-- R21, R127: the four ways an operation ends in a next state, by what becomes of the runs: no run ends; a run of its own fails, or
ends done; or the run held ends with its last pass. -/
theorem exec_next_cases {i : Instr} {s t : State} (h : exec i s = .next t) :
    (t.status = s.status ∧ t.ended = s.ended ∧ ∀ e, t.result ≠ some (.failure e)) ∨
    (∃ c e, (i = .validate c ∨ i = .gen c) ∧ validate (readCfg s c) = .error e ∧
      t = (s.record (Run.failed (readCfg s c) e)).deliver (.failure e)) ∨
    (∃ c w, i = .gen c ∧ gen (readCfg s c) = .ok w ∧
      t = (s.record (Run.finished (readCfg s c) w)).deliver (outputOf w)) ∨
    (i = .wsimp (.run true) ∧ s.status = .running ∧ s.stepped = false ∧ s.k = s.cfg.D ∧
      ∃ w, wsimp s.ww s.cfg.opt true = .ok w ∧ t = s.complete w) := by
  cases hi : isCall i with
  | true =>
    rcases exec_next_of_isCall hi h with ⟨v, hv, rfl⟩ | hfails | hends
    · exact .inl ⟨rfl, rfl, fun e he => hv e (Option.some.inj he)⟩
    · exact .inr (.inl hfails)
    · exact .inr (.inr (.inl hends))
  | false =>
    rcases exec_next_of_run hi h with ⟨-, -, rfl | ⟨-, rfl⟩⟩ | ⟨-, -, -, -, d, w, -, -, rfl⟩ | ⟨-, -, -, -, w, -, rfl⟩ |
      ⟨-, -, -, w, -, rfl⟩ | hlast
    · exact .inl ⟨rfl, rfl, nofun⟩
    · exact .inl ⟨rfl, rfl, nofun⟩
    · exact .inl ⟨rfl, rfl, nofun⟩
    · exact .inl ⟨rfl, rfl, nofun⟩
    · exact .inl ⟨rfl, rfl, nofun⟩
    · exact .inr (.inr (.inr hlast))

/-- Settles O12: such an operation delivers, and at most records a run of its own. -/
theorem callsLeaveTheRunAlone : Obligations.CallsLeaveTheRunAlone := by
  intro i s t hi h
  rcases exec_next_of_isCall hi h with ⟨v, -, rfl⟩ | ⟨c, e, -, -, rfl⟩ | ⟨c, w, -, -, rfl⟩
  · exact ⟨rfl, rfl, rfl⟩
  · exact ⟨rfl, rfl, rfl⟩
  · exact ⟨rfl, rfl, rfl⟩

/-- R15: no operation changes the Configuration of the run, nor what the caller has placed and supplied. -/
theorem exec_next_keeps {i : Instr} {s t : State} (h : exec i s = .next t) :
    t.cfg = s.cfg ∧ t.calls = s.calls ∧ t.supply = s.supply := by
  cases hi : isCall i with
  | true =>
    obtain ⟨hrun, hcalls, hsupply⟩ := callsLeaveTheRunAlone i s t hi h
    exact ⟨congrArg Run.cfg hrun, hcalls, hsupply⟩
  | false =>
    rcases exec_next_of_run hi h with ⟨-, -, rfl | ⟨-, rfl⟩⟩ | ⟨-, -, -, -, d, w, -, -, rfl⟩ | ⟨-, -, -, -, w, -, rfl⟩ |
      ⟨-, -, -, w, -, rfl⟩ | ⟨-, -, -, -, w, -, rfl⟩
    all_goals exact ⟨rfl, rfl, rfl⟩

/-- R16: no operation but an INWORDS of the run changes its input words. -/
theorem exec_next_keeps_inputs {i : Instr} {s t : State} (h : exec i s = .next t) (hne : i ≠ .inwords .cfg) :
    t.inCrc = s.inCrc ∧ t.inData = s.inData := by
  cases hi : isCall i with
  | true =>
    obtain ⟨hrun, -, -⟩ := callsLeaveTheRunAlone i s t hi h
    exact ⟨congrArg Run.inCrc hrun, congrArg Run.inData hrun⟩
  | false =>
    rcases exec_next_of_run hi h with ⟨hinwords, -⟩ | ⟨-, -, -, -, d, w, -, -, rfl⟩ | ⟨-, -, -, -, w, -, rfl⟩ |
      ⟨-, -, -, w, -, rfl⟩ | ⟨-, -, -, -, w, -, rfl⟩
    case inl => exact absurd hinwords hne
    all_goals exact ⟨rfl, rfl⟩

/-! #### What a transition changes -/

/-- R15, R16, R27: a transition of a running run keeps its Configuration and input words, and leaves it running or done. -/
theorem runTransition_next_of_running {s t : State} (hrun : s.status = .running) (h : runTransition s = .next t) :
    t.cfg = s.cfg ∧ t.inCrc = s.inCrc ∧ t.inData = s.inData ∧ t.supply = s.supply ∧ t.calls = s.calls ∧
      (t.status = .running ∨ t.status = .done) := by
  rcases runTransition_next h with ⟨-, ⟨-, w, -, rfl⟩ | ⟨-, -, w, -, rfl⟩ | ⟨-, -, w, -, rfl⟩⟩ | ⟨hnot, -⟩
  · exact ⟨rfl, rfl, rfl, rfl, rfl, .inl hrun⟩
  · exact ⟨rfl, rfl, rfl, rfl, rfl, .inl hrun⟩
  · exact ⟨rfl, rfl, rfl, rfl, rfl, .inr rfl⟩
  · exact absurd hrun hnot

/-- R27: a transition of a machine whose run is over starts a run on the Configuration supplied next, or makes it fail. -/
theorem runTransition_next_of_not_running {s t : State} (hrun : s.status ≠ .running) (h : runTransition s = .next t) :
    t.calls = s.calls ∧ ∃ c cs, s.supply = c :: cs ∧ t.supply = cs ∧ t.cfg = c ∧
      (validate c = .ok () ∧ t.status = .running ∨ ∃ e, validate c = .error e ∧ t.status = .failed e) := by
  rcases runTransition_next h with ⟨hyes, -⟩ | ⟨-, c, cs, hs, ⟨hc, rfl⟩ | ⟨e, he, rfl⟩⟩
  · exact absurd hyes hrun
  · exact ⟨rfl, c, cs, hs, rfl, rfl, .inl ⟨hc, rfl⟩⟩
  · exact ⟨rfl, c, cs, hs, rfl, rfl, .inr ⟨e, he, rfl⟩⟩

/-- Settles O13: each way an operation or a transition of the run ends leaves the Configuration, and the start of another takes it from
what is supplied. -/
theorem configurationIsImmutable : Obligations.ConfigurationIsImmutable := by
  refine ⟨fun i s t h => (exec_next_keeps h).1, fun i s t => exec_next_keeps_inputs, fun s t hcalls h => ?transition⟩
  rw [step_of_calls_eq_nil hcalls] at h
  by_cases hrun : s.status = .running
  · obtain ⟨hcfg, hinCrc, hinData, hsupply, htcalls, -⟩ := runTransition_next_of_running hrun h
    exact ⟨htcalls, fun _ => ⟨hcfg, hinCrc, hinData, hsupply⟩, fun hnot => absurd hrun hnot⟩
  · obtain ⟨htcalls, c, cs, hs, rfl, rfl, -⟩ := runTransition_next_of_not_running hrun h
    exact ⟨htcalls, fun hyes => absurd hyes hrun, fun _ => hs⟩

/-- R21, R115: of the operations only VALIDATE and GEN surface an error, and only the last pass ends the run held. -/
theorem exec_next_fails {i : Instr} {s t : State} (h : exec i s = .next t) :
    (t.status = s.status ∨ i = .wsimp (.run true) ∧ s.status = .running ∧ t.status = .done) ∧
    (∀ e, t.result = some (.failure e) → (∃ k, e = .invalidConfiguration k) ∧ ∃ c, i = .validate c ∨ i = .gen c) ∧
    (∀ r e, t.ended = r :: s.ended → r.status = .failed e →
      (∃ k, e = .invalidConfiguration k) ∧ ∃ c, i = .validate c ∨ i = .gen c) := by
  rcases exec_next_cases h with ⟨hstatus, hended, hresult⟩ | ⟨c, e, hi, he, rfl⟩ | ⟨c, w, hi, -, rfl⟩ |
    ⟨hi, hrun, -, -, w, -, rfl⟩
  · exact ⟨.inl hstatus, fun e he => absurd he (hresult e), fun r e hr => by simp [hended] at hr⟩
  · refine ⟨.inl rfl, fun x hx => ?_, fun r x hr hx => ?_⟩
    · cases hx
      exact ⟨validate_error he, c, hi⟩
    · cases hr
      cases hx
      exact ⟨validate_error he, c, hi⟩
  · exact ⟨.inl rfl, nofun, fun r e hr hx => by cases hr; cases hx⟩
  · exact ⟨.inr ⟨hi, hrun, rfl⟩, nofun, fun r e hr hx => by cases hr; cases hx⟩

/-- Settles O10: the cases of an operation, and of a transition, that leave a failure. -/
theorem onlyConfigurationsFail : Obligations.OnlyConfigurationsFail := by
  refine ⟨fun i s t => exec_next_fails, fun s t hcalls h => ?transition⟩
  rw [step_of_calls_eq_nil hcalls] at h
  by_cases hrun : s.status = .running
  · obtain ⟨-, -, -, -, -, hstatus⟩ := runTransition_next_of_running hrun h
    exact ⟨fun e he => by simp [he] at hstatus, fun e he => by simp [hrun] at he⟩
  · obtain ⟨-, c, cs, hs, hsupply, hcfg, hstarts⟩ := runTransition_next_of_not_running hrun h
    refine ⟨fun e he => ⟨hrun, c, cs, hs, ?_⟩, fun e _ => ⟨c, cs, hs, hcfg, hsupply⟩⟩
    rcases hstarts with ⟨-, hrunning⟩ | ⟨x, hx, hfailed⟩
    · simp [hrunning] at he
    · rw [hfailed] at he
      cases he
      exact hx

/-! #### The invariant of a run -/

section
variable {r : Run} {w : Word}

theorem runInvariant_of_running (h : r.status = .running) : RunInvariant r ↔ RunInv r ∧ OnProgram r := by
  simp only [RunInvariant, h]

/-- R27: a running run that is on the program of GEN meets the invariant. -/
theorem runInvariant_of_onProgram (h : RunInv r ∧ OnProgram r) (hrun : r.status = .running) : RunInvariant r :=
  (runInvariant_of_running hrun).2 h

theorem runInvariant_of_done (h : r.status = .done) :
    RunInvariant r ↔ RunInv r ∧ r.k = r.cfg.D ∧ gen r.cfg = .ok r.ww := by
  simp only [RunInvariant, h]

/-- R21, R123: a run fails on the error VALIDATE raises. -/
theorem runInvariant_failed {c : Configuration} {e : Error} (h : validate c = .error e) : RunInvariant (Run.failed c e) :=
  ⟨h, rfl, rfl, rfl, rfl⟩

/-- R28: a run starts on a valid Configuration. -/
theorem runInvariant_start {c : Configuration} (h : validate c = .ok ()) : RunInvariant (Run.start c) :=
  ⟨runInv_iff.2 ⟨h, rfl, rfl, Nat.zero_le _, nofun, holds_inCrc c⟩, _, _, rfl, rfl, .inl rfl⟩

/-- R89: a GEN is a run that ends with the Word it answers. -/
theorem runInvariant_finished {c : Configuration} (h : gen c = .ok w) : RunInvariant (Run.finished c w) := by
  have hc := validate_of_gen h
  obtain ⟨x, hx, hholds⟩ := gen_holds hc
  obtain rfl := Except.ok.inj (h.symm.trans hx)
  exact ⟨runInv_iff.2 ⟨hc, rfl, rfl, le_rfl, nofun, hholds⟩, rfl, h⟩

variable (hinv : RunInv r) (hprog : OnProgram r)
include hinv hprog

/-- R84, R89: a step of the run builds the Word GEN holds in the middle of the pass. -/
theorem invariant_after_step {d : BitExpr} (hstepped : r.stepped = false) (hk : r.k < r.cfg.D)
    (hd : wget r.inData (dataIndex r.cfg r.k) = .ok d) (hw : stepWord r.cfg.right r.ww d r.cfg.P = .ok w) :
    RunInv { r with ww := w, stepped := true } ∧ OnProgram { r with ww := w, stepped := true } := by
  obtain ⟨v, -, hv, -, -, hww, -, -⟩ := onProgram_cases hinv hprog
  obtain ⟨hc, hinCrc, hinData, hle, -, hholds⟩ := runInv_iff.1 hinv
  rw [hinData, wget_inData hk] at hd
  obtain rfl := Except.ok.inj hd
  rw [hstepped, if_neg Bool.false_ne_true] at hholds
  obtain ⟨x, hx, hxholds⟩ := hholds.step (validate_eq_ok.1 hc).1 hk
  obtain rfl := Except.ok.inj (hw.symm.trans hx)
  exact ⟨runInv_iff.2 ⟨hc, hinCrc, hinData, hle, fun _ => hk, hxholds⟩, v, w, hv, hww hstepped hk ▸ hw, .inl rfl⟩

/-- R87, R89: the pass after a step builds the Word of one more pass of the loop. -/
theorem invariant_after_pass (hstepped : r.stepped = true) (hw : wsimp r.ww r.cfg.opt false = .ok w) :
    RunInv { r with ww := w, stepped := false, k := r.k + 1 } ∧
      OnProgram { r with ww := w, stepped := false, k := r.k + 1 } := by
  obtain ⟨u, v, hu, hv, -, -, -, hsimp⟩ := onProgram_cases hinv hprog
  obtain ⟨hc, hinCrc, hinData, -, hlt, hholds⟩ := runInv_iff.1 hinv
  have hk := hlt hstepped
  rw [hstepped, if_pos rfl] at hholds
  obtain ⟨x, hx, hxholds⟩ := hholds.simp r.cfg.opt false
  obtain rfl := Except.ok.inj (hw.symm.trans hx)
  have hnext : unrolled r.cfg (r.k + 1) = .ok w := by
    rw [unrolled, hu, bind_ok, loopBody, wget_inData hk, bind_ok, hv hstepped, bind_ok, ← hsimp, hw]
  exact ⟨runInv_iff.2 ⟨hc, hinCrc, hinData, hk, nofun, hxholds⟩, w, w, hnext, rfl, .inl rfl⟩

/-- R27, R89: a pass of the loop, as its step and the pass after it. -/
theorem invariant_after_loopBody (hstepped : r.stepped = false) (hk : r.k < r.cfg.D)
    (hw : loopBody r.cfg r.inData r.k r.ww = .ok w) :
    RunInv { r with ww := w, k := r.k + 1 } ∧ OnProgram { r with ww := w, k := r.k + 1 } := by
  obtain ⟨d, hd, hrest⟩ := bind_eq_ok.1 hw
  obtain ⟨x, hx, hpass⟩ := bind_eq_ok.1 hrest
  obtain ⟨hinv', hprog'⟩ := invariant_after_step hinv hprog hstepped hk hd hx
  have hsame : { r with ww := w, k := r.k + 1 } = { r with ww := w, stepped := false, k := r.k + 1 } := by rw [← hstepped]
  rw [hsame]
  exact invariant_after_pass (r := { r with ww := x, stepped := true }) hinv' hprog' rfl hpass

/-- R98, R121: flattening where the pass due flattens leaves the run on the program. -/
theorem invariant_after_flat (hflat : r.cfg.opt.flatten = true) (hdue : r.stepped = true ∨ r.k = r.cfg.D)
    (hw : wflat r.ww = .ok w) : RunInv { r with ww := w } ∧ OnProgram { r with ww := w } := by
  obtain ⟨u, v, hu, hv, hv', -, hsame, -⟩ := onProgram_cases hinv hprog
  obtain ⟨hc, hinCrc, hinData, hle, hlt, hholds⟩ := runInv_iff.1 hinv
  obtain ⟨x, hx, hxholds⟩ := hholds.flat
  obtain rfl := Except.ok.inj (hw.symm.trans hx)
  have hmid : if r.stepped then stepWord r.cfg.right u (.input .data (dataIndex r.cfg r.k)) r.cfg.P = .ok v else v = u := by
    split
    next hs => exact hv hs
    next hs => exact hv' (by simpa using hs)
  exact ⟨runInv_iff.2 ⟨hc, hinCrc, hinData, hle, hlt, hxholds⟩, u, v, hu, hmid, .inr ⟨hflat, hdue, hsame ▸ hw⟩⟩

/-- R88, R89: the last pass ends the run with the Word GEN answers. -/
theorem runInvariant_after_last (hstepped : r.stepped = false) (hk : r.k = r.cfg.D)
    (hw : wsimp r.ww r.cfg.opt true = .ok w) : RunInvariant { r with ww := w, status := .done } := by
  obtain ⟨u, v, hu, -, hv, -, -, hsimp⟩ := onProgram_cases hinv hprog
  obtain ⟨hc, hinCrc, hinData, hle, hlt, hholds⟩ := runInv_iff.1 hinv
  obtain ⟨x, hx, hxholds⟩ := hholds.simp r.cfg.opt true
  obtain rfl := Except.ok.inj (hw.symm.trans hx)
  obtain rfl := hv hstepped
  have hgen : gen r.cfg = .ok w := by rw [gen, hc, bind_ok, ← hk, hu, bind_ok, ← hsimp, hw]
  exact ⟨runInv_iff.2 ⟨hc, hinCrc, hinData, hle, hlt, hxholds⟩, hk, hgen⟩

end

/-! #### The invariant of the machine -/

section
variable {s t : State} (h : Invariant s)
include h

/-- The invariant speaks of the run held and of the runs that are over only. -/
theorem invariant_of_same_runs (hrun : t.toRun = s.toRun) (hended : t.ended = s.ended) : Invariant t := by
  rw [Invariant, hrun, hended]
  exact h

theorem invariant_of_same_ended (hended : t.ended = s.ended) (hrun : RunInvariant t.toRun) : Invariant t :=
  ⟨hrun, hended ▸ h.2⟩

/-- One more run is over. -/
theorem invariant_of_ended_cons {r : Run} (hended : t.ended = r :: s.ended) (hr : RunInvariant r) (hover : r.status ≠ .running)
    (hrun : RunInvariant t.toRun) : Invariant t := by
  refine ⟨hrun, ?_⟩
  rw [hended, List.forall_mem_cons]
  exact ⟨⟨hr, hover⟩, h.2⟩

/-- R121: an operation keeps the invariant. -/
theorem invariant_of_exec {i : Instr} (hexec : exec i s = .next t) : Invariant t := by
  have running (hrun : s.status = .running) : RunInv s.toRun ∧ OnProgram s.toRun := (runInvariant_of_running hrun).1 h.1
  cases hi : isCall i with
  | true =>
    rcases exec_next_of_isCall hi hexec with ⟨v, -, rfl⟩ | ⟨c, e, -, he, rfl⟩ | ⟨c, w, -, hw, rfl⟩
    · exact invariant_of_same_runs h rfl rfl
    · exact invariant_of_ended_cons h rfl (runInvariant_failed he) nofun h.1
    · exact invariant_of_ended_cons h rfl (runInvariant_finished hw) nofun h.1
  | false =>
    rcases exec_next_of_run hi hexec with ⟨-, -, rfl | ⟨hrun, rfl⟩⟩ | ⟨-, hrun, hstepped, hk, d, w, hd, hw, rfl⟩ |
      ⟨-, hrun, hflat, hdue, w, hw, rfl⟩ | ⟨-, hrun, hstepped, w, hw, rfl⟩ | ⟨-, hrun, hstepped, hk, w, hw, rfl⟩
    · exact invariant_of_same_runs h rfl rfl
    · obtain ⟨hinv, -⟩ := running hrun
      refine invariant_of_same_runs h ?_ rfl
      rw [← hinv.inCrc_eq, ← hinv.inData_eq]
    · obtain ⟨hinv, hprog⟩ := running hrun
      exact invariant_of_same_ended h rfl (runInvariant_of_onProgram (invariant_after_step hinv hprog hstepped hk hd hw) hrun)
    · obtain ⟨hinv, hprog⟩ := running hrun
      exact invariant_of_same_ended h rfl (runInvariant_of_onProgram (invariant_after_flat hinv hprog hflat hdue hw) hrun)
    · obtain ⟨hinv, hprog⟩ := running hrun
      exact invariant_of_same_ended h rfl (runInvariant_of_onProgram (invariant_after_pass hinv hprog hstepped hw) hrun)
    · obtain ⟨hinv, hprog⟩ := running hrun
      have hdone := runInvariant_after_last hinv hprog hstepped hk hw
      exact invariant_of_ended_cons h rfl hdone nofun hdone

/-- R27: a transition keeps the invariant. -/
theorem invariant_of_runTransition (hstep : runTransition s = .next t) : Invariant t := by
  rcases runTransition_next hstep with ⟨hrun, hcases⟩ | ⟨-, c, cs, -, ⟨hc, rfl⟩ | ⟨e, he, rfl⟩⟩
  · obtain ⟨hinv, hprog⟩ := (runInvariant_of_running hrun).1 h.1
    rcases hcases with ⟨hstepped, w, hw, rfl⟩ | ⟨hstepped, hk, w, hw, rfl⟩ | ⟨hstepped, hk, w, hw, rfl⟩
    · exact invariant_of_same_ended h rfl (runInvariant_of_onProgram (invariant_after_pass hinv hprog hstepped hw) hrun)
    · exact invariant_of_same_ended h rfl (runInvariant_of_onProgram (invariant_after_loopBody hinv hprog hstepped hk hw) hrun)
    · have hdone := runInvariant_after_last hinv hprog hstepped hk hw
      exact invariant_of_ended_cons h rfl hdone nofun hdone
  · exact invariant_of_same_ended h rfl (runInvariant_start hc)
  · exact invariant_of_ended_cons h rfl (runInvariant_failed he) nofun (runInvariant_failed he)

/-- R121: a step keeps the invariant. -/
theorem invariant_of_step (hstep : step s = .next t) : Invariant t := by
  rcases step_next hstep with ⟨-, htransition⟩ | ⟨i, rest, -, hexec⟩
  · exact invariant_of_runTransition h htransition
  · exact invariant_of_exec (s := { s with calls := rest }) h hexec

end

/-- Settles O58: each way a step ends leaves the run held on the program of GEN, or over, and adds only runs that ended as they
should. -/
theorem invariantIsKept : Obligations.InvariantIsKept := fun _ _ => invariant_of_step

/-- Settles O59: the machine rests in the start of a run, and no run is over. -/
theorem invariantHoldsAtReset : Obligations.InvariantHoldsAtReset := ⟨runInvariant_start rfl, nofun⟩

/-! #### The separation of runs -/

/-- R127: a step leaves the runs that are over as they are and adds at most one. -/
theorem step_next_ended {s t : State} (h : step s = .next t) :
    t.ended = s.ended ∨ ∃ r, r.status ≠ .running ∧ t.ended = r :: s.ended := by
  rcases step_next h with ⟨-, h⟩ | ⟨i, rest, -, h⟩
  · rcases runTransition_next h with ⟨-, ⟨-, w, -, rfl⟩ | ⟨-, -, w, -, rfl⟩ | ⟨-, -, w, -, rfl⟩⟩ |
      ⟨-, c, cs, -, ⟨-, rfl⟩ | ⟨e, -, rfl⟩⟩
    · exact .inl rfl
    · exact .inl rfl
    · exact .inr ⟨{ s.toRun with ww := w, status := .done }, nofun, rfl⟩
    · exact .inl rfl
    · exact .inr ⟨Run.failed c e, nofun, rfl⟩
  · rcases exec_next_cases h with ⟨-, hended, -⟩ | ⟨c, e, -, -, rfl⟩ | ⟨c, w, -, -, rfl⟩ | ⟨-, -, -, -, w, -, rfl⟩
    · exact .inl hended
    · exact .inr ⟨Run.failed (readCfg { s with calls := rest } c) e, nofun, rfl⟩
    · exact .inr ⟨Run.finished (readCfg { s with calls := rest } c) w, nofun, rfl⟩
    · exact .inr ⟨{ s.toRun with ww := w, status := .done }, nofun, rfl⟩

/-- R21, R127: a call leaves the run held on its Configuration, with its status or ended by its last pass. -/
theorem step_next_of_call {s t : State} {i : Instr} {rest : List Byte} (h : exec i { s with calls := rest } = .next t) :
    t.cfg = s.cfg ∧ t.supply = s.supply ∧ (t.status = s.status ∨ t.status = .done) := by
  obtain ⟨hcfg, -, hsupply⟩ := exec_next_keeps h
  exact ⟨hcfg, hsupply, (exec_next_fails h).1.imp_right fun ⟨_, _, hdone⟩ => hdone⟩

/-- R121, R127: a step leaves a running run on its Configuration, running or done. -/
theorem step_next_of_running {s t : State} (hrun : s.status = .running) (h : step s = .next t) :
    t.cfg = s.cfg ∧ t.supply = s.supply ∧ (t.status = .running ∨ t.status = .done) := by
  rcases step_next h with ⟨-, h⟩ | ⟨i, rest, -, h⟩
  · obtain ⟨hcfg, -, -, hsupply, -, hstatus⟩ := runTransition_next_of_running hrun h
    exact ⟨hcfg, hsupply, hstatus⟩
  · exact hrun ▸ step_next_of_call h

/-- R27, R129: with no Configuration supplied a step leaves a done run done, on its Configuration. -/
theorem step_next_of_done {s t : State} (hdone : s.status = .done) (hs : s.supply = []) (h : step s = .next t) :
    t.cfg = s.cfg ∧ t.supply = [] ∧ t.status = .done := by
  rcases step_next h with ⟨-, h⟩ | ⟨i, rest, -, h⟩
  · obtain ⟨-, c, cs, hcons, -⟩ := runTransition_next_of_not_running (by simp [hdone]) h
    simp [hs] at hcons
  · obtain ⟨hcfg, hsupply, hstatus⟩ := step_next_of_call h
    exact ⟨hcfg, hsupply.trans hs, or_self_iff.1 (hdone ▸ hstatus)⟩

/-- R121, R127: with no Configuration supplied no number of steps takes a run that has not failed from its Configuration. -/
theorem run_next_of_observable {n : Nat} {s t : State} (h : Invariant s) (hstatus : s.status = .running ∨ s.status = .done)
    (hs : s.supply = []) (hrun : Sys2Proof.core.run n s = .next t) :
    Invariant t ∧ t.cfg = s.cfg ∧ (t.status = .running ∨ t.status = .done) := by
  induction n generalizing s with
  | zero =>
    cases hrun
    exact ⟨h, rfl, hstatus⟩
  | succ n ih =>
    obtain ⟨u, hu, hrun⟩ := (run_succ_eq_next Sys2Proof.core n s t).1 hrun
    have hstep : u.cfg = s.cfg ∧ u.supply = [] ∧ (u.status = .running ∨ u.status = .done) := by
      rcases hstatus with hrunning | hdone
      · exact hs ▸ step_next_of_running hrunning hu
      · obtain ⟨hcfg, hsupply, hudone⟩ := step_next_of_done hdone hs hu
        exact ⟨hcfg, hsupply, .inr hudone⟩
    obtain ⟨hcfg, hsupply, hustatus⟩ := hstep
    exact hcfg ▸ ih (invariant_of_step h hu) hustatus hsupply hrun

/-- R89, R121: the Word of a run that ended done is the one GEN delivers on its Configuration, from every state. -/
theorem genDelivers_of_done {s : State} (h : Invariant s) (hdone : s.status = .done) (u : State) :
    GenDelivers (.gen (.lit s.cfg)) u s.cfg s.ww := by
  obtain ⟨-, -, hgen⟩ := (runInvariant_of_done hdone).1 h.1
  exact genDelivers_of_gen (s := u) (c := .lit s.cfg) hgen

/-- R27: while data bits are left a running run takes a transition that consumes one. -/
theorem exists_transition_of_lt {s : State} (h : Invariant s) (hrun : s.status = .running) (hk : s.k < s.cfg.D) :
    ∃ t, runTransition s = .next t ∧ t.status = .running ∧ t.cfg = s.cfg ∧ t.k = s.k + 1 ∧ t.calls = s.calls := by
  obtain ⟨hinv, -⟩ := (runInvariant_of_running hrun).1 h.1
  obtain ⟨hc, -, hinData, -, -, hholds⟩ := runInv_iff.1 hinv
  cases hstepped : s.stepped with
  | true =>
    obtain ⟨w, hw, -⟩ := hholds.simp s.cfg.opt false
    exact ⟨_, runTransition_begun hrun hstepped hw, hrun, rfl, rfl, rfl⟩
  | false =>
    rw [hstepped, if_neg Bool.false_ne_true] at hholds
    obtain ⟨w, hw, -⟩ := hholds.body (validate_eq_ok.1 hc).1 hk
    exact ⟨_, runTransition_pass hrun hstepped hk (hinData ▸ hw), hrun, rfl, rfl, rfl⟩

/-- R27, R88: when every data bit is consumed a running run takes the transition that ends it. -/
theorem exists_transition_of_eq {s : State} (h : Invariant s) (hrun : s.status = .running) (hk : s.k = s.cfg.D) :
    ∃ t, runTransition s = .next t ∧ t.status = .done ∧ t.cfg = s.cfg := by
  obtain ⟨hinv, -⟩ := (runInvariant_of_running hrun).1 h.1
  obtain ⟨-, -, -, -, hlt, hholds⟩ := runInv_iff.1 hinv
  have hstepped : s.stepped = false := Bool.eq_false_iff.2 fun hs => by
    have := hlt hs
    omega
  obtain ⟨w, hw, -⟩ := hholds.simp s.cfg.opt true
  exact ⟨_, runTransition_finish hrun hstepped hk hw, rfl, rfl⟩

/-- R27: with no call pending a running run ends after the transitions left to it, one for each data bit left and the finish. -/
theorem run_ends {n : Nat} {s : State} (h : Invariant s) (hrun : s.status = .running) (hcalls : s.calls = [])
    (hn : s.k + n = s.cfg.D) :
    ∃ t, Sys2Proof.core.run (n + 1) s = .next t ∧ t.status = .done ∧ t.cfg = s.cfg ∧ Invariant t := by
  induction n generalizing s with
  | zero =>
    obtain ⟨t, ht, hdone, hcfg⟩ := exists_transition_of_eq h hrun hn
    rw [← step_of_calls_eq_nil hcalls] at ht
    exact ⟨t, (run_succ_eq_next Sys2Proof.core 0 s t).2 ⟨t, ht, rfl⟩, hdone, hcfg, invariant_of_step h ht⟩
  | succ n ih =>
    obtain ⟨u, hu, hurun, hcfg, huk, hucalls⟩ := exists_transition_of_lt h hrun (by omega)
    rw [← step_of_calls_eq_nil hcalls] at hu
    obtain ⟨t, ht, hdone, htcfg, htinv⟩ := ih (invariant_of_step h hu) hurun (hucalls.trans hcalls) (by rw [huk, hcfg]; omega)
    exact ⟨t, (run_succ_eq_next Sys2Proof.core (n + 1) s t).2 ⟨u, hu, ht⟩, hdone, htcfg.trans hcfg, htinv⟩

/-- Settles O60: every step keeps the invariant and, of a running run, the Configuration; by induction on the steps a run ends done only,
with the Word the invariant names, and by induction on the data bits left it does end. -/
theorem runsDoNotDisturbOneAnother : Obligations.RunsDoNotDisturbOneAnother := by
  refine ⟨fun s t => step_next_ended, fun s t _ => step_next_of_running, fun n s t h hrun hs hn => ?steps,
    fun s h hrun hcalls => ?ends⟩
  case steps =>
    obtain ⟨hinv, hcfg, hstatus⟩ := run_next_of_observable h (.inl hrun) hs hn
    exact ⟨hcfg, hstatus.imp_right fun hdone => ⟨hdone, fun u => hcfg ▸ genDelivers_of_done hinv hdone u⟩⟩
  case ends =>
    have hle := ((runInvariant_of_running hrun).1 h.1).1.k_le
    obtain ⟨t, ht, hdone, hcfg, hinv⟩ := run_ends h hrun hcalls (Nat.add_sub_of_le hle)
    exact ⟨t, ht, hdone, hcfg, fun u => hcfg ▸ genDelivers_of_done hinv hdone u⟩

end Sys2Proof.Machine
